-- ==== Sys2Proof/Word.lean ====
section
/-! DEFINITION. The word types of the block (spec 00_scope.md R8, R9): a byte (one codeword, one buffer cell, one GF(256)
element), the 12-bit width of every length and offset (`MAXBYTES` = 4095), and the 32-bit command and response word (`CMDW`). -/

namespace Sys2Proof

/-- A byte: a codeword, a buffer cell, a field element (R8 "codeword width", R9). -/
abbrev Byte := BitVec 8

/-- The width of TOTAL, DATA, NBLK and of every length and offset register (R8 `MAXBYTES`, R29). -/
abbrev Len := BitVec 12

/-- A command word or a response word (R8 `CMDW` = 32). -/
abbrev Word := BitVec 32

end Sys2Proof
end

