-- ==== Sys2Proof/Machine/Gf256.lean ====
section
/-! DEFINITION. GF(256) arithmetic and the Reed-Solomon encoder (41_gf256_rs.md R120 to R131). These functions are the spec's general
knowledge K1 to K3 (log 12); they are written from its rules, not from its tables. -/

namespace Sys2Proof.Machine

/-- `GFPOLY` = 0x11D, the polynomial x^8 + x^4 + x^3 + x^2 + 1 (R8, R122). -/
def gfpoly : BitVec 15 := 0x11D

/-- `ALPHA` = 0x02, the generator element (R8, R123). -/
def alpha : Byte := 0x02

/-- `GENBASE` = 0: the exponent of the generator polynomial's first root (R8, R128). -/
def genbase : Nat := 0

/-- Addition, and subtraction (R121). -/
def gfadd (a b : Byte) : Byte := a ^^^ b

/-- The product of two elements before reduction, up to 15 bits (R122, first loop). -/
def gfproduct (a b : Byte) : BitVec 15 :=
  (List.range 8).foldl (fun r i => if b.getLsbD i then r ^^^ (a.setWidth 15 <<< i) else r) 0

/-- Reduction modulo GFPOLY, from bit 14 down to bit 8 (R122, second loop). -/
def gfreduce (r : BitVec 15) : Byte :=
  ([14, 13, 12, 11, 10, 9, 8].foldl (fun r i => if r.getLsbD i then r ^^^ (gfpoly <<< (i - 8)) else r) r).setWidth 8

/-- Multiplication (R122). -/
def gfmul (a b : Byte) : Byte := gfreduce (gfproduct a b)

/-- `f x`, with the value of `x` found first (`withByte_eq`): so that a long run of products can be evaluated on numerals. -/
def withByte {α : Type} (x : Byte) (f : Byte → α) : α :=
  match x.toNat with
  | 0 => f 0x00
  | k + 1 => f (BitVec.ofNat 8 (k + 1))

/-- `x` multiplied by ALPHA `e` times. -/
def gfexpFrom : Nat → Byte → Byte
  | 0, x => x
  | e + 1, x => withByte (gfmul alpha x) (gfexpFrom e)

/-- Powers of the generator element: ALPHA multiplied by itself `e` times, `gfexp(0) = 0x01` (R123; its recurrence is `gfexp_succ`). -/
def gfexp (e : Nat) : Byte := gfexpFrom e 0x01

/-- The search for the exponent of `v`: `x` is `gfexp e`, and `k` exponents are left to try. -/
def gflogFrom (v : Byte) : Nat → Nat → Byte → Option Byte
  | 0, _, _ => none
  | k + 1, e, x => if x = v then some (BitVec.ofNat 8 e) else gflogFrom v k (e + 1) (gfmul alpha x)

/-- The unique `e` in 0 to 254 with `gfexp e = v`; `none` for 0x00, whose logarithm does not exist (R124). -/
def gflog (v : Byte) : Option Byte := gflogFrom v 255 0 0x01

/-- `gfexp(255 - gflog(v))`; `none` for 0x00, whose inverse does not exist (R125). -/
def gfinv (v : Byte) : Option Byte := (gflog v).map fun e => gfexp (255 - e.toNat)

/-- A polynomial, highest-degree coefficient first, times `[0x01, c]` (R127, R128). -/
def timesMonic (p : List Byte) (c : Byte) : List Byte :=
  List.zipWith gfadd (p ++ [0x00]) (0x00 :: p.map fun x => gfmul x c)

/-- The generator polynomial, highest degree first: `n + 1` bytes, the first 0x01 (R128). -/
def genpoly : Nat → List Byte
  | 0 => [0x01]
  | i + 1 => timesMonic (genpoly i) (gfexp (genbase + i))

/-- `rs` with `c` times `gs` added to its first cells. -/
def addScaled (c : Byte) : List Byte → List Byte → List Byte
  | g :: gs, r :: rs => gfadd r (gfmul c g) :: addScaled c gs rs
  | [], rs => rs
  | _ :: _, [] => []

/-- `k` steps of long division by the monic polynomial `0x01 :: gs`: each takes the leading coefficient off by subtracting that
multiple of the divisor; what is left is the remainder (R129). -/
def polyRem (gs : List Byte) : Nat → List Byte → List Byte
  | 0, p => p
  | _ + 1, [] => []
  | k + 1, c :: rest => polyRem gs k (addScaled c gs rest)

/-- The remainder of `D(X) * X^n` divided by `genpoly(n)`, `n` bytes, highest degree first, leading zeros kept (R129). -/
def rsencode (d : List Byte) (n : Nat) : List Byte :=
  polyRem (genpoly n).tail d.length (d ++ List.replicate n 0x00)

/-- One step of the shift register: feed one data byte (R130). -/
def rsShift (gs : List Byte) (reg : List Byte) (v : Byte) : List Byte :=
  addScaled (gfadd v (reg.headD 0x00)) gs (reg.tail ++ [0x00])

/-- The shift-register form of the encoder (R130). The block's rules use `rsencode`; that the two agree is an obligation. -/
def rsencodeShift (d : List Byte) (n : Nat) : List Byte :=
  d.foldl (rsShift (genpoly n).tail) (List.replicate n 0x00)

/-- The value of a polynomial, highest degree first, at a point (R127). -/
def polyEval (p : List Byte) (x : Byte) : Byte :=
  p.foldl (fun acc c => gfadd (gfmul acc x) c) 0x00

end Sys2Proof.Machine
end

