-- ==== Sys2Proof/Config.lean ====
section
/-! DEFINITION. What the spec leaves OPEN (00_scope.md R17, 92_eei_decisions.md "Parameters left OPEN"): the matrix collaborator's
type `Matrix` and its two functions `Place` and `Pen`, as uninterpreted constants; and the implementation parameters of R8. -/

namespace Sys2Proof

/-- A cell of the collaborator's matrix: "tri-state cells (unset/0/1)" (10_state.md R40). -/
inductive TriState where
  | unset
  | zero
  | one
deriving DecidableEq, Repr

/-- DESIGN CHOICE (log 2): the opaque type `Matrix` of R17 as plain data, the "two-dimensional grid of tri-state cells" that R40
quotes. Nothing of the model looks inside it: it is produced by a placement and handed to `Pen`, and to nothing else. -/
structure QrMatrix where
  rows : List (List TriState)
deriving DecidableEq, Repr

/-- A placement request: `Place(bits, ecl, ver, m)` with `m` in 0 to 7 (R17, 43_mask_eval.md R170). -/
structure PlaceRequest where
  bits : List Byte
  ecl : Byte
  ver : Byte
  mask : BitVec 3
deriving DecidableEq, Repr

/-- The answer to a placement request: `ok(M)` or `fail` (R17). -/
inductive PlaceAnswer where
  | ok (matrix : QrMatrix)
  | fail
deriving DecidableEq, Repr, Inhabited

/-- The four penalty rules, `k` = 1 to 4 (R17, R170). -/
inductive PenaltyRule where
  | rule1
  | rule2
  | rule3
  | rule4
deriving DecidableEq, Repr

/-- A penalty request: `Pen(k, M)` (R17, R170). -/
structure PenRequest where
  rule : PenaltyRule
  matrix : QrMatrix
deriving DecidableEq, Repr

/-- FREE (log 1): the collaborator's function `Place`, which the spec leaves OPEN (R17). It has no body: nothing can be proved of its
value, only that it is a function and total (R17, R230). -/
opaque Config.place : PlaceRequest → PlaceAnswer

/-- FREE (log 1): the collaborator's function `Pen`, an unsigned 32-bit number (R17, `PENW` = 32), which the spec leaves OPEN. -/
opaque Config.pen : PenRequest → Word

/-- `NMASK`: the number of mask ids (R8). -/
def Config.nmask : Nat := 8

/-- `MAXBYTES`: the largest TOTAL, DATA, NBLK and SLEN (R8, R106). -/
def Config.maxBytes : Nat := 4095

/-- The cells of each of DMEM, EMEM and OMEM (R8, R37 to R39, R60). -/
def Config.cells : Nat := 4096

end Sys2Proof
end

