-- ==== Sys2Proof/Syntax.lean ====
section
/-! DEFINITION. The command set (30_encoding.md R80 to R86): mnemonics, formats, the ONE inductive `Instr` with a constructor per row
of spec/opcode_table.json, and the assembler's terms (R89, R90) with the three pseudo-instructions, which the block never sees. -/

namespace Sys2Proof

/-- The 24 commands by name (R86). -/
inductive Mnemonic where
  | nop | clr | sett | setd | setb | sets | push | rdr | rdd | rde | rdo
  | gfadd | gfmul | gfexp | gflog | gfinv
  | part | ecgen | ilv | ecrun
  | minit | mstep | mrun | mplace
deriving DecidableEq, Repr

/-- The four encoding formats (R81 to R84). -/
inductive Format where
  | z
  | i12
  | i8
  | p
deriving DecidableEq, Repr

/-- A command with its operands (R86); each operand has exactly the width of its field (R85), so every term is encodable. -/
inductive Instr where
  | nop
  | clr
  | sett (imm12 : BitVec 12)
  | setd (imm12 : BitVec 12)
  | setb (imm12 : BitVec 12)
  | sets (a8 b8 : BitVec 8)
  | push (imm8 : BitVec 8)
  | rdr (imm8 : BitVec 8)
  | rdd (imm12 : BitVec 12)
  | rde (imm12 : BitVec 12)
  | rdo (imm12 : BitVec 12)
  | gfadd (a8 b8 : BitVec 8)
  | gfmul (a8 b8 : BitVec 8)
  | gfexp (imm8 : BitVec 8)
  | gflog (imm8 : BitVec 8)
  | gfinv (imm8 : BitVec 8)
  | part
  | ecgen
  | ilv
  | ecrun
  | minit
  | mstep
  | mrun
  | mplace
deriving DecidableEq, Repr

/-- The command a term carries. -/
def Instr.mnemonic : Instr → Mnemonic
  | .nop => .nop
  | .clr => .clr
  | .sett _ => .sett
  | .setd _ => .setd
  | .setb _ => .setb
  | .sets _ _ => .sets
  | .push _ => .push
  | .rdr _ => .rdr
  | .rdd _ => .rdd
  | .rde _ => .rde
  | .rdo _ => .rdo
  | .gfadd _ _ => .gfadd
  | .gfmul _ _ => .gfmul
  | .gfexp _ => .gfexp
  | .gflog _ => .gflog
  | .gfinv _ => .gfinv
  | .part => .part
  | .ecgen => .ecgen
  | .ilv => .ilv
  | .ecrun => .ecrun
  | .minit => .minit
  | .mstep => .mstep
  | .mrun => .mrun
  | .mplace => .mplace

/-- The readable registers by name (10_state.md R21). -/
inductive RegName where
  | status | fcmd | total | data | nblk | sym | slen | g1 | g2 | dg1 | dg2 | eclen | bidx | off | olen
  | mcur | mbest | mbslo | mbshi | mlast
deriving DecidableEq, Repr

/-- The error-correction levels by letter (R8, R89). -/
inductive Level where
  | l
  | m
  | q
  | h
deriving DecidableEq, Repr

/-- An operand as the assembler reads it (R89): a numeral, a level letter (SETS only) or a register name (RDR only). -/
inductive Operand where
  | num (n : Nat)
  | level (v : Level)
  | register (r : RegName)
deriving DecidableEq, Repr

/-- One line of an assembly listing (R89), or one of the three pseudo-instructions (R90). -/
inductive Line where
  | command (m : Mnemonic) (operands : List Operand)
  | config (t d n : Nat)
  | pushn (bytes : List Nat)
  | rdon (a n : Nat)
deriving DecidableEq, Repr

end Sys2Proof
end

