-- ==== Sys2Proof/Decode.lean ====
section
/-! DEFINITION. Decoding and encoding of the 32-bit command words (30_encoding.md R80 to R88). Decoding is total and names why a word is
illegal; the encoder is written from the same formats. A word is never split into bytes (20_memory.md R62 (c)). -/

namespace Sys2Proof

/-- Why a word decodes to no command (R87, R88). -/
inductive Illegal where
  | unassignedOpcode
  | zeroFieldSet
deriving DecidableEq, Repr

/-- A word decodes to exactly one command or is illegal (R87). -/
inductive Decoded where
  | command (i : Instr)
  | illegal (why : Illegal)
deriving DecidableEq, Repr

/-- `op = w[31:24]` (R80). -/
def opField (w : Word) : BitVec 8 := w.extractLsb' 24 8

/-- `imm12 = w[11:0]` (R82, R85). -/
def imm12Field (w : Word) : BitVec 12 := w.extractLsb' 0 12

/-- `imm8 = w[7:0]` (R83, R85). -/
def imm8Field (w : Word) : BitVec 8 := w.extractLsb' 0 8

/-- `a8 = w[15:8]` (R84, R85). -/
def a8Field (w : Word) : BitVec 8 := w.extractLsb' 8 8

/-- `b8 = w[7:0]` (R84, R85). -/
def b8Field (w : Word) : BitVec 8 := w.extractLsb' 0 8

/-- The opcode map, column `op` of R86. -/
def Mnemonic.opcode : Mnemonic → BitVec 8
  | .nop => 0x00
  | .clr => 0x01
  | .sett => 0x02
  | .setd => 0x03
  | .setb => 0x04
  | .sets => 0x05
  | .push => 0x06
  | .rdr => 0x08
  | .rdd => 0x09
  | .rde => 0x0A
  | .rdo => 0x0B
  | .gfadd => 0x10
  | .gfmul => 0x11
  | .gfexp => 0x12
  | .gflog => 0x13
  | .gfinv => 0x14
  | .part => 0x20
  | .ecgen => 0x21
  | .ilv => 0x22
  | .ecrun => 0x23
  | .minit => 0x30
  | .mstep => 0x31
  | .mrun => 0x32
  | .mplace => 0x33

/-- The opcode map, column "format" of R86. -/
def Mnemonic.format : Mnemonic → Format
  | .nop => .z
  | .clr => .z
  | .sett => .i12
  | .setd => .i12
  | .setb => .i12
  | .sets => .p
  | .push => .i8
  | .rdr => .i8
  | .rdd => .i12
  | .rde => .i12
  | .rdo => .i12
  | .gfadd => .p
  | .gfmul => .p
  | .gfexp => .i8
  | .gflog => .i8
  | .gfinv => .i8
  | .part => .z
  | .ecgen => .z
  | .ilv => .z
  | .ecrun => .z
  | .minit => .z
  | .mstep => .z
  | .mrun => .z
  | .mplace => .z

/-- The rows of R86, in the table's order. -/
def opcodeTable : List Mnemonic :=
  [.nop, .clr, .sett, .setd, .setb, .sets, .push, .rdr, .rdd, .rde, .rdo, .gfadd, .gfmul, .gfexp, .gflog, .gfinv,
    .part, .ecgen, .ilv, .ecrun, .minit, .mstep, .mrun, .mplace]

/-- The row whose `op` is the given byte, if any (R86, R87). -/
def mnemonicOfOpcode (op : BitVec 8) : Option Mnemonic :=
  opcodeTable.find? fun m => m.opcode == op

/-- The must-be-zero field of the format is all zero (R81 to R84, R87). -/
def zeroFieldClear (f : Format) (w : Word) : Bool :=
  match f with
  | .z => w.extractLsb' 0 24 == 0
  | .i12 => w.extractLsb' 12 12 == 0
  | .i8 => w.extractLsb' 8 16 == 0
  | .p => w.extractLsb' 16 8 == 0

/-- The command of a row with the operands of the word (R85, R86). -/
def withOperands (m : Mnemonic) (w : Word) : Instr :=
  match m with
  | .nop => .nop
  | .clr => .clr
  | .sett => .sett (imm12Field w)
  | .setd => .setd (imm12Field w)
  | .setb => .setb (imm12Field w)
  | .sets => .sets (a8Field w) (b8Field w)
  | .push => .push (imm8Field w)
  | .rdr => .rdr (imm8Field w)
  | .rdd => .rdd (imm12Field w)
  | .rde => .rde (imm12Field w)
  | .rdo => .rdo (imm12Field w)
  | .gfadd => .gfadd (a8Field w) (b8Field w)
  | .gfmul => .gfmul (a8Field w) (b8Field w)
  | .gfexp => .gfexp (imm8Field w)
  | .gflog => .gflog (imm8Field w)
  | .gfinv => .gfinv (imm8Field w)
  | .part => .part
  | .ecgen => .ecgen
  | .ilv => .ilv
  | .ecrun => .ecrun
  | .minit => .minit
  | .mstep => .mstep
  | .mrun => .mrun
  | .mplace => .mplace

/-- Decoding, total on every 32-bit word (R87). -/
def decode (w : Word) : Decoded :=
  match mnemonicOfOpcode (opField w) with
  | none => .illegal .unassignedOpcode
  | some m => if zeroFieldClear m.format w then .command (withOperands m w) else .illegal .zeroFieldSet

/-- `op` in bits 31:24, every other bit zero (R80 to R84: `match = op << 24`). -/
def opcodeBits (m : Mnemonic) : Word := m.opcode.setWidth 32 <<< 24

/-- Format Z: `op`, 24 zero bits (R81). -/
def encodeZ (m : Mnemonic) : Word := opcodeBits m

/-- Format I12: `op`, 12 zero bits, `imm12` (R82). -/
def encodeI12 (m : Mnemonic) (imm12 : BitVec 12) : Word := opcodeBits m ||| imm12.setWidth 32

/-- Format I8: `op`, 16 zero bits, `imm8` (R83). -/
def encodeI8 (m : Mnemonic) (imm8 : BitVec 8) : Word := opcodeBits m ||| imm8.setWidth 32

/-- Format P: `op`, 8 zero bits, `a8`, `b8` (R84). -/
def encodeP (m : Mnemonic) (a8 b8 : BitVec 8) : Word := opcodeBits m ||| a8.setWidth 32 <<< 8 ||| b8.setWidth 32

/-- The one word of a command (R81 to R86). -/
def encode : Instr → Word
  | .nop => encodeZ .nop
  | .clr => encodeZ .clr
  | .sett n => encodeI12 .sett n
  | .setd n => encodeI12 .setd n
  | .setb n => encodeI12 .setb n
  | .sets a b => encodeP .sets a b
  | .push v => encodeI8 .push v
  | .rdr n => encodeI8 .rdr n
  | .rdd a => encodeI12 .rdd a
  | .rde a => encodeI12 .rde a
  | .rdo a => encodeI12 .rdo a
  | .gfadd a b => encodeP .gfadd a b
  | .gfmul a b => encodeP .gfmul a b
  | .gfexp e => encodeI8 .gfexp e
  | .gflog v => encodeI8 .gflog v
  | .gfinv v => encodeI8 .gfinv v
  | .part => encodeZ .part
  | .ecgen => encodeZ .ecgen
  | .ilv => encodeZ .ilv
  | .ecrun => encodeZ .ecrun
  | .minit => encodeZ .minit
  | .mstep => encodeZ .mstep
  | .mrun => encodeZ .mrun
  | .mplace => encodeZ .mplace

/-- The command word whose bits the opcode table numbers: `nbits` bits of `w`, every higher bit zero. A command is one 32-bit word
(R80), so a longer row is no command word. -/
def tableWord (nbits w : Nat) : Word := BitVec.ofNat 32 (w % 2 ^ nbits)

/-- What the decoder reads from a row of spec/opcode_table.json. -/
def decodeTableWord (nbits w : Nat) : Option Instr :=
  if 32 < nbits then none
  else
    match decode (tableWord nbits w) with
    | .command i => some i
    | .illegal _ => none

/-- The number of a register in RDR (10_state.md R21, column `#`). -/
def RegName.number : RegName → BitVec 8
  | .status => 0
  | .fcmd => 1
  | .total => 2
  | .data => 3
  | .nblk => 4
  | .sym => 5
  | .slen => 6
  | .g1 => 7
  | .g2 => 8
  | .dg1 => 9
  | .dg2 => 10
  | .eclen => 11
  | .bidx => 12
  | .off => 13
  | .olen => 14
  | .mcur => 15
  | .mbest => 16
  | .mbslo => 17
  | .mbshi => 18
  | .mlast => 19

/-- The registers in the order of their numbers (R21). -/
def registerTable : List RegName :=
  [.status, .fcmd, .total, .data, .nblk, .sym, .slen, .g1, .g2, .dg1, .dg2, .eclen, .bidx, .off, .olen,
    .mcur, .mbest, .mbslo, .mbshi, .mlast]

/-- The register a number names; 20 to 255 name none (R21). -/
def registerOfNumber (n : BitVec 8) : Option RegName :=
  registerTable.find? fun r => r.number == n

/-- The level codes L, M, Q, H (00_scope.md R8). -/
def Level.code : Level → BitVec 8
  | .l => 0
  | .m => 1
  | .q => 2
  | .h => 3

/-- What an assembler operand stands for (R89). -/
def Operand.value : Operand → Nat
  | .num n => n
  | .level v => v.code.toNat
  | .register r => r.number.toNat

/-- The operand field of a command word, the operands in the order of the table's column (R85, R89). -/
def operandBits : List Nat → Word
  | [a, b] => BitVec.ofNat 32 (256 * a + b)
  | [v] => BitVec.ofNat 32 v
  | _ => 0

/-- The commands a line stands for, pseudo-instructions expanded in the order shown (R89, R90). -/
def expandLine : Line → List Instr
  | .command m operands => [withOperands m (operandBits (operands.map Operand.value))]
  | .config t d n => [.sett (BitVec.ofNat 12 t), .setd (BitVec.ofNat 12 d), .setb (BitVec.ofNat 12 n)]
  | .pushn bytes => bytes.map fun b => .push (BitVec.ofNat 8 b)
  | .rdon a n => (List.range n).map fun j => .rdo (BitVec.ofNat 12 (a + j))

end Sys2Proof
end

