-- ==== Sys2Proof/Machine/State.lean ====
section
/-! DEFINITION. The state of the block (10_state.md R20 to R48): every register, flag, buffer and stream the spec gives it, as plain
data, and the state after reset (R45). -/

namespace Sys2Proof.Machine

/-- PHASE (R24). -/
inductive Phase where
  | load
  | parted
  | ecdone
  | outv
  | masking
  | mdone
  | final
  | fault
deriving DecidableEq, Repr

/-- FCAUSE (60_exceptions.md R191): the nine codes that are ever recorded. -/
inductive Cause where
  | none
  | internal
  | illegal
  | sequence
  | config
  | length
  | range
  | operand
  | external
deriving DecidableEq, Repr

/-- The three byte buffers (R37 to R39). -/
inductive Buffer where
  | dmem
  | emem
  | omem
deriving DecidableEq, Repr

/-- The contents of a buffer: the cells that hold a value, indices strictly rising. An unlisted cell holds no value (R41). -/
abbrev Memory := List Host.Cell

/-- One transaction of the host (70_reset_and_hazards.md R228): a command word on CMD (R47), or the reset input (R220). -/
inductive HostInput where
  | command (w : Word)
  | reset
deriving DecidableEq, Repr

/-- What stops the model. None of these is the block's own fault F(cause), which is a NEXT state (60_exceptions.md R193): each marks a
state in which a rule of the spec is outside its domain, and no state reached from reset is one (`Safety.lean`, `Inv`). -/
inductive Fault where
  /-- Raised by a rule that reads a buffer cell no command has written: the cell "holds no value" and "no rule of this spec reads such
  a cell" (R41; U3 `refuse`). Safe: the model stops where hardware would read something. -/
  | cellHoldsNoValue (buffer : Buffer) (index : Nat)
  /-- Raised by a rule that would read or write a cell index above 4095: there is no such cell (R60, R66). Safe. -/
  | noSuchCell (buffer : Buffer) (index : Nat)
  /-- Raised by ECGEN and ECRUN when BIDX >= NBLK: `dlen(b)` is defined for `0 <= b < NBLK` only (42_ecc_interleave.md R151). Safe. -/
  | blockIndexOutOfRange
  /-- Raised by ECGEN and ECRUN when ECLEN = 0: "`n = 0` is outside its domain" (41_gf256_rs.md R131). Safe. -/
  | encoderLengthZero
  /-- Raised by MSTEP when MCUR > 7: mask ids are 0 to 7 (43_mask_eval.md R172, 00_scope.md R17). Safe. -/
  | maskIdOutOfRange
deriving DecidableEq, Repr

/-- Why an instruction has no meaning. -/
inductive Refusal where
  /-- Answered by `exec` for an instruction whose meaning is not written: none in this model. Safe. -/
  | notModelled (mnemonic : String)
deriving DecidableEq, Repr

/-- The state (R20): the host's streams, the collaborator's answers and buffer, and the block's registers and buffers. -/
structure State where
  /-- What the host still sends, oldest first: the rest of CMD (R47) with resets between commands (R220, R228). -/
  input : List HostInput
  /-- The index in CMD of the next word (R27). -/
  pc : Nat
  /-- RSP, oldest first (R46). -/
  rsp : List Word
  /-- The model's own: answers of `Place` known for particular requests (log 1). -/
  placeAnswers : List (PlaceRequest × PlaceAnswer)
  /-- The model's own: answers of `Pen` known for particular requests (log 1). -/
  penAnswers : List (PenRequest × Word)
  /-- PHASE (R24). -/
  phase : Phase
  /-- VSET (R28). -/
  vset : Bool
  /-- MBESTV (R28). -/
  mbestv : Bool
  /-- MFINAL (R28). -/
  mfinal : Bool
  /-- MLASTV (R28). -/
  mlastv : Bool
  /-- FCAUSE (R23). -/
  fcause : Cause
  /-- FCMD (R23). -/
  fcmd : Word
  /-- TOTAL (R29). -/
  total : Len
  /-- DATA (R29). -/
  data : Len
  /-- NBLK (R29). -/
  nblk : Len
  /-- VER (R30). -/
  ver : Byte
  /-- ECL (R30). -/
  ecl : Byte
  /-- SLEN (R31). -/
  slen : Len
  /-- G1 (R32). -/
  g1 : Len
  /-- G2 (R32). -/
  g2 : Len
  /-- DG1 (R32). -/
  dg1 : Len
  /-- DG2 (R32). -/
  dg2 : Len
  /-- ECLEN (R32). -/
  eclen : Len
  /-- BIDX (R33). -/
  bidx : Len
  /-- OFF (R33). -/
  off : Len
  /-- OLEN (R34). -/
  olen : Len
  /-- MCUR (R35). -/
  mcur : BitVec 4
  /-- MBEST (R35). -/
  mbest : BitVec 3
  /-- MBSCORE, 34 bits (R35). -/
  mbscore : BitVec 34
  /-- MLAST (R36). -/
  mlast : BitVec 3
  /-- DMEM (R37). -/
  dmem : Memory
  /-- EMEM (R38). -/
  emem : Memory
  /-- OMEM (R39). -/
  omem : Memory
  /-- MBUF (R40); `none` while it holds no placement (R45, U4, log 8). -/
  mbuf : Option QrMatrix
deriving DecidableEq, Repr

/-- After reset (R45): every register, flag and field 0, PHASE = LOAD, no cell holds a value, MBUF holds no placement. The host's streams
and the answer tables are empty (logs 1, 3, 4). -/
def State.reset : State where
  input := []
  pc := 0
  rsp := []
  placeAnswers := []
  penAnswers := []
  phase := .load
  vset := false
  mbestv := false
  mfinal := false
  mlastv := false
  fcause := .none
  fcmd := 0
  total := 0
  data := 0
  nblk := 0
  ver := 0
  ecl := 0
  slen := 0
  g1 := 0
  g2 := 0
  dg1 := 0
  dg2 := 0
  eclen := 0
  bidx := 0
  off := 0
  olen := 0
  mcur := 0
  mbest := 0
  mbscore := 0
  mlast := 0
  dmem := []
  emem := []
  omem := []
  mbuf := none

end Sys2Proof.Machine
end

