-- ==== Sys2Proof/Machine/Flags.lean ====
section
/-! DEFINITION. The flags and the STATUS view (10_state.md R22, R24, R28; 60_exceptions.md R191; 43_mask_eval.md R173). The block has no
arithmetic condition codes (R28). -/

namespace Sys2Proof.Machine

/-- The code of a phase (R24). -/
def Phase.code : Phase → BitVec 3
  | .load => 0
  | .parted => 1
  | .ecdone => 2
  | .outv => 3
  | .masking => 4
  | .mdone => 5
  | .final => 6
  | .fault => 7

/-- The code of a cause (R191). -/
def Cause.code : Cause → BitVec 4
  | .none => 0
  | .internal => 1
  | .illegal => 2
  | .sequence => 3
  | .config => 4
  | .length => 5
  | .range => 6
  | .operand => 7
  | .external => 8

/-- A flag at its place in STATUS (R22). -/
def flagBit (b : Bool) (at_ : Nat) : Word := (BitVec.ofBool b).setWidth 32 <<< at_

/-- STATUS, assembled at the read: bits 31:12 zero, 11:8 FCAUSE, 7 MLASTV, 6 MFINAL, 5 MBESTV, 4 VSET, 3 zero, 2:0 PHASE (R22). -/
def statusWord (s : State) : Word :=
  s.fcause.code.setWidth 32 <<< 8 ||| flagBit s.mlastv 7 ||| flagBit s.mfinal 6 ||| flagBit s.mbestv 5 ||| flagBit s.vset 4 |||
    s.phase.code.setWidth 32

/-- A trial's score replaces the best so far: there is none yet, or the score is strictly lower, compared unsigned (R173). -/
def replacesBest (s : State) (score : BitVec 34) : Bool :=
  !s.mbestv || decide (score.toNat < s.mbscore.toNat)

end Sys2Proof.Machine
end

