-- ==== Sys2Proof/Machine/Operands.lean ====
section
/-! DEFINITION. Operand forms: the legal ranges that are narrower than a field (30_encoding.md R85) and the read of a register by number
(10_state.md R21, R22). Immediates are the unsigned fields themselves (R85). -/

namespace Sys2Proof.Machine

/-- SETS takes a version 1 to 40 and a level code 0 to 3 (40_config_transfer.md R105). -/
def symbolLegal (version level : Byte) : Bool :=
  decide (1 ≤ version.toNat) && decide (version.toNat ≤ 40) && decide (level.toNat ≤ 3)

/-- SYM: `{zext_16(0), VER[7:0], ECL[7:0]}` (R21). -/
def symWord (s : State) : Word := s.ver.setWidth 32 <<< 8 ||| s.ecl.setWidth 32

/-- The value RDR reads, zero-extended to 32 bits (R21, R108). -/
def readRegister (s : State) (r : RegName) : Word :=
  match r with
  | .status => statusWord s
  | .fcmd => s.fcmd
  | .total => s.total.setWidth 32
  | .data => s.data.setWidth 32
  | .nblk => s.nblk.setWidth 32
  | .sym => symWord s
  | .slen => s.slen.setWidth 32
  | .g1 => s.g1.setWidth 32
  | .g2 => s.g2.setWidth 32
  | .dg1 => s.dg1.setWidth 32
  | .dg2 => s.dg2.setWidth 32
  | .eclen => s.eclen.setWidth 32
  | .bidx => s.bidx.setWidth 32
  | .off => s.off.setWidth 32
  | .olen => s.olen.setWidth 32
  | .mcur => s.mcur.setWidth 32
  | .mbest => s.mbest.setWidth 32
  | .mbslo => s.mbscore.extractLsb' 0 32
  | .mbshi => (s.mbscore.extractLsb' 32 2).setWidth 32
  | .mlast => s.mlast.setWidth 32

end Sys2Proof.Machine
end

