-- ==== Sys2Proof/Machine/Ops.lean ====
section
/-! DEFINITION. The shared operations: buffer cells (20_memory.md R60, R66), responses (00_scope.md R12), raising a fault and the two
ways out of phase FAULT (60_exceptions.md R193, R198), the requests to the collaborator (00_scope.md R17), and the order of checks
around every command (R16). -/

namespace Sys2Proof.Machine

/-! ### Buffer cells -/

/-- The value of a cell, if it holds one (R41). -/
def Memory.read : Memory → Nat → Option Byte
  | [], _ => none
  | (b, v) :: rest, a => if b = a then some v else Memory.read rest a

/-- The buffer with one cell written, its entries kept in rising order. -/
def Memory.write : Memory → Nat → Byte → Memory
  | [], a, v => [(a, v)]
  | (b, x) :: rest, a, v =>
    if a < b then (a, v) :: (b, x) :: rest
    else if a = b then (a, v) :: rest
    else (b, x) :: Memory.write rest a v

/-- The canonical form of a buffer: cell indices strictly rising, each below 4096 (R60). -/
def Memory.wf (m : Memory) : Bool :=
  decide (m.Pairwise fun x y => x.1 < y.1) && m.all fun c => decide (c.1 < Config.cells)

/-- `DMEM[a]`, `EMEM[a]`, `OMEM[a]` as a value (R10): the model stops where the cell does not exist or holds no value (log 7). -/
def readCell (b : Buffer) (m : Memory) (a : Nat) : Except Fault Byte :=
  if a < Config.cells then
    match Memory.read m a with
    | some v => .ok v
    | none => .error (.cellHoldsNoValue b a)
  else .error (.noSuchCell b a)

/-- `DMEM[a] <- v` (R10): the model stops where the cell does not exist (log 7). -/
def writeCell (b : Buffer) (m : Memory) (a : Nat) (v : Byte) : Except Fault Memory :=
  if a < Config.cells then .ok (Memory.write m a v) else .error (.noSuchCell b a)

/-- The sequence of `n` cells from `a` (R13). -/
def readSlice (b : Buffer) (m : Memory) (a : Nat) : Nat → Except Fault (List Byte)
  | 0 => .ok []
  | n + 1 =>
    match readCell b m a with
    | .error f => .error f
    | .ok v =>
      match readSlice b m (a + 1) n with
      | .error f => .error f
      | .ok vs => .ok (v :: vs)

/-- Writing a sequence to the cells from `a`, in order. -/
def writeSlice (b : Buffer) (m : Memory) (a : Nat) : List Byte → Except Fault Memory
  | [] => .ok m
  | v :: vs =>
    match writeCell b m a v with
    | .error f => .error f
    | .ok m' => writeSlice b m' (a + 1) vs

/-- The contents of a buffer by its name. -/
def bufferOf (s : State) : Buffer → Memory
  | .dmem => s.dmem
  | .emem => s.emem
  | .omem => s.omem

/-- The values of cells named one by one, in order. -/
def readCells (s : State) : List (Buffer × Nat) → Except Fault (List Byte)
  | [] => .ok []
  | (b, a) :: rest =>
    match readCell b (bufferOf s b) a with
    | .error f => .error f
    | .ok v =>
      match readCells s rest with
      | .error f => .error f
      | .ok vs => .ok (v :: vs)

/-! ### What a command's pseudocode does -/

/-- The outcome of a piece of pseudocode: it runs through, it raises F(cause) with the writes made so far (R11), or it stops the model. -/
inductive Flow where
  | done (s : State)
  | raise (c : Cause) (s : State)
  | stop (f : Fault)
deriving DecidableEq, Repr

/-- One piece of pseudocode after another: nothing runs after a raise (R11). -/
def Flow.andThen (x : Flow) (next : State → Flow) : Flow :=
  match x with
  | .done s => next s
  | .raise c s => .raise c s
  | .stop f => .stop f

/-- A piece of pseudocode run `n` times. -/
def repeatFlow (body : State → Flow) : Nat → State → Flow
  | 0, s => .done s
  | n + 1, s => (body s).andThen (repeatFlow body n)

/-- Use of a value read or made: where there is none the model stops. -/
def withValue {α : Type} (x : Except Fault α) (next : α → Flow) : Flow :=
  match x with
  | .ok v => next v
  | .error f => .stop f

/-- `respond(v)` (R12, R46). -/
def respond (v : Word) (s : State) : State := { s with rsp := s.rsp ++ [v] }

/-! ### Taking a fault, and the ways out of it -/

/-- Fault entry (R193): FCAUSE and FCMD record the fault, PHASE becomes FAULT, nothing else changes. -/
def takeFault (c : Cause) (w : Word) (s : State) : State :=
  { s with fcause := c, fcmd := w, phase := .fault }

/-- What CLR and the reset input do to the block (R45, R101, R198, R220): every state element takes its reset value. The host's
streams (R46) and the collaborator's functions are not the block's and stay. -/
def clearBlock (s : State) : State :=
  { State.reset with
    input := s.input, pc := s.pc, rsp := s.rsp, placeAnswers := s.placeAnswers, penAnswers := s.penAnswers }

/-- A command's outcome as the machine's: a raise takes the fault with the command's word. -/
def finish (w : Word) : Flow → Host.Outcome State Fault Refusal
  | .done s => .next s
  | .raise c s => .next (takeFault c w s)
  | .stop f => .fault f

/-! ### The order of checks around a command (R16) -/

/-- The phase permission table (R25). In phase FAULT a word without a mark is dropped, not refused. -/
def permitted : Mnemonic → Phase → Bool
  | .nop, _ => true
  | .clr, _ => true
  | .rdr, _ => true
  | .sett, p => p = .load
  | .setd, p => p = .load
  | .setb, p => p = .load
  | .push, p => p = .load
  | .sets, p => p = .load || p = .parted || p = .ecdone || p = .outv
  | .rdd, p => p != .fault
  | .rde, p => p != .load && p != .fault
  | .rdo, p => p = .outv || p = .masking || p = .mdone || p = .final
  | .gfadd, p => p != .fault
  | .gfmul, p => p != .fault
  | .gfexp, p => p != .fault
  | .gflog, p => p != .fault
  | .gfinv, p => p != .fault
  | .part, p => p = .load
  | .ecgen, p => p = .parted
  | .ilv, p => p = .ecdone
  | .ecrun, p => p = .load
  | .minit, p => p = .outv || p = .masking || p = .mdone || p = .final
  | .mrun, p => p = .outv || p = .masking || p = .mdone || p = .final
  | .mstep, p => p = .masking
  | .mplace, p => p = .mdone || p = .final

/-- The FAULT-phase filter (R195): the commands that execute there. -/
def servedInFault : Instr → Bool
  | .nop => true
  | .clr => true
  | .rdr n => (registerOfNumber n).isSome
  | .sett _ => false
  | .setd _ => false
  | .setb _ => false
  | .sets _ _ => false
  | .push _ => false
  | .rdd _ => false
  | .rde _ => false
  | .rdo _ => false
  | .gfadd _ _ => false
  | .gfmul _ _ => false
  | .gfexp _ => false
  | .gflog _ => false
  | .gfinv _ => false
  | .part => false
  | .ecgen => false
  | .ilv => false
  | .ecrun => false
  | .minit => false
  | .mstep => false
  | .mrun => false
  | .mplace => false

/-- A decoded command (R16): the FAULT-phase filter, then the phase permission, then its own pseudocode. -/
def runCommand (i : Instr) (body : State → Flow) (s : State) : Host.Outcome State Fault Refusal :=
  if s.phase = .fault then
    if servedInFault i then finish (encode i) (body s) else .next s
  else if permitted i.mnemonic s.phase then finish (encode i) (body s)
  else .next (takeFault .sequence (encode i) s)

/-- A word that decodes to no command (R88, R195): dropped in phase FAULT, else F(ILLEGAL). -/
def illegalWord (w : Word) (s : State) : State :=
  if s.phase = .fault then s else takeFault .illegal w s

/-! ### The requests to the matrix collaborator (R17, R170) -/

/-- The answer to a placement request: as the table says, else what `Place` answers (log 1). -/
def askPlace (s : State) (r : PlaceRequest) : PlaceAnswer :=
  match s.placeAnswers.lookup r with
  | some a => a
  | none => Config.place r

/-- The answer to a penalty request: as the table says, else what `Pen` answers (log 1). -/
def askPen (s : State) (r : PenRequest) : Word :=
  match s.penAnswers.lookup r with
  | some v => v
  | none => Config.pen r

/-- The sum of the four penalties of a matrix, asked in the order 1 to 4, in 34 bits (R170, R172). -/
def scoreOf (s : State) (matrix : QrMatrix) : BitVec 34 :=
  (askPen s ⟨.rule1, matrix⟩).setWidth 34 + (askPen s ⟨.rule2, matrix⟩).setWidth 34 +
    (askPen s ⟨.rule3, matrix⟩).setWidth 34 + (askPen s ⟨.rule4, matrix⟩).setWidth 34

end Sys2Proof.Machine
end

