-- ==== Sys2Proof/Machine/Field.lean ====
section
/-! DEFINITION. The field commands (41_gf256_rs.md R132 to R136). They touch no state but RSP. -/

namespace Sys2Proof.Machine

/-- GFADD: field sum (R132). -/
def execGfadd (a b : Byte) (s : State) : Host.Outcome State Fault Refusal :=
  runCommand (.gfadd a b) (fun s => .done (respond ((gfadd a b).setWidth 32) s)) s

/-- GFMUL: field product (R133). -/
def execGfmul (a b : Byte) (s : State) : Host.Outcome State Fault Refusal :=
  runCommand (.gfmul a b) (fun s => .done (respond ((gfmul a b).setWidth 32) s)) s

/-- GFEXP: power of the generator element (R134). -/
def execGfexp (e : Byte) (s : State) : Host.Outcome State Fault Refusal :=
  runCommand (.gfexp e) (fun s => .done (respond ((gfexp e.toNat).setWidth 32) s)) s

/-- A partial field function: F(OPERAND) where it does not exist, which is at 0x00 only (R124, R125, R135, R136). -/
def opFieldPartial (x : Option Byte) (s : State) : Flow :=
  match x with
  | some v => .done (respond (v.setWidth 32) s)
  | none => .raise .operand s

/-- GFLOG: discrete logarithm, F(OPERAND) at zero (R135). -/
def execGflog (v : Byte) (s : State) : Host.Outcome State Fault Refusal :=
  runCommand (.gflog v) (opFieldPartial (gflog v)) s

/-- GFINV: multiplicative inverse, F(OPERAND) at zero (R136). -/
def execGfinv (v : Byte) (s : State) : Host.Outcome State Fault Refusal :=
  runCommand (.gfinv v) (opFieldPartial (gfinv v)) s

end Sys2Proof.Machine
end

