-- ==== Sys2Proof/Machine/Interleave.lean ====
section
/-! DEFINITION. The error-correction interleaver (42_ecc_interleave.md R150 to R160). Arithmetic is on natural numbers; a value is stored
after the rule has shown that it fits its register (R150, log 9). -/

namespace Sys2Proof.Machine

/-- `dlen(b)`, the data bytes of block `b` (R151). -/
def dlen (s : State) (b : Nat) : Nat := if b < s.g1.toNat then s.dg1.toNat else s.dg2.toNat

/-- `boff(b)`, the cumulative offset of block `b`'s data in DMEM (R152). -/
def boff (s : State) : Nat → Nat
  | 0 => 0
  | b + 1 => boff s b + dlen s b

/-- The pseudocode of PART: tests (a) to (e) and checks 1 to 3 in the order written, then the geometry (R154). -/
def opPart (s : State) : Flow :=
  let total := s.total.toNat
  let data := s.data.toNat
  let nblk := s.nblk.toNat
  if nblk = 0 then .raise .config s
  else if s.slen.toNat ≠ data then .raise .length s
  else
    let g2 := total % nblk
    let g1 := nblk - g2
    let t1 := total / nblk
    let t2 := t1 + 1
    let d1 := data / nblk
    let d2 := d1 + 1
    if t1 < d1 then .raise .config s
    else
      let e1 := t1 - d1
      let e2 := t2 - d2
      if e1 ≠ e2 then .raise .internal s
      else if nblk ≠ g1 + g2 then .raise .internal s
      else if total ≠ (d1 + e1) * g1 + (d2 + e2) * g2 then .raise .internal s
      else if e1 = 0 then .raise .config s
      else if d1 = 0 then .raise .config s
      else
        .done
          { s with
            g1 := BitVec.ofNat 12 g1, g2 := BitVec.ofNat 12 g2, dg1 := BitVec.ofNat 12 d1, dg2 := BitVec.ofNat 12 d2,
            eclen := BitVec.ofNat 12 e1, bidx := 0, off := 0, phase := .parted }

/-- The pseudocode of ECGEN (R155). The two stops are outside the domains of `dlen` (R151) and `rsencode` (R131), log 9. -/
def opEcgen (s : State) : Flow :=
  let b := s.bidx.toNat
  let n := dlen s b
  let off := s.off.toNat
  let eclen := s.eclen.toNat
  if s.nblk.toNat ≤ b then .stop .blockIndexOutOfRange
  else if s.slen.toNat < off + n then .raise .range s
  else if eclen = 0 then .stop .encoderLengthZero
  else
    withValue (readSlice .dmem s.dmem off n) fun d =>
      withValue (writeSlice .emem s.emem (b * eclen) (rsencode d eclen)) fun m =>
        .done
          { s with
            emem := m, off := BitVec.ofNat 12 (off + n), bidx := BitVec.ofNat 12 (b + 1),
            phase := if b + 1 = s.nblk.toNat then .ecdone else s.phase }

/-- The maximum data-block length (R156). -/
def maxDlen (s : State) : Nat := if 0 < s.g2.toNat then s.dg2.toNat else s.dg1.toNat

/-- The cells ILV copies for data position `i`: byte `i` of every block not yet exhausted, in block order (R156, first loop). -/
def dataRow (s : State) (i : Nat) : List (Buffer × Nat) :=
  ((List.range s.nblk.toNat).filter fun b => i < dlen s b).map fun b => (Buffer.dmem, boff s b + i)

/-- The cells ILV copies for error-correction position `i`, in block order (R156, second loop). -/
def ecRow (s : State) (i : Nat) : List (Buffer × Nat) :=
  (List.range s.nblk.toNat).map fun b => (Buffer.emem, b * s.eclen.toNat + i)

/-- The cells ILV copies to OMEM, in the order it emits them (R156). -/
def emission (s : State) : List (Buffer × Nat) :=
  (List.range (maxDlen s)).flatMap (dataRow s) ++ (List.range s.eclen.toNat).flatMap (ecRow s)

/-- The pseudocode of ILV: emit, then the final count check (R156). On a failed check OLEN stays and the cells written stay. -/
def opIlv (s : State) : Flow :=
  withValue (readCells s (emission s)) fun bytes =>
    withValue (writeSlice .omem s.omem 0 bytes) fun m =>
      if bytes.length ≠ s.total.toNat then .raise .internal { s with omem := m }
      else .done { s with omem := m, olen := BitVec.ofNat 12 bytes.length, phase := .outv }

/-- The pseudocode of ECRUN: that of PART, then NBLK times that of ECGEN, then that of ILV (R157). -/
def opEcrun (s : State) : Flow :=
  ((opPart s).andThen (repeatFlow opEcgen s.nblk.toNat)).andThen opIlv

/-- PART: compute and check the block geometry (R154). -/
def execPart (s : State) : Host.Outcome State Fault Refusal := runCommand .part opPart s

/-- ECGEN: encode the next block (R155). -/
def execEcgen (s : State) : Host.Outcome State Fault Refusal := runCommand .ecgen opEcgen s

/-- ILV: interleave the blocks into OMEM (R156). -/
def execIlv (s : State) : Host.Outcome State Fault Refusal := runCommand .ilv opIlv s

/-- ECRUN: the whole interleaver in one command (R157). -/
def execEcrun (s : State) : Host.Outcome State Fault Refusal := runCommand .ecrun opEcrun s

end Sys2Proof.Machine
end

