-- ==== Sys2Proof/Machine/MaskEval.lean ====
section
/-! DEFINITION. The mask-pattern evaluator (43_mask_eval.md R170 to R175). -/

namespace Sys2Proof.Machine

/-- The pseudocode of MINIT; the evaluator needs VSET = 1 (R171). -/
def opMinit (s : State) : Flow :=
  if s.vset = false then .raise .sequence s
  else .done { s with mcur := 0, mbestv := false, mbest := 0, mbscore := 0, mfinal := false, phase := .masking }

/-- A placement under mask id `m` of the stream `OMEM[0 .. OLEN-1]` (R170): F(EXTERNAL) when the collaborator answers `fail`. MBUF then
stays as it was (U4, log 8). -/
def placement (m : BitVec 3) (s : State) (next : QrMatrix → Flow) : Flow :=
  withValue (readSlice .omem s.omem 0 s.olen.toNat) fun bits =>
    match askPlace s ⟨bits, s.ecl, s.ver, m⟩ with
    | .ok matrix => next matrix
    | .fail => .raise .external s

/-- The state after the trial of mask id `m` with placement `matrix` (R172, R173). -/
def recordTrial (m : BitVec 3) (matrix : QrMatrix) (s : State) : State :=
  let score := scoreOf s matrix
  let better := replacesBest s score
  { s with
    mbuf := some matrix, mlast := m, mlastv := true, mfinal := false,
    mbest := if better then m else s.mbest, mbscore := if better then score else s.mbscore,
    mbestv := s.mbestv || better, mcur := s.mcur + 1,
    phase := if s.mcur.toNat + 1 = Config.nmask then .mdone else s.phase }

/-- The pseudocode of MSTEP (R172). A mask id above 7 is outside the rule's domain, log 9. -/
def opMstep (s : State) : Flow :=
  if Config.nmask ≤ s.mcur.toNat then .stop .maskIdOutOfRange
  else
    let m := s.mcur.setWidth 3
    placement m s fun matrix => .done (recordTrial m matrix s)

/-- The pseudocode of MRUN: that of MINIT, then 8 times that of MSTEP (R174). -/
def opMrun (s : State) : Flow := (opMinit s).andThen (repeatFlow opMstep Config.nmask)

/-- The pseudocode of MPLACE: the placement under MBEST, with no penalty request (R175). -/
def opMplace (s : State) : Flow :=
  placement s.mbest s fun matrix =>
    .done { s with mbuf := some matrix, mlast := s.mbest, mlastv := true, mfinal := true, phase := .final }

/-- MINIT: start an evaluation (R171). -/
def execMinit (s : State) : Host.Outcome State Fault Refusal := runCommand .minit opMinit s

/-- MSTEP: evaluate one mask id (R172). -/
def execMstep (s : State) : Host.Outcome State Fault Refusal := runCommand .mstep opMstep s

/-- MRUN: the whole evaluation in one command (R174). -/
def execMrun (s : State) : Host.Outcome State Fault Refusal := runCommand .mrun opMrun s

/-- MPLACE: the final placement with the winning id (R175). -/
def execMplace (s : State) : Host.Outcome State Fault Refusal := runCommand .mplace opMplace s

end Sys2Proof.Machine
end

