-- ==== Sys2Proof/Machine/Transfer.lean ====
section
/-! DEFINITION. The configuration and transfer commands (40_config_transfer.md R100 to R111). -/

namespace Sys2Proof.Machine

/-- NOP: no state changes (R100). -/
def execNop (s : State) : Host.Outcome State Fault Refusal := runCommand .nop (fun s => .done s) s

/-- CLR: every state element takes its reset value; the streams stay (R101). -/
def execClr (s : State) : Host.Outcome State Fault Refusal := runCommand .clr (fun s => .done (clearBlock s)) s

/-- SETT: `TOTAL <- imm12` (R102). -/
def execSett (n : Len) (s : State) : Host.Outcome State Fault Refusal :=
  runCommand (.sett n) (fun s => .done { s with total := n }) s

/-- SETD: `DATA <- imm12` (R103). -/
def execSetd (n : Len) (s : State) : Host.Outcome State Fault Refusal :=
  runCommand (.setd n) (fun s => .done { s with data := n }) s

/-- SETB: `NBLK <- imm12` (R104). -/
def execSetb (n : Len) (s : State) : Host.Outcome State Fault Refusal :=
  runCommand (.setb n) (fun s => .done { s with nblk := n }) s

/-- SETS: version and level, F(OPERAND) outside their legal ranges (R105). -/
def execSets (version level : Byte) (s : State) : Host.Outcome State Fault Refusal :=
  runCommand (.sets version level)
    (fun s =>
      if symbolLegal version level then .done { s with ver := version, ecl := level, vset := true }
      else .raise .operand s) s

/-- The pseudocode of PUSH (R106). -/
def opPush (v : Byte) (s : State) : Flow :=
  if s.slen.toNat = Config.maxBytes then .raise .range s
  else withValue (writeCell .dmem s.dmem s.slen.toNat v) fun m => .done { s with dmem := m, slen := s.slen + 1 }

/-- PUSH: append one byte to the data stream (R106). -/
def execPush (v : Byte) (s : State) : Host.Outcome State Fault Refusal := runCommand (.push v) (opPush v) s

/-- The pseudocode of RDR (R108). -/
def opRdr (n : Byte) (s : State) : Flow :=
  match registerOfNumber n with
  | some r => .done (respond (readRegister s r) s)
  | none => .raise .operand s

/-- RDR: read a register (R108). -/
def execRdr (n : Byte) (s : State) : Host.Outcome State Fault Refusal := runCommand (.rdr n) (opRdr n) s

/-- The reads of a buffer cell share this (R66, R107): F(RANGE) at or past the valid length, else one response, zero-extended. -/
def opReadBuffer (b : Buffer) (valid : Nat) (a : Len) (s : State) : Flow :=
  if valid ≤ a.toNat then .raise .range s
  else withValue (readCell b (bufferOf s b) a.toNat) fun v => .done (respond (v.setWidth 32) s)

/-- RDD: read one byte of the data stream, below SLEN (R109). -/
def execRdd (a : Len) (s : State) : Host.Outcome State Fault Refusal :=
  runCommand (.rdd a) (fun s => opReadBuffer .dmem s.slen.toNat a s) s

/-- RDE: read one error-correction byte, below `BIDX * ECLEN` (R110). -/
def execRde (a : Len) (s : State) : Host.Outcome State Fault Refusal :=
  runCommand (.rde a) (fun s => opReadBuffer .emem (s.bidx.toNat * s.eclen.toNat) a s) s

/-- RDO: read one byte of the interleaved output, below OLEN (R111). -/
def execRdo (a : Len) (s : State) : Host.Outcome State Fault Refusal :=
  runCommand (.rdo a) (fun s => opReadBuffer .omem s.olen.toNat a s) s

end Sys2Proof.Machine
end

