-- ==== Sys2Proof/Machine/Dispatch.lean ====
section
/-! DEFINITION. One arm per command: each calls its own meaning (30_encoding.md R86). -/

namespace Sys2Proof.Machine

def exec (i : Instr) (s : State) : Host.Outcome State Fault Refusal :=
  match i with
  | .nop => Sys2Proof.Machine.execNop s
  | .clr => Sys2Proof.Machine.execClr s
  | .sett n => Sys2Proof.Machine.execSett n s
  | .setd n => Sys2Proof.Machine.execSetd n s
  | .setb n => Sys2Proof.Machine.execSetb n s
  | .sets a b => Sys2Proof.Machine.execSets a b s
  | .push v => Sys2Proof.Machine.execPush v s
  | .rdr n => Sys2Proof.Machine.execRdr n s
  | .rdd a => Sys2Proof.Machine.execRdd a s
  | .rde a => Sys2Proof.Machine.execRde a s
  | .rdo a => Sys2Proof.Machine.execRdo a s
  | .gfadd a b => Sys2Proof.Machine.execGfadd a b s
  | .gfmul a b => Sys2Proof.Machine.execGfmul a b s
  | .gfexp e => Sys2Proof.Machine.execGfexp e s
  | .gflog v => Sys2Proof.Machine.execGflog v s
  | .gfinv v => Sys2Proof.Machine.execGfinv v s
  | .part => Sys2Proof.Machine.execPart s
  | .ecgen => Sys2Proof.Machine.execEcgen s
  | .ilv => Sys2Proof.Machine.execIlv s
  | .ecrun => Sys2Proof.Machine.execEcrun s
  | .minit => Sys2Proof.Machine.execMinit s
  | .mstep => Sys2Proof.Machine.execMstep s
  | .mrun => Sys2Proof.Machine.execMrun s
  | .mplace => Sys2Proof.Machine.execMplace s

end Sys2Proof.Machine
end

