-- ==== Sys2Proof/Machine/Step.lean ====
section
/-! DEFINITION. One step of the machine: the host's next transaction (70_reset_and_hazards.md R220, R228; 10_state.md R27, R47). -/

namespace Sys2Proof.Machine

/-- A command word taken by the block (00_scope.md R16): decoded and executed, or illegal. -/
def takeWord (w : Word) (s : State) : Host.Outcome State Fault Refusal :=
  match decode w with
  | .command i => exec i s
  | .illegal _ => .next (illegalWord w s)

/-- One step: a command word advances `pc` by 1, whatever becomes of it (R27); the reset input clears the block (R220); with no
transaction of the host the block is idle and keeps all its state (60_exceptions.md R206, log 3). -/
def step (s : State) : Host.Outcome State Fault Refusal :=
  match s.input with
  | [] => .next s
  | .reset :: rest => .next (clearBlock { s with input := rest })
  | .command w :: rest => takeWord w { s with input := rest, pc := s.pc + 1 }

/-- The state in which the host sends the given command word next (log 5). -/
def State.withFetchWord (s : State) (nbits w : Nat) : State :=
  { s with input := .command (tableWord nbits w) :: s.input }

end Sys2Proof.Machine
end

