-- ==== Sys2Proof/Safety.lean ====
section
/-! DEFINITION. The terms the statements use: the outputs (10_state.md R48), the end of a run (70_reset_and_hazards.md R223), command
sequences, the transitions of PHASE (R26), the winner of an evaluation (43_mask_eval.md R176), and `Inv`, the invariant of every
reachable state (10_state.md R31 to R41 as the spec states them), under which no rule leaves its domain. -/

namespace Sys2Proof.Machine

/-! ### What a command does, in the words of the rules -/

/-- `raise F(c)` by a command (60_exceptions.md R193): FCAUSE, FCMD and PHASE are written, and nothing else. -/
def raisesFault (i : Instr) (s : State) (c : Cause) : Prop :=
  exec i s = .next { s with fcause := c, fcmd := encode i, phase := .fault }

/-- The line "Phases" of a command's rule (10_state.md R25): F(SEQUENCE) outside the phases listed, dropped in phase FAULT. -/
def onlyIn (i : Instr) (phases : List Phase) : Prop :=
  ∀ s : State, (s.phase ≠ .fault → s.phase ∉ phases → raisesFault i s .sequence) ∧
    (s.phase = .fault → exec i s = .next s)

/-- The line "Faults: ILLEGAL" of a command's rule: a word with this `op` and a must-be-zero field, from bit `lo` up to bit 23, that is
not zero is illegal: F(ILLEGAL), but dropped in phase FAULT (30_encoding.md R87, R88). -/
def zeroFieldIllegal (op : BitVec 8) (lo : Nat) : Prop :=
  ∀ (w : Word) (s : State), w.extractLsb' 24 8 = op → w.extractLsb' lo (24 - lo) ≠ 0 →
    (s.phase ≠ .fault → takeWord w s = .next { s with fcause := .illegal, fcmd := w, phase := .fault }) ∧
    (s.phase = .fault → takeWord w s = .next s)

/-- The phases that are not FAULT. -/
def phasesButFault : List Phase := [.load, .parted, .ecdone, .outv, .masking, .mdone, .final]

/-- The permission table of R25 row by row: the phases marked `x`, phase FAULT apart. -/
def permissionRow : Mnemonic → List Phase
  | .nop | .clr | .rdr => phasesButFault
  | .sett | .setd | .setb => [.load]
  | .push => [.load]
  | .sets => [.load, .parted, .ecdone, .outv]
  | .rdd => phasesButFault
  | .rde => [.parted, .ecdone, .outv, .masking, .mdone, .final]
  | .rdo => [.outv, .masking, .mdone, .final]
  | .gfadd | .gfmul | .gfexp | .gflog | .gfinv => phasesButFault
  | .part => [.load]
  | .ecgen => [.parted]
  | .ilv => [.ecdone]
  | .ecrun => [.load]
  | .minit | .mrun => [.outv, .masking, .mdone, .final]
  | .mstep => [.masking]
  | .mplace => [.mdone, .final]

/-- The register file of R21 by number, each value as the 32-bit word a read gives. -/
def registerFile (s : State) : List Word :=
  [statusWord s, s.fcmd, BitVec.ofNat 32 s.total.toNat, BitVec.ofNat 32 s.data.toNat, BitVec.ofNat 32 s.nblk.toNat,
    BitVec.ofNat 32 (256 * s.ver.toNat + s.ecl.toNat), BitVec.ofNat 32 s.slen.toNat] ++
  [BitVec.ofNat 32 s.g1.toNat, BitVec.ofNat 32 s.g2.toNat, BitVec.ofNat 32 s.dg1.toNat, BitVec.ofNat 32 s.dg2.toNat,
    BitVec.ofNat 32 s.eclen.toNat, BitVec.ofNat 32 s.bidx.toNat, BitVec.ofNat 32 s.off.toNat, BitVec.ofNat 32 s.olen.toNat] ++
  [BitVec.ofNat 32 s.mcur.toNat, BitVec.ofNat 32 s.mbest.toNat, BitVec.ofNat 32 (s.mbscore.toNat % 2 ^ 32),
    BitVec.ofNat 32 (s.mbscore.toNat / 2 ^ 32), BitVec.ofNat 32 s.mlast.toNat]

/-- The reset values (10_state.md R45). -/
structure ResetValues (s : State) : Prop where
  phase_eq : s.phase = .load
  flags_eq : s.vset = false ∧ s.mbestv = false ∧ s.mlastv = false ∧ s.mfinal = false
  fault_eq : s.fcause = .none ∧ s.fcmd = 0
  inputs_eq : s.total = 0 ∧ s.data = 0 ∧ s.nblk = 0
  sym_eq : s.ecl = 0 ∧ s.ver = 0
  geometry_eq : s.slen = 0 ∧ s.g1 = 0 ∧ s.g2 = 0 ∧ s.dg1 = 0 ∧ s.dg2 = 0 ∧ s.eclen = 0 ∧ s.bidx = 0 ∧ s.off = 0 ∧ s.olen = 0
  mask_eq : s.mcur = 0 ∧ s.mbest = 0 ∧ s.mbscore = 0 ∧ s.mlast = 0
  cells_empty : ∀ a, Memory.read s.dmem a = none ∧ Memory.read s.emem a = none ∧ Memory.read s.omem a = none
  status_eq : statusWord s = 0

/-- The product of two polynomials, highest degree first, at its full length (41_gf256_rs.md R127). -/
def polyMul : List Byte → List Byte → List Byte
  | [], g => List.replicate (g.length - 1) 0
  | c :: q, g => List.zipWith gfadd (g.map (gfmul c) ++ List.replicate q.length 0) (0 :: polyMul q g)

/-! ### Command sequences -/

/-- The outcome of commands given one after another, until the model stops. -/
def execAll : List Instr → State → Host.Outcome State Fault Refusal
  | [], s => .next s
  | i :: rest, s =>
    match exec i s with
    | .next t => execAll rest t
    | .fault f => .fault f
    | .refused r => .refused r

/-- The commands that respond, each exactly once when it succeeds (R46). -/
def responds (i : Instr) : Bool :=
  match i.mnemonic with
  | .rdr | .rdd | .rde | .rdo => true
  | .gfadd | .gfmul | .gfexp | .gflog | .gfinv => true
  | .nop | .clr | .sett | .setd | .setb | .sets | .push => false
  | .part | .ecgen | .ilv | .ecrun => false
  | .minit | .mstep | .mrun | .mplace => false

/-! ### Outputs and the end of a run -/

/-- PHASE is OUTV, MASKING, MDONE or FINAL: the interleaved stream is complete (R24, R48). -/
def Phase.interleaved (p : Phase) : Bool := p = .outv || p = .masking || p = .mdone || p = .final

/-- PHASE is PARTED, ECDONE or one of the later phases but FAULT: the geometry is meaningful (R32). -/
def Phase.partitioned (p : Phase) : Bool := p = .parted || p = .ecdone || p.interleaved

/-- The interleaver's result: `OMEM[0 .. OLEN-1]` in the phases in which it is complete (R48). -/
def streamOutput (s : State) : Option (List Byte) :=
  if s.phase.interleaved then (readSlice .omem s.omem 0 s.olen.toNat).toOption else none

/-- ZXN's Symbol: `{VER, ECL, MBEST, MBUF}` (R48). -/
structure QrSymbol where
  ver : Byte
  ecl : Byte
  mask : BitVec 3
  matrix : QrMatrix
deriving DecidableEq, Repr

/-- The evaluator's result, in phase FINAL only (R48). -/
def symbolOutput (s : State) : Option QrSymbol :=
  if s.phase = .final then s.mbuf.map fun matrix => ⟨s.ver, s.ecl, s.mbest, matrix⟩ else none

/-- How a run ended, by its final PHASE (R223). -/
inductive RunEnd where
  | encoded
  | interleaved
  | failed
  | incomplete
deriving DecidableEq, Repr

/-- The strongest verdict of R223 on a run that ended in the state. -/
def runEnd (s : State) : RunEnd :=
  if s.phase = .fault then .failed
  else if s.phase = .final then .encoded
  else if s.phase.interleaved then .interleaved
  else .incomplete

/-! ### Transitions of PHASE, and the causes of a command -/

/-- PHASE after a command that succeeds (R26). -/
def phaseAfter (m : Mnemonic) (s : State) : Phase :=
  match m with
  | .clr => .load
  | .part => .parted
  | .ecgen => if s.bidx.toNat + 1 = s.nblk.toNat then .ecdone else .parted
  | .ilv => .outv
  | .ecrun => .outv
  | .minit => .masking
  | .mstep => if s.mcur.toNat + 1 = 8 then .mdone else .masking
  | .mrun => .mdone
  | .mplace => .final
  | .nop | .rdr | .sett | .setd | .setb | .sets | .push | .rdd | .rde | .rdo => s.phase
  | .gfadd | .gfmul | .gfexp | .gflog | .gfinv => s.phase

/-- The causes a command can raise beyond ILLEGAL and SEQUENCE (60_exceptions.md R192). -/
def causesOf : Mnemonic → List Cause
  | .nop | .clr | .sett | .setd | .setb => []
  | .sets => [.operand]
  | .push => [.range]
  | .rdr => [.operand]
  | .rdd | .rde | .rdo => [.range]
  | .gfadd | .gfmul | .gfexp => []
  | .gflog | .gfinv => [.operand]
  | .part => [.config, .length, .internal]
  | .ecgen => [.range]
  | .ilv => [.internal]
  | .ecrun => [.config, .length, .internal, .range]
  | .minit => []
  | .mstep | .mrun | .mplace => [.external]

/-! ### The evaluation -/

/-- What `Place` answers for the stream of the state under a mask id: the matrix, or none where it answers `fail` (R17). -/
def placementOf (s : State) (m : BitVec 3) : Option QrMatrix :=
  match readSlice .omem s.omem 0 s.olen.toNat with
  | .error _ => none
  | .ok bits =>
    match askPlace s ⟨bits, s.ecl, s.ver, m⟩ with
    | .ok matrix => some matrix
    | .fail => none

/-- `s(m)` of R176: the score of the trial of mask id `m`. -/
def trialScore (s : State) (m : BitVec 3) : Option (BitVec 34) := (placementOf s m).map (scoreOf s)

/-- Among the mask ids below `n`, `best` has the score `score`, no id scores less, and no lower id scores as little (R176). -/
def isWinner (s : State) (n : Nat) (best : BitVec 3) (score : BitVec 34) : Prop :=
  best.toNat < n ∧ trialScore s best = some score ∧
    ∀ m : BitVec 3, m.toNat < n →
      ∃ x, trialScore s m = some x ∧ score.toNat ≤ x.toNat ∧ (m.toNat < best.toNat → score.toNat < x.toNat)

/-- The best so far is the winner of the ids tried: "After `j` MSTEPs ... the same holds over `m < j`" (R176). -/
def bestSoFar (s : State) : Prop := s.mbestv = true → isWinner s s.mcur.toNat s.mbest s.mbscore

/-! ### The invariant -/

/-- The cells that hold a value are exactly `0 .. n-1` (R31, R38, R39). -/
abbrev holdsExactly (m : Memory) (n : Nat) : Prop := m.map Prod.fst = List.range n

/-- The geometry registers hold what PART computes and has checked (R32, R154). -/
structure Geometry (s : State) : Prop where
  nblk_pos : 1 ≤ s.nblk.toNat
  slen_eq : s.slen = s.data
  g2_eq : s.g2.toNat = s.total.toNat % s.nblk.toNat
  g1_eq : s.g1.toNat = s.nblk.toNat - s.g2.toNat
  dg1_eq : s.dg1.toNat = s.data.toNat / s.nblk.toNat
  dg2_eq : s.dg2.toNat = s.dg1.toNat + 1
  eclen_eq : s.dg1.toNat + s.eclen.toNat = s.total.toNat / s.nblk.toNat
  dg1_pos : 1 ≤ s.dg1.toNat
  eclen_pos : 1 ≤ s.eclen.toNat

/-- The mask registers before any evaluation: their reset values (R45). -/
structure NoEvaluation (s : State) : Prop where
  mcur_eq : s.mcur = 0
  mbest_eq : s.mbest = 0
  mbscore_eq : s.mbscore = 0
  mlast_eq : s.mlast = 0
  mbestv_eq : s.mbestv = false
  mlastv_eq : s.mlastv = false
  mfinal_eq : s.mfinal = false

/-- What holds of every state reached from reset. -/
structure Inv (s : State) : Prop where
  /-- DMEM cells `0 .. SLEN-1` have been written and no other (R31). -/
  dmem_filled : holdsExactly s.dmem s.slen.toNat
  /-- EMEM holds the EC bytes of the blocks encoded so far (R38, R110). -/
  emem_filled : holdsExactly s.emem (s.bidx.toNat * s.eclen.toNat)
  /-- At most MAXBYTES cells of EMEM are ever used (R38). -/
  emem_fits : s.bidx.toNat * s.eclen.toNat ≤ 4095
  /-- OMEM holds the emitted bytes (R34, R39). -/
  omem_filled : holdsExactly s.omem s.olen.toNat
  /-- A fault is recorded exactly in phase FAULT (R23, R193). -/
  fault_iff : s.phase = .fault ↔ s.fcause ≠ .none
  /-- FCMD is 0 when no fault has been taken (R23). -/
  fcmd_zero : s.fcause = .none → s.fcmd = 0
  /-- F(INTERNAL) never arises (R158). -/
  not_internal : s.fcause ≠ .internal
  /-- ECL and VER hold legal values once set, and 0 before (R30). -/
  symbol_set : s.vset = true → symbolLegal s.ver s.ecl = true
  symbol_unset : s.vset = false → s.ver = 0 ∧ s.ecl = 0
  /-- In LOAD the geometry and loop registers hold their reset value 0 (R32, R45). -/
  load_zero : s.phase = .load →
    s.g1 = 0 ∧ s.g2 = 0 ∧ s.dg1 = 0 ∧ s.dg2 = 0 ∧ s.eclen = 0 ∧ s.bidx = 0 ∧ s.off = 0
  /-- The geometry is meaningful in phases PARTED and later (R32). -/
  geometry : s.phase.partitioned = true → Geometry s
  /-- `OFF = boff(BIDX)` in phases PARTED and later (R33), and no block read past SLEN (R31). -/
  offset : s.phase.partitioned = true → s.off.toNat = boff s s.bidx.toNat ∧ s.off.toNat ≤ s.slen.toNat
  /-- In PARTED a block is left to encode (R155). -/
  parted_open : s.phase = .parted → s.bidx.toNat < s.nblk.toNat
  /-- From ECDONE on every block is encoded (R24). -/
  encoded : s.phase = .ecdone ∨ s.phase.interleaved = true → s.bidx = s.nblk
  /-- OLEN is 0 until ILV or ECRUN succeeds and equals TOTAL from then on (R34). -/
  olen_zero : s.phase = .load ∨ s.phase = .parted ∨ s.phase = .ecdone → s.olen = 0
  olen_total : s.phase.interleaved = true → s.olen = s.total
  /-- No evaluation has begun before MINIT or MRUN (R171). -/
  unevaluated : s.phase = .load ∨ s.phase = .parted ∨ s.phase = .ecdone ∨ s.phase = .outv → NoEvaluation s
  /-- The evaluator has been given a level and a version (R171). -/
  evaluator_given : s.phase = .masking ∨ s.phase = .mdone ∨ s.phase = .final → s.vset = true
  /-- In MASKING an id is left to try, and a best so far exists once one was tried (R24, R28, R172). -/
  masking : s.phase = .masking →
    s.mcur.toNat < 8 ∧ s.mfinal = false ∧ (s.mbestv = true ↔ s.mcur ≠ 0) ∧ (s.mcur ≠ 0 → s.mlastv = true)
  /-- In MDONE all 8 ids were tried and MBUF holds the placement under id 7 (R24, R178). -/
  mdone : s.phase = .mdone →
    s.mcur = 8 ∧ s.mfinal = false ∧ s.mbestv = true ∧ s.mlastv = true ∧ s.mlast = 7
  /-- In FINAL MBUF holds the placement under MBEST (R24, R175). -/
  final : s.phase = .final →
    s.mcur = 8 ∧ s.mfinal = true ∧ s.mbestv = true ∧ s.mlastv = true ∧ s.mlast = s.mbest
  /-- While MLASTV = 1, MBUF is what `Place` answers under MLAST (R40). -/
  matrix_held : s.mlastv = true → s.mbuf ≠ none ∧ s.mbuf = placementOf s s.mlast
  /-- While MLASTV = 0 it holds no placement (R45). -/
  matrix_none : s.mlastv = false → s.mbuf = none

end Sys2Proof.Machine
end

