-- ==== Sys2Proof/WellFormed.lean ====
section
/-! DEFINITION. Well-formedness. A term of `Instr` is well formed by its type: each operand has the width of its field (30_encoding.md
R85), and a value outside its LEGAL range is still a command, which raises F(OPERAND) when executed. What can be ill formed is an
assembler line: "An operand outside its field's range (not merely outside its legal range) is an assembly error, not a fault" (R89). -/

namespace Sys2Proof

/-- How many operands a command takes (R81 to R84). -/
def operandCountOk (m : Mnemonic) (operands : List Operand) : Bool :=
  match m.format with
  | .z => operands.length == 0
  | .i12 => operands.length == 1
  | .i8 => operands.length == 1
  | .p => operands.length == 2

/-- Each numeral fits its field (R85, R89). -/
def numeralsFit (m : Mnemonic) (operands : List Operand) : Bool :=
  match m.format with
  | .z => true
  | .i12 => operands.all fun o => o.value < 4096
  | .i8 => operands.all fun o => o.value < 256
  | .p => operands.all fun o => o.value < 256

/-- The operand is a level letter. -/
def Operand.isLevel : Operand → Bool
  | .num _ => false
  | .level _ => true
  | .register _ => false

/-- The operand is a register name. -/
def Operand.isRegister : Operand → Bool
  | .num _ => false
  | .level _ => false
  | .register _ => true

/-- A level letter stands only as the level of SETS, its second operand (R89). -/
def levelsInPlace (m : Mnemonic) (operands : List Operand) : Bool :=
  if m = .sets then (operands.take 1).all fun o => !o.isLevel else operands.all fun o => !o.isLevel

/-- A register name stands only as the operand of RDR (R89). -/
def registersInPlace (m : Mnemonic) (operands : List Operand) : Bool :=
  m == .rdr || operands.all fun o => !o.isRegister

/-- A line the assembler accepts (R89, R90). -/
def Line.wf : Line → Bool
  | .command m operands =>
    operandCountOk m operands && numeralsFit m operands && levelsInPlace m operands && registersInPlace m operands
  | .config t d n => t < 4096 && d < 4096 && n < 4096
  | .pushn bytes => bytes != [] && bytes.all fun b => b < 256
  | .rdon a n => 1 ≤ n && a + n ≤ 4096

/-- Assembling a listing: the command stream it stands for, or an assembly error (R89, R90). -/
def assemble (listing : List Line) : Option (List Word) :=
  if listing.all Line.wf then some (listing.flatMap fun l => (expandLine l).map encode) else none

end Sys2Proof
end

