-- ==== Sys2Proof/Certificates/Slice0/Obligations.lean ====
section
/-! DEFINITION. The statements for the provers. Each docstring names the rules of spec/ it formalises; a clause that rests on a choice
of the model names its log entry. -/

open Sys2Proof Sys2Proof.Machine

/-! ### Encoding (30_encoding.md) -/

/-- Decode and encode agree on every command, every operand at every value of its field (R80 to R87). -/
def Obligations.DecodeOfEncode : Prop :=
  ∀ i : Instr, decode (encode i) = .command i

/-- Each word has one meaning: a word that decodes to a command is the encoding of that command (R87). -/
def Obligations.EncodeOfDecode : Prop :=
  ∀ (w : Word) (i : Instr), decode w = .command i → encode i = w

/-- R87: a word is a command exactly when its `op` is a row of R86 and the zero field of the row's format is zero, which leaves room for
the operands only; every other word is illegal. -/
def Obligations.WordIsCommandIff : Prop :=
  ∀ w : Word,
    ((∃ i, decode w = .command i) ↔
      ∃ m : Mnemonic, m.opcode.toNat = w.toNat / 2 ^ 24 ∧
        w.toNat % 2 ^ 24 < (match m.format with | .z => 1 | .i12 => 2 ^ 12 | .i8 => 2 ^ 8 | .p => 2 ^ 16)) ∧
    ((¬ ∃ i, decode w = .command i) → ∃ why, decode w = .illegal why)

/-- Words written out from R81 to R86 and from the examples of R89 decode to the commands they stand for. -/
def Obligations.SampleWordsDecode : Prop :=
  decode 0x00000000 = .command .nop ∧ decode 0x0200001A = .command (.sett 26) ∧ decode 0x05000101 = .command (.sets 1 1) ∧
  decode 0x060000EC = .command (.push 0xEC) ∧ decode 0x08000000 = .command (.rdr 0) ∧
  decode 0x11000280 = .command (.gfmul 0x02 0x80) ∧ decode 0x23000000 = .command .ecrun ∧
  decode 0x33000000 = .command .mplace ∧ decode 0x07000000 = .illegal .unassignedOpcode ∧
  decode 0x0200101A = .illegal .zeroFieldSet

/-- R90: the three pseudo-instructions assemble to the commands they expand to, and to nothing where one of those is an assembly error. -/
def Obligations.PseudoInstructionsExpand : Prop :=
  (∀ t d n : Nat, assemble [.config t d n] =
    assemble [.command .sett [.num t], .command .setd [.num d], .command .setb [.num n]]) ∧
  (∀ bytes : List Nat, bytes ≠ [] →
    assemble [.pushn bytes] = assemble (bytes.map fun b => .command .push [.num b])) ∧
  (∀ a n : Nat, 1 ≤ n →
    assemble [.rdon a n] = assemble ((List.range n).map fun j => .command .rdo [.num (a + j)]))

/-! ### Reset and the step (10_state.md, 60_exceptions.md, 70_reset_and_hazards.md) -/

/-- R45: the reset values, after reset, identically after CLR, and after the reset input between two commands. -/
def Obligations.ResetLeavesResetValues : Prop :=
  ResetValues State.reset ∧
  (∀ s, ∃ t, exec .clr s = .next t ∧ ResetValues t) ∧
  (∀ s rest, s.input = .reset :: rest → ∃ t, step s = .next t ∧ ResetValues t)

/-- What reset and CLR leave alone: RSP (R46), and, by the model's choice (logs 1, 3, 4), the host's pending transactions, `pc` and the
answer tables; MBUF holds no placement (log 8). With nothing from the host the block is idle and keeps all its state (R206, log 3). -/
def Obligations.StreamsAreTheHosts : Prop :=
  (∀ s, exec .clr s = .next { State.reset with
    input := s.input, pc := s.pc, rsp := s.rsp, placeAnswers := s.placeAnswers, penAnswers := s.penAnswers }) ∧
  (∀ s rest, s.input = .reset :: rest → step s = .next { State.reset with
    input := rest, pc := s.pc, rsp := s.rsp, placeAnswers := s.placeAnswers, penAnswers := s.penAnswers }) ∧
  (∀ s : State, s.input = [] → step s = .next s)

/-- A step runs the decoded command: it takes the word, advances `pc` by 1 (R27, R47), and is `exec` of the command there. -/
def Obligations.StepRunsDecoded : Prop :=
  ∀ (s : State) (w : Word) (rest : List HostInput) (i : Instr), s.input = .command w :: rest → decode w = .command i →
    step s = exec i { s with input := rest, pc := s.pc + 1 }

/-- R27: every word the block takes advances `pc` by exactly 1, one that faults, one that is dropped and an illegal one included, and no
command changes what the host still sends. -/
def Obligations.PcCountsWords : Prop :=
  ∀ (s t : State) (w : Word) (rest : List HostInput), s.input = .command w :: rest → step s = .next t →
    t.pc = s.pc + 1 ∧ t.input = rest

/-- R88: an illegal word raises F(ILLEGAL) and does nothing else, unless the block is in phase FAULT, where it is dropped; every
unassigned `op` and every assigned `op` with a nonzero zero field is illegal alike. -/
def Obligations.IllegalWordFaults : Prop :=
  (∀ (w : Word) (s : State) (why : Illegal), decode w = .illegal why →
    (s.phase ≠ .fault → takeWord w s = .next { s with fcause := .illegal, fcmd := w, phase := .fault }) ∧
    (s.phase = .fault → takeWord w s = .next s)) ∧
  (∀ w : Word, (∀ m : Mnemonic, m.opcode ≠ opField w) → ∃ why, decode w = .illegal why) ∧
  (∀ (w : Word) (m : Mnemonic), m.opcode = opField w → zeroFieldClear m.format w = false → ∃ why, decode w = .illegal why)

/-! ### Whole-machine rules (10_state.md, 60_exceptions.md) -/

/-- R25: the phase permission table. Outside its phases a command raises F(SEQUENCE) and does nothing else; inside them it never does,
but for MINIT and MRUN with VSET = 0; in phase FAULT all but NOP, CLR and RDR are dropped. -/
def Obligations.PhasePermissions : Prop :=
  ∀ (i : Instr) (s : State),
    (s.phase ≠ .fault → s.phase ∉ permissionRow i.mnemonic → raisesFault i s .sequence) ∧
    (s.phase ∈ permissionRow i.mnemonic → ∀ t, exec i s = .next t → t.phase = .fault → t.fcause = .sequence →
      (i = .minit ∨ i = .mrun) ∧ s.vset = false) ∧
    (s.phase = .fault → i.mnemonic ≠ .nop → i.mnemonic ≠ .clr → i.mnemonic ≠ .rdr → exec i s = .next s)

/-- R26: the phase transitions. A command outside phase FAULT ends in FAULT or in the phase of its row; in phase FAULT only CLR
changes PHASE. The reset input leads to LOAD from any phase. -/
def Obligations.PhaseTransitions : Prop :=
  (∀ (i : Instr) (s t : State), exec i s = .next t →
    (s.phase ≠ .fault → t.phase = .fault ∨ t.phase = phaseAfter i.mnemonic s) ∧
    (s.phase = .fault → t.phase = if i = .clr then .load else .fault)) ∧
  (∀ (s t : State) (rest : List HostInput), s.input = .reset :: rest → step s = .next t → t.phase = .load)

/-- R193: fault entry records the cause and the whole command word, makes PHASE FAULT and changes nothing else; a command that raises a
fault responds nothing. -/
def Obligations.FaultEntry : Prop :=
  (∀ (c : Cause) (w : Word) (s : State), takeFault c w s = { s with fcause := c, fcmd := w, phase := .fault }) ∧
  (∀ (i : Instr) (s t : State), s.phase ≠ .fault → exec i s = .next t → t.phase = .fault →
    t.fcmd = encode i ∧ t.fcause ≠ .none ∧ t.rsp = s.rsp)

/-- R195: in phase FAULT only the exact NOP word, the exact CLR word and a legal RDR of 0 to 19 execute; every other word is dropped. -/
def Obligations.FaultPhaseFilter : Prop :=
  ∀ (w : Word) (s : State), s.phase = .fault →
    (w = 0x00000000 → takeWord w s = .next s) ∧
    (w = 0x01000000 → ∃ t, takeWord w s = .next t ∧ ResetValues t ∧ t.rsp = s.rsp) ∧
    (∀ n : Nat, n ≤ 19 → w.toNat = 0x08000000 + n →
      ∃ v, (registerFile s)[n]? = some v ∧ takeWord w s = .next { s with rsp := s.rsp ++ [v] }) ∧
    (w ≠ 0x01000000 → (∀ n : Nat, n ≤ 19 → w.toNat ≠ 0x08000000 + n) → takeWord w s = .next s)

/-- R23, R198: in phase FAULT the record of the first fault stays, and the only exits are CLR and reset, which restore the reset state. -/
def Obligations.FirstFaultStays : Prop :=
  ∀ s t : State, s.phase = .fault → step s = .next t →
    (t.phase = .fault ∧ t.fcause = s.fcause ∧ t.fcmd = s.fcmd) ∨
    (ResetValues t ∧ ∃ rest, s.input = .reset :: rest ∨ s.input = .command 0x01000000 :: rest)

/-- R192: the causes each command can raise. -/
def Obligations.CausesOfCommands : Prop :=
  ∀ (i : Instr) (s t : State), s.phase ≠ .fault → exec i s = .next t → t.phase = .fault →
    t.fcause = .sequence ∧ i.mnemonic ≠ .nop ∧ i.mnemonic ≠ .clr ∧ i.mnemonic ≠ .rdr ∧ i.mnemonic ≠ .rdd ∨
    t.fcause ∈ causesOf i.mnemonic

/-- R21, column "written by", and R37 to R40: no command but those named changes a register, a buffer or MBUF. The last
clause, that no command, CLR included, changes what the host still sends, `pc` or the answer tables, is the model's choice (logs 1, 3,
4). -/
def Obligations.RegistersWrittenBy : Prop :=
  ∀ (i : Instr) (s t : State), exec i s = .next t →
    (t.fcmd ≠ s.fcmd ∨ t.fcause ≠ s.fcause → t.phase = .fault ∨ i = .clr) ∧
    (t.total ≠ s.total → i.mnemonic ∈ [.sett, .clr]) ∧
    (t.data ≠ s.data → i.mnemonic ∈ [.setd, .clr]) ∧
    (t.nblk ≠ s.nblk → i.mnemonic ∈ [.setb, .clr]) ∧
    (t.ver ≠ s.ver ∨ t.ecl ≠ s.ecl → i.mnemonic ∈ [.sets, .clr]) ∧
    (t.slen ≠ s.slen ∨ t.dmem ≠ s.dmem → i.mnemonic ∈ [.push, .clr]) ∧
    (t.g1 ≠ s.g1 ∨ t.g2 ≠ s.g2 ∨ t.dg1 ≠ s.dg1 ∨ t.dg2 ≠ s.dg2 ∨ t.eclen ≠ s.eclen →
      i.mnemonic ∈ [.part, .ecrun, .clr]) ∧
    (t.bidx ≠ s.bidx ∨ t.off ≠ s.off → i.mnemonic ∈ [.part, .ecgen, .ecrun, .clr]) ∧
    (t.emem ≠ s.emem → i.mnemonic ∈ [.ecgen, .ecrun, .clr]) ∧
    (t.olen ≠ s.olen ∨ t.omem ≠ s.omem → i.mnemonic ∈ [.ilv, .ecrun, .clr]) ∧
    (t.mcur ≠ s.mcur ∨ t.mbest ≠ s.mbest ∨ t.mbscore ≠ s.mbscore → i.mnemonic ∈ [.minit, .mstep, .mrun, .clr]) ∧
    (t.mlast ≠ s.mlast ∨ t.mbuf ≠ s.mbuf → i.mnemonic ∈ [.mstep, .mrun, .mplace, .clr]) ∧
    t.input = s.input ∧ t.pc = s.pc ∧ t.placeAnswers = s.placeAnswers ∧ t.penAnswers = s.penAnswers

/-- R28: which commands set and clear each flag, and that no other does. -/
def Obligations.FlagsSetAndCleared : Prop :=
  ∀ (i : Instr) (s t : State), exec i s = .next t →
    (t.vset ≠ s.vset → i.mnemonic = if t.vset then .sets else .clr) ∧
    (t.mbestv ≠ s.mbestv → i.mnemonic ∈ if t.mbestv then [.mstep, .mrun] else [.clr, .minit, .mrun]) ∧
    (t.mlastv ≠ s.mlastv → i.mnemonic ∈ if t.mlastv then [.mstep, .mrun, .mplace] else [.clr]) ∧
    (t.mfinal ≠ s.mfinal → i.mnemonic ∈ if t.mfinal then [.mplace] else [.clr, .minit, .mstep, .mrun]) ∧
    (i = .clr → t.vset = false ∧ t.mbestv = false ∧ t.mlastv = false ∧ t.mfinal = false) ∧
    (s.phase ≠ .fault → t.phase ≠ .fault →
      (i.mnemonic = .sets → t.vset = true) ∧
      (i = .minit → t.mbestv = false ∧ t.mfinal = false) ∧
      (i = .mstep ∨ i = .mrun → t.mbestv = true ∧ t.mlastv = true ∧ t.mfinal = false) ∧
      (i = .mplace → t.mlastv = true ∧ t.mfinal = true))

/-- R46: a command that responds does so exactly once when it succeeds and not at all when it faults or is dropped; the others never
respond; reset and CLR do not empty RSP. -/
def Obligations.OneResponse : Prop :=
  (∀ (i : Instr) (s t : State), exec i s = .next t →
    (responds i = false → t.rsp = s.rsp) ∧
    (responds i = true → s.phase ≠ .fault → t.phase ≠ .fault → ∃ v, t.rsp = s.rsp ++ [v]) ∧
    (s.phase ≠ .fault → t.phase = .fault → t.rsp = s.rsp) ∧
    (s.phase = .fault → t.rsp = s.rsp ∨ ∃ n v, i = .rdr n ∧ n.toNat ≤ 19 ∧ t.rsp = s.rsp ++ [v])) ∧
  (∀ (s t : State) (rest : List HostInput), s.input = .reset :: rest → step s = .next t → t.rsp = s.rsp)

/-- R225, the count: in a command sequence without CLR that ends in a phase other than FAULT, RSP has grown by one word for each command
that responds. (It holds of every prefix of the sequence too, whence the order.) -/
def Obligations.ResponsesPairUp : Prop :=
  ∀ (commands : List Instr) (s t : State), .clr ∉ commands → execAll commands s = .next t → t.phase ≠ .fault →
    ∃ words, t.rsp = s.rsp ++ words ∧ words.length = commands.countP responds

/-- R227: TOTAL, DATA, NBLK and DMEM cannot be changed after PART or ECRUN, nor ECL and VER after MINIT or MRUN, but by CLR. -/
def Obligations.InputsFreeze : Prop :=
  ∀ (i : Instr) (s t : State), i ≠ .clr → exec i s = .next t →
    (s.phase ≠ .load →
      t.total = s.total ∧ t.data = s.data ∧ t.nblk = s.nblk ∧ t.slen = s.slen ∧ t.dmem = s.dmem) ∧
    (s.phase ∈ [.masking, .mdone, .final, .fault] → t.ecl = s.ecl ∧ t.ver = s.ver ∧ t.vset = s.vset)

/-! ### Invariants -/

/-- The invariant holds after reset. -/
def Obligations.InvAtReset : Prop := Inv State.reset

/-- The invariant is kept, and under it the model never stops: every step from a state that meets `Inv` is a next state that meets it.
So no rule reads a cell that holds no value (R41), F(INTERNAL) never arises (R158), and the buffers, the geometry, the loop registers
and MBUF are what R31 to R41 say of them. That MBUF is none while MLASTV = 0 and stays after a failed placement is the model's choice (log
8). -/
def Obligations.StepKeepsInv : Prop :=
  ∀ s : State, Inv s → ∃ t, step s = .next t ∧ Inv t

/-- Every step keeps the buffers' canonical form, in every state. -/
def Obligations.StepKeepsBuffersCanonical : Prop :=
  ∀ s t : State, Memory.wf s.dmem = true → Memory.wf s.emem = true → Memory.wf s.omem = true → step s = .next t →
    Memory.wf t.dmem = true ∧ Memory.wf t.emem = true ∧ Memory.wf t.omem = true

/-- R176: "After `j` MSTEPs ... the same holds over `m < j`": the best so far stays the winner of the ids tried. -/
def Obligations.StepKeepsBestSoFar : Prop :=
  ∀ s t : State, Inv s → bestSoFar s → step s = .next t → bestSoFar t

/-- R48: the outputs. In phases OUTV and later the stream has TOTAL bytes; in phase FINAL the symbol is `{VER, ECL, MBEST, MBUF}` with
MBUF the placement under MBEST, and in no other phase is there a symbol; in phase FAULT there is no output; outside FAULT, MFINAL = 1
says FINAL (log 15). -/
def Obligations.OutputsAreComplete : Prop :=
  ∀ s : State, Inv s →
    (s.phase.interleaved = true → ∃ bytes, streamOutput s = some bytes ∧ bytes.length = s.total.toNat ∧
      ∀ j : Nat, j < bytes.length → Memory.read s.omem j = bytes[j]?) ∧
    (s.phase = .final → ∃ matrix, symbolOutput s = some ⟨s.ver, s.ecl, s.mbest, matrix⟩ ∧ s.mbuf = some matrix ∧
      placementOf s s.mbest = some matrix) ∧
    (s.phase ≠ .final → symbolOutput s = none) ∧
    (s.phase = .fault → streamOutput s = none ∧ symbolOutput s = none) ∧
    (s.phase ≠ .fault → (s.mfinal = true ↔ s.phase = .final))

/-! ### Configuration and transfer (40_config_transfer.md) -/

/-- R100: NOP changes nothing and responds nothing, in every phase. -/
def Obligations.NopDoesNothing : Prop :=
  encode .nop = 0x00000000 ∧ zeroFieldIllegal 0x00 0 ∧ ∀ s : State, exec .nop s = .next s

/-- R101: CLR restores the reset values in every phase and leaves RSP; a CLR word with a nonzero zero field does not. That MBUF is `none`
after CLR is the model's choice (log 8): R45 and U4 leave its content open while MLASTV = 0. -/
def Obligations.ClrRestoresReset : Prop :=
  encode .clr = 0x01000000 ∧ zeroFieldIllegal 0x01 0 ∧
  ∀ s : State, ∃ t, exec .clr s = .next t ∧ ResetValues t ∧ t.rsp = s.rsp ∧ t.mbuf = none

/-- R102, R103, R104: SETT, SETD and SETB write TOTAL, DATA and NBLK in phase LOAD, any value, and nothing else. -/
def Obligations.SetInputs : Prop :=
  zeroFieldIllegal 0x02 12 ∧ zeroFieldIllegal 0x03 12 ∧ zeroFieldIllegal 0x04 12 ∧
  ∀ n : Len,
    (encode (.sett n)).toNat = 0x02000000 + n.toNat ∧ onlyIn (.sett n) [.load] ∧
    (encode (.setd n)).toNat = 0x03000000 + n.toNat ∧ onlyIn (.setd n) [.load] ∧
    (encode (.setb n)).toNat = 0x04000000 + n.toNat ∧ onlyIn (.setb n) [.load] ∧
    ∀ s : State, s.phase = .load →
      exec (.sett n) s = .next { s with total := n } ∧
      exec (.setd n) s = .next { s with data := n } ∧
      exec (.setb n) s = .next { s with nblk := n }

/-- R105: SETS writes VER, ECL and VSET for a version 1 to 40 and a level 0 to 3, and raises F(OPERAND) for others. -/
def Obligations.SetsSymbol : Prop :=
  zeroFieldIllegal 0x05 16 ∧
  ∀ a b : Byte,
    (encode (.sets a b)).toNat = 0x05000000 + 256 * a.toNat + b.toNat ∧
    onlyIn (.sets a b) [.load, .parted, .ecdone, .outv] ∧
    ∀ s : State, s.phase ∈ [.load, .parted, .ecdone, .outv] →
      (1 ≤ a.toNat → a.toNat ≤ 40 → b.toNat ≤ 3 →
        exec (.sets a b) s = .next { s with ver := a, ecl := b, vset := true }) ∧
      (a.toNat < 1 ∨ 40 < a.toNat ∨ 3 < b.toNat → raisesFault (.sets a b) s .operand)

/-- R106: PUSH writes the cell SLEN of DMEM and adds 1 to SLEN; with SLEN = 4095 it raises F(RANGE). -/
def Obligations.PushAppends : Prop :=
  zeroFieldIllegal 0x06 8 ∧
  ∀ v : Byte,
    (encode (.push v)).toNat = 0x06000000 + v.toNat ∧ onlyIn (.push v) [.load] ∧
    ∀ s : State, s.phase = .load →
      (s.slen = 4095 → raisesFault (.push v) s .range) ∧
      (s.slen ≠ 4095 →
        ∃ t, exec (.push v) s = .next t ∧ t = { s with dmem := t.dmem, slen := s.slen + 1 } ∧
          Memory.read t.dmem s.slen.toNat = some v ∧
          ∀ a : Nat, a ≠ s.slen.toNat → Memory.read t.dmem a = Memory.read s.dmem a)

/-- R108: RDR responds the register of the given number, 0 to 19, in every phase; a number above 19 raises F(OPERAND), but is dropped in
phase FAULT. -/
def Obligations.RdrReadsRegister : Prop :=
  zeroFieldIllegal 0x08 8 ∧
  ∀ (n : Byte) (s : State),
    (encode (.rdr n)).toNat = 0x08000000 + n.toNat ∧
    (n.toNat ≤ 19 → ∃ v, (registerFile s)[n.toNat]? = some v ∧ exec (.rdr n) s = .next { s with rsp := s.rsp ++ [v] }) ∧
    (19 < n.toNat → s.phase ≠ .fault → raisesFault (.rdr n) s .operand) ∧
    (19 < n.toNat → s.phase = .fault → exec (.rdr n) s = .next s)

/-- R22, R24, R191: the fields of STATUS, the phase codes and the cause codes. -/
def Obligations.StatusFields : Prop :=
  (∀ s : State, (statusWord s).toNat =
    s.phase.code.toNat + 2 ^ 4 * s.vset.toNat + 2 ^ 5 * s.mbestv.toNat + 2 ^ 6 * s.mfinal.toNat + 2 ^ 7 * s.mlastv.toNat +
      2 ^ 8 * s.fcause.code.toNat) ∧
  [Phase.load, .parted, .ecdone, .outv, .masking, .mdone, .final, .fault].map Phase.code = [0, 1, 2, 3, 4, 5, 6, 7] ∧
  [Cause.none, .internal, .illegal, .sequence, .config, .length, .range, .operand, .external].map Cause.code =
    [0, 1, 2, 3, 4, 5, 6, 7, 8]

/-- R109: RDD responds a byte of DMEM below SLEN, zero-extended, in every phase but FAULT, and raises F(RANGE) at SLEN and past it. -/
def Obligations.RddReadsData : Prop :=
  zeroFieldIllegal 0x09 12 ∧
  ∀ a : Len,
    (encode (.rdd a)).toNat = 0x09000000 + a.toNat ∧ onlyIn (.rdd a) phasesButFault ∧
    ∀ s : State, s.phase ∈ phasesButFault →
      (s.slen.toNat ≤ a.toNat → raisesFault (.rdd a) s .range) ∧
      (a.toNat < s.slen.toNat → ∀ v, Memory.read s.dmem a.toNat = some v →
        exec (.rdd a) s = .next { s with rsp := s.rsp ++ [BitVec.ofNat 32 v.toNat] })

/-- R110: RDE responds a byte of EMEM below `BIDX * ECLEN`, from PARTED on, and raises F(RANGE) at that index and past it. -/
def Obligations.RdeReadsCorrection : Prop :=
  zeroFieldIllegal 0x0A 12 ∧
  ∀ a : Len,
    (encode (.rde a)).toNat = 0x0A000000 + a.toNat ∧
    onlyIn (.rde a) [.parted, .ecdone, .outv, .masking, .mdone, .final] ∧
    ∀ s : State, s.phase ∈ [.parted, .ecdone, .outv, .masking, .mdone, .final] →
      (s.bidx.toNat * s.eclen.toNat ≤ a.toNat → raisesFault (.rde a) s .range) ∧
      (a.toNat < s.bidx.toNat * s.eclen.toNat → ∀ v, Memory.read s.emem a.toNat = some v →
        exec (.rde a) s = .next { s with rsp := s.rsp ++ [BitVec.ofNat 32 v.toNat] })

/-- R111: RDO responds a byte of OMEM below OLEN, from OUTV on, and raises F(RANGE) at OLEN and past it. -/
def Obligations.RdoReadsOutput : Prop :=
  zeroFieldIllegal 0x0B 12 ∧
  ∀ a : Len,
    (encode (.rdo a)).toNat = 0x0B000000 + a.toNat ∧ onlyIn (.rdo a) [.outv, .masking, .mdone, .final] ∧
    ∀ s : State, s.phase ∈ [.outv, .masking, .mdone, .final] →
      (s.olen.toNat ≤ a.toNat → raisesFault (.rdo a) s .range) ∧
      (a.toNat < s.olen.toNat → ∀ v, Memory.read s.omem a.toNat = some v →
        exec (.rdo a) s = .next { s with rsp := s.rsp ++ [BitVec.ofNat 32 v.toNat] })

/-- The reads never find a cell that holds no value: under `Inv` every index RDD, RDE and RDO accept has a value, so each of them
completes with a response (R41, R66, R107). -/
def Obligations.ReadsComplete : Prop :=
  ∀ (s : State) (a : Len), Inv s →
    (s.phase ≠ .fault → a.toNat < s.slen.toNat →
      ∃ v : Byte, Memory.read s.dmem a.toNat = some v ∧ exec (.rdd a) s = .next { s with rsp := s.rsp ++ [BitVec.ofNat 32 v.toNat] }) ∧
    (s.phase ≠ .fault → s.phase ≠ .load → a.toNat < s.bidx.toNat * s.eclen.toNat →
      ∃ v : Byte, Memory.read s.emem a.toNat = some v ∧ exec (.rde a) s = .next { s with rsp := s.rsp ++ [BitVec.ofNat 32 v.toNat] }) ∧
    (s.phase.interleaved = true → a.toNat < s.total.toNat →
      ∃ v : Byte, Memory.read s.omem a.toNat = some v ∧ exec (.rdo a) s = .next { s with rsp := s.rsp ++ [BitVec.ofNat 32 v.toNat] })

/-! ### GF(256) and the encoder (41_gf256_rs.md) -/

/-- R132, R133, R134: GFADD, GFMUL and GFEXP respond the field function of their operands, in every phase but FAULT, and change
nothing else. -/
def Obligations.FieldCommands : Prop :=
  zeroFieldIllegal 0x10 16 ∧ zeroFieldIllegal 0x11 16 ∧ zeroFieldIllegal 0x12 8 ∧
  (∀ a b : Byte,
    (encode (.gfadd a b)).toNat = 0x10000000 + 256 * a.toNat + b.toNat ∧ onlyIn (.gfadd a b) phasesButFault ∧
    (encode (.gfmul a b)).toNat = 0x11000000 + 256 * a.toNat + b.toNat ∧ onlyIn (.gfmul a b) phasesButFault ∧
    ∀ s : State, s.phase ∈ phasesButFault →
      exec (.gfadd a b) s = .next { s with rsp := s.rsp ++ [BitVec.ofNat 32 (gfadd a b).toNat] } ∧
      exec (.gfmul a b) s = .next { s with rsp := s.rsp ++ [BitVec.ofNat 32 (gfmul a b).toNat] }) ∧
  ∀ e : Byte,
    (encode (.gfexp e)).toNat = 0x12000000 + e.toNat ∧ onlyIn (.gfexp e) phasesButFault ∧
    ∀ s : State, s.phase ∈ phasesButFault →
      exec (.gfexp e) s = .next { s with rsp := s.rsp ++ [BitVec.ofNat 32 (gfexp e.toNat).toNat] }

/-- R135 and R124: GFLOG responds the exponent in 0 to 254 of its operand, and raises F(OPERAND) for 0. -/
def Obligations.GflogRespondsExponent : Prop :=
  zeroFieldIllegal 0x13 8 ∧
  ∀ v : Byte,
    (encode (.gflog v)).toNat = 0x13000000 + v.toNat ∧ onlyIn (.gflog v) phasesButFault ∧
    ∀ s : State, s.phase ∈ phasesButFault →
      (v = 0 → raisesFault (.gflog v) s .operand) ∧
      (v ≠ 0 → ∃ e : Nat, e ≤ 254 ∧ gfexp e = v ∧ (∀ e' : Nat, e' ≤ 254 → gfexp e' = v → e' = e) ∧
        exec (.gflog v) s = .next { s with rsp := s.rsp ++ [BitVec.ofNat 32 e] })

/-- R136 and R125: GFINV responds the unique inverse of its operand, and raises F(OPERAND) for 0. -/
def Obligations.GfinvRespondsInverse : Prop :=
  zeroFieldIllegal 0x14 8 ∧
  ∀ v : Byte,
    (encode (.gfinv v)).toNat = 0x14000000 + v.toNat ∧ onlyIn (.gfinv v) phasesButFault ∧
    ∀ s : State, s.phase ∈ phasesButFault →
      (v = 0 → raisesFault (.gfinv v) s .operand) ∧
      (v ≠ 0 → ∃ u : Byte, gfmul v u = 1 ∧ (∀ u' : Byte, gfmul v u' = 1 → u' = u) ∧
        exec (.gfinv v) s = .next { s with rsp := s.rsp ++ [BitVec.ofNat 32 u.toNat] })

/-- R126: the laws of the field. -/
def Obligations.FieldLaws : Prop :=
  (∀ a b c : Byte,
    gfadd a b = gfadd b a ∧ gfadd (gfadd a b) c = gfadd a (gfadd b c) ∧
    gfmul a b = gfmul b a ∧ gfmul (gfmul a b) c = gfmul a (gfmul b c) ∧
    gfmul a (gfadd b c) = gfadd (gfmul a b) (gfmul a c)) ∧
  (∀ a : Byte, gfadd a 0 = a ∧ gfadd a a = 0 ∧ gfmul a 1 = a ∧ gfmul a 0 = 0) ∧
  (∀ a b : Byte, gfmul a b = 0 → a = 0 ∨ b = 0) ∧
  (∀ a b x y : Byte, gflog a = some x → gflog b = some y → gfmul a b = gfexp ((x.toNat + y.toNat) % 255)) ∧
  (∀ a : Byte, a ≠ 0 → ∃ x, gflog a = some x ∧ gfexp x.toNat = a) ∧
  (∀ e : Nat, gflog (gfexp e) = some (BitVec.ofNat 8 (e % 255)))

/-- R123 without its table: the recurrence of the powers of ALPHA, which has order 255. -/
def Obligations.PowersOfAlpha : Prop :=
  gfexp 0 = 0x01 ∧
  (∀ e : Nat, (gfexp (e + 1)).toNat =
    if 2 * (gfexp e).toNat < 0x100 then 2 * (gfexp e).toNat else Nat.xor (2 * (gfexp e).toNat) 0x11D) ∧
  gfexp 255 = 0x01 ∧
  (∀ e : Nat, gfexp e = gfexp (e % 255)) ∧
  (∀ e : Nat, 1 ≤ e → e ≤ 254 → gfexp e ≠ 0x01)

/-- R129: the encoder answers exactly `n` bytes, and the codeword `d ++ rsencode(d, n)` is divisible by `genpoly(n)`: the answer is the
remainder of `D(X) * X^n`. -/
def Obligations.EncoderIsRemainder : Prop :=
  ∀ (d : List Byte) (n : Nat), 1 ≤ n →
    (rsencode d n).length = n ∧
    ∃ q : List Byte, q.length = d.length ∧ polyMul q (genpoly n) = d ++ rsencode d n

/-- R130: the shift-register form gives the same bytes as the remainder for every input. -/
def Obligations.ShiftRegisterAgrees : Prop :=
  ∀ (d : List Byte) (n : Nat), 1 ≤ n → rsencodeShift d n = rsencode d n

/-- R131: the length of the result, the all-zero inputs, linearity. -/
def Obligations.EncoderIsLinear : Prop :=
  ∀ (d e : List Byte) (n : Nat), 1 ≤ n →
    (rsencode d n).length = n ∧
    rsencode [] n = List.replicate n 0 ∧
    (∀ k : Nat, rsencode (List.replicate k 0) n = List.replicate n 0) ∧
    (d.length = e.length →
      rsencode (List.zipWith gfadd d e) n = List.zipWith gfadd (rsencode d n) (rsencode e n))

/-- R128: the generator polynomial is monic, of degree `n`, and has the roots `gfexp(0)` to `gfexp(n-1)`; so (R129) a codeword, the data
followed by its error-correction bytes, vanishes at each of them. -/
def Obligations.RootsOfTheCode : Prop :=
  (∀ n : Nat, (genpoly n).length = n + 1 ∧ (genpoly n).head? = some 0x01 ∧
    ∀ i : Nat, i < n → polyEval (genpoly n) (gfexp i) = 0) ∧
  (∀ (d : List Byte) (n i : Nat), 1 ≤ n → i < n → polyEval (d ++ rsencode d n) (gfexp i) = 0)

/-! ### The interleaver (42_ecc_interleave.md) -/

/-- R154: PART. The tests in the order written, and the geometry it stores; with the tests (a) to (c) passed the three checks hold, so
no case raises F(INTERNAL) (R158). -/
def Obligations.PartComputesGeometry : Prop :=
  encode .part = 0x20000000 ∧ zeroFieldIllegal 0x20 0 ∧ onlyIn .part [.load] ∧
  ∀ s : State, s.phase = .load →
    let total := s.total.toNat
    let data := s.data.toNat
    let nblk := s.nblk.toNat
    (nblk = 0 → raisesFault .part s .config) ∧
    (nblk ≠ 0 → s.slen ≠ s.data → raisesFault .part s .length) ∧
    (nblk ≠ 0 → s.slen = s.data → total / nblk ≤ data / nblk → raisesFault .part s .config) ∧
    (nblk ≠ 0 → s.slen = s.data → data / nblk < total / nblk → data / nblk = 0 → raisesFault .part s .config) ∧
    (nblk ≠ 0 → s.slen = s.data → data / nblk < total / nblk → data / nblk ≠ 0 →
      exec .part s = .next { s with
        g1 := BitVec.ofNat 12 (nblk - total % nblk), g2 := BitVec.ofNat 12 (total % nblk),
        dg1 := BitVec.ofNat 12 (data / nblk), dg2 := BitVec.ofNat 12 (data / nblk + 1),
        eclen := BitVec.ofNat 12 (total / nblk - data / nblk), bidx := 0, off := 0, phase := .parted })

/-- R152 and R159: the offsets in closed form, and the number of data bytes the blocks consume in all. -/
def Obligations.OffsetsInClosedForm : Prop :=
  (∀ (s : State) (b : Nat), boff s b =
    if b ≤ s.g1.toNat then b * s.dg1.toNat else s.g1.toNat * s.dg1.toNat + (b - s.g1.toNat) * s.dg2.toNat) ∧
  (∀ s : State, Geometry s →
    boff s s.nblk.toNat = s.g1.toNat * s.dg1.toNat + s.g2.toNat * s.dg2.toNat ∧
    boff s s.nblk.toNat = s.nblk.toNat * (s.data.toNat / s.nblk.toNat) + s.total.toNat % s.nblk.toNat ∧
    (boff s s.nblk.toNat = s.data.toNat ↔ s.data.toNat % s.nblk.toNat = s.total.toNat % s.nblk.toNat) ∧
    boff s s.nblk.toNat + s.nblk.toNat * s.eclen.toNat = s.total.toNat)

/-- R155: ECGEN encodes block BIDX into EMEM, advances OFF and BIDX, and ends in ECDONE after the last block; F(RANGE) where the slice
passes SLEN. The hypotheses are the rule's own domain: a block is left, ECLEN >= 1, the slice has been written. -/
def Obligations.EcgenEncodesBlock : Prop :=
  encode .ecgen = 0x21000000 ∧ zeroFieldIllegal 0x21 0 ∧ onlyIn .ecgen [.parted] ∧
  ∀ s : State, s.phase = .parted → s.bidx.toNat < s.nblk.toNat →
    let b := s.bidx.toNat
    let n := if b < s.g1.toNat then s.dg1.toNat else s.dg2.toNat
    let off := s.off.toNat
    let eclen := s.eclen.toNat
    (s.slen.toNat < off + n → raisesFault .ecgen s .range) ∧
    (off + n ≤ s.slen.toNat → 1 ≤ eclen → b * eclen + eclen ≤ 4096 →
      ∀ d : List Byte, d.length = n → (∀ j : Nat, j < n → Memory.read s.dmem (off + j) = d[j]?) →
        ∃ t, exec .ecgen s = .next t ∧
          t = { s with
            emem := t.emem, off := BitVec.ofNat 12 (off + n), bidx := BitVec.ofNat 12 (b + 1),
            phase := if b + 1 = s.nblk.toNat then .ecdone else .parted } ∧
          (∀ j : Nat, j < eclen → Memory.read t.emem (b * eclen + j) = (rsencode d eclen)[j]?) ∧
          ∀ a : Nat, a < b * eclen ∨ b * eclen + eclen ≤ a → Memory.read t.emem a = Memory.read s.emem a)

/-- R156 and R160: from every state of phase ECDONE that meets `Inv`, ILV completes with OLEN = TOTAL, each cell of the stream as the
closed form says, and nothing else changed. -/
def Obligations.IlvInterleaves : Prop :=
  ∀ s : State, Inv s → s.phase = .ecdone →
    ∃ t, exec .ilv s = .next t ∧ t = { s with omem := t.omem, olen := s.total, phase := .outv } ∧
      holdsExactly t.omem s.total.toNat ∧
      (∀ b i : Nat, b < s.nblk.toNat → i < s.dg1.toNat →
        Memory.read t.omem (i * s.nblk.toNat + b) = Memory.read s.dmem (boff s b + i)) ∧
      (∀ b : Nat, s.g1.toNat ≤ b → b < s.nblk.toNat →
        Memory.read t.omem (s.dg1.toNat * s.nblk.toNat + (b - s.g1.toNat)) = Memory.read s.dmem (boff s b + s.dg1.toNat)) ∧
      (∀ b i : Nat, b < s.nblk.toNat → i < s.eclen.toNat →
        Memory.read t.omem (s.g1.toNat * s.dg1.toNat + s.g2.toNat * s.dg2.toNat + i * s.nblk.toNat + b) =
          Memory.read s.emem (b * s.eclen.toNat + i))

/-- The final count check of R156, in any state: where the bytes emitted are not TOTAL, ILV raises F(INTERNAL) and OLEN stays. -/
def Obligations.IlvChecksCount : Prop :=
  encode .ilv = 0x22000000 ∧ zeroFieldIllegal 0x22 0 ∧ onlyIn .ilv [.ecdone] ∧
  ∀ (s : State) (bytes : List Byte) (m : Memory), s.phase = .ecdone → readCells s (emission s) = .ok bytes →
    writeSlice .omem s.omem 0 bytes = .ok m →
    (bytes.length ≠ s.total.toNat →
      exec .ilv s = .next { s with omem := m, fcause := .internal, fcmd := encode .ilv, phase := .fault }) ∧
    (bytes.length = s.total.toNat →
      exec .ilv s = .next { s with omem := m, olen := s.total, phase := .outv })

/-- R157: ECRUN is PART, NBLK times ECGEN, ILV. It succeeds exactly when the sequence does, with the same end state; where the sequence
ends in a fault, ECRUN ends in the same state with its own word in FCMD. -/
def Obligations.EcrunIsTheStages : Prop :=
  encode .ecrun = 0x23000000 ∧ zeroFieldIllegal 0x23 0 ∧ onlyIn .ecrun [.load] ∧
  ∀ s : State, s.phase = .load →
    let stages := [.part] ++ List.replicate s.nblk.toNat .ecgen ++ [.ilv]
    (∀ t, t.phase ≠ .fault → (execAll stages s = .next t ↔ exec .ecrun s = .next t)) ∧
    (∀ t, t.phase = .fault → execAll stages s = .next t → exec .ecrun s = .next { t with fcmd := encode .ecrun })

/-- R157 and R159: for every triple that passes PART, ECRUN completes with TOTAL bytes when the blocks consume no more than DATA bytes,
and raises F(RANGE) when they would consume more. -/
def Obligations.EcrunCompletes : Prop :=
  ∀ s : State, Inv s → s.phase = .load →
    let total := s.total.toNat
    let data := s.data.toNat
    let nblk := s.nblk.toNat
    nblk ≠ 0 → s.slen = s.data → data / nblk < total / nblk → data / nblk ≠ 0 →
    (nblk * (data / nblk) + total % nblk ≤ data →
      ∃ t, exec .ecrun s = .next t ∧
        t = { s with
          g1 := BitVec.ofNat 12 (nblk - total % nblk), g2 := BitVec.ofNat 12 (total % nblk),
          dg1 := BitVec.ofNat 12 (data / nblk), dg2 := BitVec.ofNat 12 (data / nblk + 1),
          eclen := BitVec.ofNat 12 (total / nblk - data / nblk), bidx := s.nblk,
          off := BitVec.ofNat 12 (nblk * (data / nblk) + total % nblk),
          emem := t.emem, omem := t.omem, olen := s.total, phase := .outv } ∧
        holdsExactly t.omem total ∧ holdsExactly t.emem (nblk * (total / nblk - data / nblk))) ∧
    (data < nblk * (data / nblk) + total % nblk →
      ∃ t, exec .ecrun s = .next t ∧ t.phase = .fault ∧ t.fcause = .range ∧ t.fcmd = 0x23000000 ∧ t.olen = 0)

/-- R161: OMEM after ECRUN is a function of TOTAL, DATA, NBLK and the data stream alone. -/
def Obligations.StreamIsFunctionOfInputs : Prop :=
  ∀ s s' t t' : State, Inv s → Inv s' → s.total = s'.total → s.data = s'.data → s.nblk = s'.nblk → s.slen = s'.slen →
    (∀ a : Nat, a < s.slen.toNat → Memory.read s.dmem a = Memory.read s'.dmem a) →
    s.phase = .load → s'.phase = .load → exec .ecrun s = .next t → exec .ecrun s' = .next t' →
    t.phase = t'.phase ∧ t.fcause = t'.fcause ∧ t.olen = t'.olen ∧ t.omem = t'.omem

/-! ### The mask evaluator (43_mask_eval.md) -/

/-- R171: MINIT starts an evaluation, and raises F(SEQUENCE) when VSET = 0. -/
def Obligations.MinitStartsEvaluation : Prop :=
  encode .minit = 0x30000000 ∧ zeroFieldIllegal 0x30 0 ∧ onlyIn .minit [.outv, .masking, .mdone, .final] ∧
  ∀ s : State, s.phase ∈ [.outv, .masking, .mdone, .final] →
    (s.vset = false → raisesFault .minit s .sequence) ∧
    (s.vset = true → exec .minit s = .next { s with
      mcur := 0, mbestv := false, mbest := 0, mbscore := 0, mfinal := false, phase := .masking })

/-- R172 and R173: MSTEP places the stream under mask id MCUR and scores it; the trial replaces the best so far when there is none or its
score is strictly lower; F(EXTERNAL) where the collaborator answers `fail`, with MBUF left open (log 8). -/
def Obligations.MstepTriesOneMask : Prop :=
  encode .mstep = 0x31000000 ∧ zeroFieldIllegal 0x31 0 ∧ onlyIn .mstep [.masking] ∧
  ∀ (s : State) (bits : List Byte), s.phase = .masking → s.mcur.toNat < 8 →
    bits.length = s.olen.toNat → (∀ j : Nat, j < bits.length → Memory.read s.omem j = bits[j]?) →
    let m := BitVec.ofNat 3 s.mcur.toNat
    (∀ matrix, askPlace s ⟨bits, s.ecl, s.ver, m⟩ = .ok matrix →
      let score := (askPen s ⟨.rule1, matrix⟩).toNat + (askPen s ⟨.rule2, matrix⟩).toNat +
        (askPen s ⟨.rule3, matrix⟩).toNat + (askPen s ⟨.rule4, matrix⟩).toNat
      let better := s.mbestv = false ∨ score < s.mbscore.toNat
      exec .mstep s = .next { s with
        mbuf := some matrix, mlast := m, mlastv := true, mfinal := false,
        mbest := if better then m else s.mbest, mbscore := if better then BitVec.ofNat 34 score else s.mbscore,
        mbestv := true, mcur := s.mcur + 1, phase := if s.mcur = 7 then .mdone else .masking }) ∧
    (askPlace s ⟨bits, s.ecl, s.ver, m⟩ = .fail →
      ∃ t, exec .mstep s = .next t ∧
        t = { s with mbuf := t.mbuf, fcause := .external, fcmd := encode .mstep, phase := .fault })

/-- R174: MRUN is MINIT, then 8 times MSTEP: it succeeds exactly when the sequence does, with the same end state; where the sequence ends
in a fault, MRUN ends in the same state with its own word in FCMD. -/
def Obligations.MrunIsTheStages : Prop :=
  encode .mrun = 0x32000000 ∧ zeroFieldIllegal 0x32 0 ∧ onlyIn .mrun [.outv, .masking, .mdone, .final] ∧
  ∀ s : State, s.phase ∈ [.outv, .masking, .mdone, .final] →
    let stages := [.minit] ++ List.replicate 8 .mstep
    (∀ t, t.phase ≠ .fault → (execAll stages s = .next t ↔ exec .mrun s = .next t)) ∧
    (∀ t, t.phase = .fault → execAll stages s = .next t → exec .mrun s = .next { t with fcmd := encode .mrun })

/-- R176 and R178: where every placement succeeds, MRUN completes in MDONE with the winner, the least mask id of least score, in MBEST and
its score in MBSCORE, and the placement under id 7 in MBUF; where some placement fails, it raises F(EXTERNAL) at the least such id. -/
def Obligations.MrunFindsWinner : Prop :=
  ∀ s : State, s.phase ∈ [.outv, .masking, .mdone, .final] → s.vset = true →
    ((∀ m, placementOf s m ≠ none) →
      ∃ t, exec .mrun s = .next t ∧
        t = { s with
          mbuf := placementOf s 7, mlast := 7, mlastv := true, mfinal := false, mbest := t.mbest, mbscore := t.mbscore,
          mbestv := true, mcur := 8, phase := .mdone } ∧
        isWinner s 8 t.mbest t.mbscore) ∧
    (∀ (m : BitVec 3) (bits : List Byte), readSlice .omem s.omem 0 s.olen.toNat = .ok bits → placementOf s m = none →
      (∀ m' : BitVec 3, m'.toNat < m.toNat → placementOf s m' ≠ none) →
      ∃ t, exec .mrun s = .next t ∧ t.phase = .fault ∧ t.fcause = .external ∧ t.fcmd = 0x32000000 ∧ t.mcur.toNat = m.toNat)

/-- R175: MPLACE places the stream once more under MBEST, whatever MLAST is, and ends in FINAL; F(EXTERNAL) where the collaborator answers
`fail`, with MBUF left open (log 8). -/
def Obligations.MplacePlacesWinner : Prop :=
  encode .mplace = 0x33000000 ∧ zeroFieldIllegal 0x33 0 ∧ onlyIn .mplace [.mdone, .final] ∧
  ∀ (s : State) (bits : List Byte), s.phase ∈ [.mdone, .final] →
    bits.length = s.olen.toNat → (∀ j : Nat, j < bits.length → Memory.read s.omem j = bits[j]?) →
    (∀ matrix, askPlace s ⟨bits, s.ecl, s.ver, s.mbest⟩ = .ok matrix →
      exec .mplace s = .next { s with
        mbuf := some matrix, mlast := s.mbest, mlastv := true, mfinal := true, phase := .final }) ∧
    (askPlace s ⟨bits, s.ecl, s.ver, s.mbest⟩ = .fail →
      ∃ t, exec .mplace s = .next t ∧
        t = { s with mbuf := t.mbuf, fcause := .external, fcmd := encode .mplace, phase := .fault })

/-- R177: for the same stream, level, version and collaborator, the chosen mask id and its score are the same, whatever the block did
before. -/
def Obligations.WinnerIsDetermined : Prop :=
  ∀ s s' t t' : State, (∀ a : Nat, Memory.read s.omem a = Memory.read s'.omem a) → s.olen = s'.olen → s.ecl = s'.ecl →
    s.ver = s'.ver → s.placeAnswers = s'.placeAnswers → s.penAnswers = s'.penAnswers →
    s.phase ∈ [.outv, .masking, .mdone, .final] → s'.phase ∈ [.outv, .masking, .mdone, .final] →
    exec .mrun s = .next t → exec .mrun s' = .next t' → t.phase ≠ .fault → t'.phase ≠ .fault →
    t.mbest = t'.mbest ∧ t.mbscore = t'.mbscore
end

