-- ==== Sys2Proof/Laws/State.lean ====
section
/-! SUPPORT. One lemma per field for each named update of State, so that no later proof unfolds a record update. -/

namespace Sys2Proof.Machine

/-! ### A response (R12) -/

@[simp] theorem respond_input (v : Word) (s : State) : (respond v s).input = s.input := rfl
@[simp] theorem respond_pc (v : Word) (s : State) : (respond v s).pc = s.pc := rfl
@[simp] theorem respond_rsp (v : Word) (s : State) : (respond v s).rsp = s.rsp ++ [v] := rfl
@[simp] theorem respond_placeAnswers (v : Word) (s : State) : (respond v s).placeAnswers = s.placeAnswers := rfl
@[simp] theorem respond_penAnswers (v : Word) (s : State) : (respond v s).penAnswers = s.penAnswers := rfl
@[simp] theorem respond_phase (v : Word) (s : State) : (respond v s).phase = s.phase := rfl
@[simp] theorem respond_vset (v : Word) (s : State) : (respond v s).vset = s.vset := rfl
@[simp] theorem respond_mbestv (v : Word) (s : State) : (respond v s).mbestv = s.mbestv := rfl
@[simp] theorem respond_mfinal (v : Word) (s : State) : (respond v s).mfinal = s.mfinal := rfl
@[simp] theorem respond_mlastv (v : Word) (s : State) : (respond v s).mlastv = s.mlastv := rfl
@[simp] theorem respond_fcause (v : Word) (s : State) : (respond v s).fcause = s.fcause := rfl
@[simp] theorem respond_fcmd (v : Word) (s : State) : (respond v s).fcmd = s.fcmd := rfl
@[simp] theorem respond_total (v : Word) (s : State) : (respond v s).total = s.total := rfl
@[simp] theorem respond_data (v : Word) (s : State) : (respond v s).data = s.data := rfl
@[simp] theorem respond_nblk (v : Word) (s : State) : (respond v s).nblk = s.nblk := rfl
@[simp] theorem respond_ver (v : Word) (s : State) : (respond v s).ver = s.ver := rfl
@[simp] theorem respond_ecl (v : Word) (s : State) : (respond v s).ecl = s.ecl := rfl
@[simp] theorem respond_slen (v : Word) (s : State) : (respond v s).slen = s.slen := rfl
@[simp] theorem respond_g1 (v : Word) (s : State) : (respond v s).g1 = s.g1 := rfl
@[simp] theorem respond_g2 (v : Word) (s : State) : (respond v s).g2 = s.g2 := rfl
@[simp] theorem respond_dg1 (v : Word) (s : State) : (respond v s).dg1 = s.dg1 := rfl
@[simp] theorem respond_dg2 (v : Word) (s : State) : (respond v s).dg2 = s.dg2 := rfl
@[simp] theorem respond_eclen (v : Word) (s : State) : (respond v s).eclen = s.eclen := rfl
@[simp] theorem respond_bidx (v : Word) (s : State) : (respond v s).bidx = s.bidx := rfl
@[simp] theorem respond_off (v : Word) (s : State) : (respond v s).off = s.off := rfl
@[simp] theorem respond_olen (v : Word) (s : State) : (respond v s).olen = s.olen := rfl
@[simp] theorem respond_mcur (v : Word) (s : State) : (respond v s).mcur = s.mcur := rfl
@[simp] theorem respond_mbest (v : Word) (s : State) : (respond v s).mbest = s.mbest := rfl
@[simp] theorem respond_mbscore (v : Word) (s : State) : (respond v s).mbscore = s.mbscore := rfl
@[simp] theorem respond_mlast (v : Word) (s : State) : (respond v s).mlast = s.mlast := rfl
@[simp] theorem respond_dmem (v : Word) (s : State) : (respond v s).dmem = s.dmem := rfl
@[simp] theorem respond_emem (v : Word) (s : State) : (respond v s).emem = s.emem := rfl
@[simp] theorem respond_omem (v : Word) (s : State) : (respond v s).omem = s.omem := rfl
@[simp] theorem respond_mbuf (v : Word) (s : State) : (respond v s).mbuf = s.mbuf := rfl

/-! ### Fault entry (R193) -/

@[simp] theorem takeFault_input (c : Cause) (w : Word) (s : State) : (takeFault c w s).input = s.input := rfl
@[simp] theorem takeFault_pc (c : Cause) (w : Word) (s : State) : (takeFault c w s).pc = s.pc := rfl
@[simp] theorem takeFault_rsp (c : Cause) (w : Word) (s : State) : (takeFault c w s).rsp = s.rsp := rfl
@[simp] theorem takeFault_placeAnswers (c : Cause) (w : Word) (s : State) : (takeFault c w s).placeAnswers = s.placeAnswers := rfl
@[simp] theorem takeFault_penAnswers (c : Cause) (w : Word) (s : State) : (takeFault c w s).penAnswers = s.penAnswers := rfl
@[simp] theorem takeFault_phase (c : Cause) (w : Word) (s : State) : (takeFault c w s).phase = .fault := rfl
@[simp] theorem takeFault_vset (c : Cause) (w : Word) (s : State) : (takeFault c w s).vset = s.vset := rfl
@[simp] theorem takeFault_mbestv (c : Cause) (w : Word) (s : State) : (takeFault c w s).mbestv = s.mbestv := rfl
@[simp] theorem takeFault_mfinal (c : Cause) (w : Word) (s : State) : (takeFault c w s).mfinal = s.mfinal := rfl
@[simp] theorem takeFault_mlastv (c : Cause) (w : Word) (s : State) : (takeFault c w s).mlastv = s.mlastv := rfl
@[simp] theorem takeFault_fcause (c : Cause) (w : Word) (s : State) : (takeFault c w s).fcause = c := rfl
@[simp] theorem takeFault_fcmd (c : Cause) (w : Word) (s : State) : (takeFault c w s).fcmd = w := rfl
@[simp] theorem takeFault_total (c : Cause) (w : Word) (s : State) : (takeFault c w s).total = s.total := rfl
@[simp] theorem takeFault_data (c : Cause) (w : Word) (s : State) : (takeFault c w s).data = s.data := rfl
@[simp] theorem takeFault_nblk (c : Cause) (w : Word) (s : State) : (takeFault c w s).nblk = s.nblk := rfl
@[simp] theorem takeFault_ver (c : Cause) (w : Word) (s : State) : (takeFault c w s).ver = s.ver := rfl
@[simp] theorem takeFault_ecl (c : Cause) (w : Word) (s : State) : (takeFault c w s).ecl = s.ecl := rfl
@[simp] theorem takeFault_slen (c : Cause) (w : Word) (s : State) : (takeFault c w s).slen = s.slen := rfl
@[simp] theorem takeFault_g1 (c : Cause) (w : Word) (s : State) : (takeFault c w s).g1 = s.g1 := rfl
@[simp] theorem takeFault_g2 (c : Cause) (w : Word) (s : State) : (takeFault c w s).g2 = s.g2 := rfl
@[simp] theorem takeFault_dg1 (c : Cause) (w : Word) (s : State) : (takeFault c w s).dg1 = s.dg1 := rfl
@[simp] theorem takeFault_dg2 (c : Cause) (w : Word) (s : State) : (takeFault c w s).dg2 = s.dg2 := rfl
@[simp] theorem takeFault_eclen (c : Cause) (w : Word) (s : State) : (takeFault c w s).eclen = s.eclen := rfl
@[simp] theorem takeFault_bidx (c : Cause) (w : Word) (s : State) : (takeFault c w s).bidx = s.bidx := rfl
@[simp] theorem takeFault_off (c : Cause) (w : Word) (s : State) : (takeFault c w s).off = s.off := rfl
@[simp] theorem takeFault_olen (c : Cause) (w : Word) (s : State) : (takeFault c w s).olen = s.olen := rfl
@[simp] theorem takeFault_mcur (c : Cause) (w : Word) (s : State) : (takeFault c w s).mcur = s.mcur := rfl
@[simp] theorem takeFault_mbest (c : Cause) (w : Word) (s : State) : (takeFault c w s).mbest = s.mbest := rfl
@[simp] theorem takeFault_mbscore (c : Cause) (w : Word) (s : State) : (takeFault c w s).mbscore = s.mbscore := rfl
@[simp] theorem takeFault_mlast (c : Cause) (w : Word) (s : State) : (takeFault c w s).mlast = s.mlast := rfl
@[simp] theorem takeFault_dmem (c : Cause) (w : Word) (s : State) : (takeFault c w s).dmem = s.dmem := rfl
@[simp] theorem takeFault_emem (c : Cause) (w : Word) (s : State) : (takeFault c w s).emem = s.emem := rfl
@[simp] theorem takeFault_omem (c : Cause) (w : Word) (s : State) : (takeFault c w s).omem = s.omem := rfl
@[simp] theorem takeFault_mbuf (c : Cause) (w : Word) (s : State) : (takeFault c w s).mbuf = s.mbuf := rfl

/-! ### CLR and reset (R45, R101) -/

@[simp] theorem clearBlock_input (s : State) : (clearBlock s).input = s.input := rfl
@[simp] theorem clearBlock_pc (s : State) : (clearBlock s).pc = s.pc := rfl
@[simp] theorem clearBlock_rsp (s : State) : (clearBlock s).rsp = s.rsp := rfl
@[simp] theorem clearBlock_placeAnswers (s : State) : (clearBlock s).placeAnswers = s.placeAnswers := rfl
@[simp] theorem clearBlock_penAnswers (s : State) : (clearBlock s).penAnswers = s.penAnswers := rfl
@[simp] theorem clearBlock_phase (s : State) : (clearBlock s).phase = .load := rfl
@[simp] theorem clearBlock_vset (s : State) : (clearBlock s).vset = false := rfl
@[simp] theorem clearBlock_mbestv (s : State) : (clearBlock s).mbestv = false := rfl
@[simp] theorem clearBlock_mfinal (s : State) : (clearBlock s).mfinal = false := rfl
@[simp] theorem clearBlock_mlastv (s : State) : (clearBlock s).mlastv = false := rfl
@[simp] theorem clearBlock_fcause (s : State) : (clearBlock s).fcause = .none := rfl
@[simp] theorem clearBlock_fcmd (s : State) : (clearBlock s).fcmd = 0 := rfl
@[simp] theorem clearBlock_total (s : State) : (clearBlock s).total = 0 := rfl
@[simp] theorem clearBlock_data (s : State) : (clearBlock s).data = 0 := rfl
@[simp] theorem clearBlock_nblk (s : State) : (clearBlock s).nblk = 0 := rfl
@[simp] theorem clearBlock_ver (s : State) : (clearBlock s).ver = 0 := rfl
@[simp] theorem clearBlock_ecl (s : State) : (clearBlock s).ecl = 0 := rfl
@[simp] theorem clearBlock_slen (s : State) : (clearBlock s).slen = 0 := rfl
@[simp] theorem clearBlock_g1 (s : State) : (clearBlock s).g1 = 0 := rfl
@[simp] theorem clearBlock_g2 (s : State) : (clearBlock s).g2 = 0 := rfl
@[simp] theorem clearBlock_dg1 (s : State) : (clearBlock s).dg1 = 0 := rfl
@[simp] theorem clearBlock_dg2 (s : State) : (clearBlock s).dg2 = 0 := rfl
@[simp] theorem clearBlock_eclen (s : State) : (clearBlock s).eclen = 0 := rfl
@[simp] theorem clearBlock_bidx (s : State) : (clearBlock s).bidx = 0 := rfl
@[simp] theorem clearBlock_off (s : State) : (clearBlock s).off = 0 := rfl
@[simp] theorem clearBlock_olen (s : State) : (clearBlock s).olen = 0 := rfl
@[simp] theorem clearBlock_mcur (s : State) : (clearBlock s).mcur = 0 := rfl
@[simp] theorem clearBlock_mbest (s : State) : (clearBlock s).mbest = 0 := rfl
@[simp] theorem clearBlock_mbscore (s : State) : (clearBlock s).mbscore = 0 := rfl
@[simp] theorem clearBlock_mlast (s : State) : (clearBlock s).mlast = 0 := rfl
@[simp] theorem clearBlock_dmem (s : State) : (clearBlock s).dmem = [] := rfl
@[simp] theorem clearBlock_emem (s : State) : (clearBlock s).emem = [] := rfl
@[simp] theorem clearBlock_omem (s : State) : (clearBlock s).omem = [] := rfl
@[simp] theorem clearBlock_mbuf (s : State) : (clearBlock s).mbuf = none := rfl

/-! ### A trial (R172) -/

@[simp] theorem recordTrial_input (m : BitVec 3) (matrix : QrMatrix) (s : State) : (recordTrial m matrix s).input = s.input := rfl
@[simp] theorem recordTrial_pc (m : BitVec 3) (matrix : QrMatrix) (s : State) : (recordTrial m matrix s).pc = s.pc := rfl
@[simp] theorem recordTrial_rsp (m : BitVec 3) (matrix : QrMatrix) (s : State) : (recordTrial m matrix s).rsp = s.rsp := rfl
@[simp] theorem recordTrial_placeAnswers (m : BitVec 3) (matrix : QrMatrix) (s : State) : (recordTrial m matrix s).placeAnswers = s.placeAnswers := rfl
@[simp] theorem recordTrial_penAnswers (m : BitVec 3) (matrix : QrMatrix) (s : State) : (recordTrial m matrix s).penAnswers = s.penAnswers := rfl
@[simp] theorem recordTrial_phase (m : BitVec 3) (matrix : QrMatrix) (s : State) : (recordTrial m matrix s).phase = (if s.mcur.toNat + 1 = Config.nmask then .mdone else s.phase) := rfl
@[simp] theorem recordTrial_vset (m : BitVec 3) (matrix : QrMatrix) (s : State) : (recordTrial m matrix s).vset = s.vset := rfl
@[simp] theorem recordTrial_mbestv (m : BitVec 3) (matrix : QrMatrix) (s : State) : (recordTrial m matrix s).mbestv = (s.mbestv || replacesBest s (scoreOf s matrix)) := rfl
@[simp] theorem recordTrial_mfinal (m : BitVec 3) (matrix : QrMatrix) (s : State) : (recordTrial m matrix s).mfinal = false := rfl
@[simp] theorem recordTrial_mlastv (m : BitVec 3) (matrix : QrMatrix) (s : State) : (recordTrial m matrix s).mlastv = true := rfl
@[simp] theorem recordTrial_fcause (m : BitVec 3) (matrix : QrMatrix) (s : State) : (recordTrial m matrix s).fcause = s.fcause := rfl
@[simp] theorem recordTrial_fcmd (m : BitVec 3) (matrix : QrMatrix) (s : State) : (recordTrial m matrix s).fcmd = s.fcmd := rfl
@[simp] theorem recordTrial_total (m : BitVec 3) (matrix : QrMatrix) (s : State) : (recordTrial m matrix s).total = s.total := rfl
@[simp] theorem recordTrial_data (m : BitVec 3) (matrix : QrMatrix) (s : State) : (recordTrial m matrix s).data = s.data := rfl
@[simp] theorem recordTrial_nblk (m : BitVec 3) (matrix : QrMatrix) (s : State) : (recordTrial m matrix s).nblk = s.nblk := rfl
@[simp] theorem recordTrial_ver (m : BitVec 3) (matrix : QrMatrix) (s : State) : (recordTrial m matrix s).ver = s.ver := rfl
@[simp] theorem recordTrial_ecl (m : BitVec 3) (matrix : QrMatrix) (s : State) : (recordTrial m matrix s).ecl = s.ecl := rfl
@[simp] theorem recordTrial_slen (m : BitVec 3) (matrix : QrMatrix) (s : State) : (recordTrial m matrix s).slen = s.slen := rfl
@[simp] theorem recordTrial_g1 (m : BitVec 3) (matrix : QrMatrix) (s : State) : (recordTrial m matrix s).g1 = s.g1 := rfl
@[simp] theorem recordTrial_g2 (m : BitVec 3) (matrix : QrMatrix) (s : State) : (recordTrial m matrix s).g2 = s.g2 := rfl
@[simp] theorem recordTrial_dg1 (m : BitVec 3) (matrix : QrMatrix) (s : State) : (recordTrial m matrix s).dg1 = s.dg1 := rfl
@[simp] theorem recordTrial_dg2 (m : BitVec 3) (matrix : QrMatrix) (s : State) : (recordTrial m matrix s).dg2 = s.dg2 := rfl
@[simp] theorem recordTrial_eclen (m : BitVec 3) (matrix : QrMatrix) (s : State) : (recordTrial m matrix s).eclen = s.eclen := rfl
@[simp] theorem recordTrial_bidx (m : BitVec 3) (matrix : QrMatrix) (s : State) : (recordTrial m matrix s).bidx = s.bidx := rfl
@[simp] theorem recordTrial_off (m : BitVec 3) (matrix : QrMatrix) (s : State) : (recordTrial m matrix s).off = s.off := rfl
@[simp] theorem recordTrial_olen (m : BitVec 3) (matrix : QrMatrix) (s : State) : (recordTrial m matrix s).olen = s.olen := rfl
@[simp] theorem recordTrial_mcur (m : BitVec 3) (matrix : QrMatrix) (s : State) : (recordTrial m matrix s).mcur = s.mcur + 1 := rfl
@[simp] theorem recordTrial_mbest (m : BitVec 3) (matrix : QrMatrix) (s : State) : (recordTrial m matrix s).mbest = (if replacesBest s (scoreOf s matrix) then m else s.mbest) := rfl
@[simp] theorem recordTrial_mbscore (m : BitVec 3) (matrix : QrMatrix) (s : State) : (recordTrial m matrix s).mbscore = (if replacesBest s (scoreOf s matrix) then scoreOf s matrix else s.mbscore) := rfl
@[simp] theorem recordTrial_mlast (m : BitVec 3) (matrix : QrMatrix) (s : State) : (recordTrial m matrix s).mlast = m := rfl
@[simp] theorem recordTrial_dmem (m : BitVec 3) (matrix : QrMatrix) (s : State) : (recordTrial m matrix s).dmem = s.dmem := rfl
@[simp] theorem recordTrial_emem (m : BitVec 3) (matrix : QrMatrix) (s : State) : (recordTrial m matrix s).emem = s.emem := rfl
@[simp] theorem recordTrial_omem (m : BitVec 3) (matrix : QrMatrix) (s : State) : (recordTrial m matrix s).omem = s.omem := rfl
@[simp] theorem recordTrial_mbuf (m : BitVec 3) (matrix : QrMatrix) (s : State) : (recordTrial m matrix s).mbuf = some matrix := rfl

end Sys2Proof.Machine
end

