-- ==== Sys2Proof/Laws/Flow.lean ====
section
/-! SUPPORT. What the shared operations around a command's pseudocode can do: sequencing, fault entry, the order of checks (R16). -/

namespace Sys2Proof.Machine

/-! ### Sequencing -/

@[simp] theorem andThen_done (s : State) (f : State → Flow) : (Flow.done s).andThen f = f s := rfl
@[simp] theorem andThen_raise (c : Cause) (s : State) (f : State → Flow) : (Flow.raise c s).andThen f = .raise c s := rfl
@[simp] theorem andThen_stop (x : Fault) (f : State → Flow) : (Flow.stop x).andThen f = .stop x := rfl

theorem andThen_assoc (x : Flow) (f g : State → Flow) : (x.andThen f).andThen g = x.andThen fun s => (f s).andThen g := by
  cases x <;> rfl

/-- Two pieces in sequence run through exactly when both do. -/
theorem andThen_eq_done (x : Flow) (f : State → Flow) (t : State) :
    x.andThen f = .done t ↔ ∃ s, x = .done s ∧ f s = .done t := by cases x <;> simp

/-- Two pieces in sequence raise exactly when the first does, or the second does after the first ran through. -/
theorem andThen_eq_raise (x : Flow) (f : State → Flow) (c : Cause) (t : State) :
    x.andThen f = .raise c t ↔ x = .raise c t ∨ ∃ s, x = .done s ∧ f s = .raise c t := by cases x <;> simp

@[simp] theorem withValue_ok {α : Type} (v : α) (f : α → Flow) : withValue (.ok v) f = f v := rfl
@[simp] theorem withValue_error {α : Type} (x : Fault) (f : α → Flow) : withValue (.error x) f = .stop x := rfl

/-- A use of a value goes on only where there is one. -/
theorem withValue_cases {α : Type} (x : Except Fault α) (f : α → Flow) :
    (∃ v, x = .ok v ∧ withValue x f = f v) ∨ ∃ e, withValue x f = .stop e := by
  cases x with
  | ok v => exact .inl ⟨v, rfl, rfl⟩
  | error e => exact .inr ⟨e, rfl⟩

/-- A property of states that a piece keeps, run through or raised, is kept by running it `n` times. -/
theorem repeatFlow_keeps {P : State → Prop} {body : State → Flow}
    (hbody : ∀ s, P s → (∀ t, body s = .done t → P t) ∧ ∀ c t, body s = .raise c t → P t) (n : Nat) {s : State} (hs : P s) :
    (∀ t, repeatFlow body n s = .done t → P t) ∧ ∀ c t, repeatFlow body n s = .raise c t → P t := by
  induction n generalizing s with
  | zero => simp [repeatFlow, hs]
  | succ n ih =>
    simp only [repeatFlow]
    cases h : body s with
    | done u => simpa using ih ((hbody s hs).1 u h)
    | raise c u =>
      simp only [andThen_raise, reduceCtorEq, false_implies, implies_true, Flow.raise.injEq, true_and]
      rintro c' t ⟨rfl, rfl⟩
      exact (hbody s hs).2 c u h
    | stop x => simp

/-! ### The end of a command -/

@[simp] theorem finish_done (w : Word) (s : State) : finish w (.done s) = .next s := rfl
@[simp] theorem finish_raise (w : Word) (c : Cause) (s : State) : finish w (.raise c s) = .next (takeFault c w s) := rfl
@[simp] theorem finish_stop (w : Word) (x : Fault) : finish w (.stop x) = .fault x := rfl

/-- A command's pseudocode answers next exactly when it runs through or raises. -/
theorem finish_eq_next (w : Word) (x : Flow) (t : State) :
    finish w x = .next t ↔ x = .done t ∨ ∃ c s, x = .raise c s ∧ t = takeFault c w s := by
  cases x with
  | done s => simp
  | raise c s => simp [eq_comm]
  | stop f => simp

/-! ### The order of checks -/

/-- Everything a command can do that answers next (R16): it is dropped in phase FAULT, it raises F(SEQUENCE), its pseudocode runs through,
or its pseudocode raises. -/
theorem runCommand_cases {i : Instr} {body : State → Flow} {s t : State} (h : runCommand i body s = .next t) :
    (s.phase = .fault ∧ servedInFault i = false ∧ t = s) ∨
    (s.phase ≠ .fault ∧ permitted i.mnemonic s.phase = false ∧ t = takeFault .sequence (encode i) s) ∨
    ((s.phase = .fault → servedInFault i = true) ∧ (s.phase ≠ .fault → permitted i.mnemonic s.phase = true) ∧
      (body s = .done t ∨ ∃ c u, body s = .raise c u ∧ t = takeFault c (encode i) u)) := by
  unfold runCommand at h
  split at h
  · rename_i hp
    split at h
    · rename_i hs
      exact .inr (.inr ⟨fun _ => hs, fun hn => absurd hp hn, (finish_eq_next _ _ _).mp h⟩)
    · rename_i hs
      refine .inl ⟨hp, by simpa using hs, ?_⟩
      cases h
      rfl
  · rename_i hp
    split at h
    · rename_i hm
      exact .inr (.inr ⟨fun hf => absurd hf hp, fun _ => hm, (finish_eq_next _ _ _).mp h⟩)
    · rename_i hm
      refine .inr (.inl ⟨hp, by simpa using hm, ?_⟩)
      cases h
      rfl

/-- A command that is permitted is its pseudocode. -/
theorem runCommand_permitted {i : Instr} {body : State → Flow} {s : State} (hp : s.phase ≠ .fault)
    (hm : permitted i.mnemonic s.phase = true) : runCommand i body s = finish (encode i) (body s) := by
  simp [runCommand, hp, hm]

/-- A command that is not permitted raises F(SEQUENCE). -/
theorem runCommand_refused {i : Instr} {body : State → Flow} {s : State} (hp : s.phase ≠ .fault)
    (hm : permitted i.mnemonic s.phase = false) : runCommand i body s = .next (takeFault .sequence (encode i) s) := by
  simp [runCommand, hp, hm]

/-- A command that does not execute in phase FAULT is dropped there. -/
theorem runCommand_dropped {i : Instr} {body : State → Flow} {s : State} (hp : s.phase = .fault)
    (hs : servedInFault i = false) : runCommand i body s = .next s := by
  simp [runCommand, hp, hs]

/-- No command of the table is permitted by R25 in phase FAULT but NOP, CLR and RDR. -/
theorem permitted_fault (m : Mnemonic) : permitted m .fault = true ↔ m = .nop ∨ m = .clr ∨ m = .rdr := by
  cases m <;> decide

/-- The table as used is the table row by row. -/
theorem permitted_iff_row (m : Mnemonic) {p : Phase} (hp : p ≠ .fault) :
    permitted m p = true ↔ p ∈ permissionRow m := by
  cases m <;> cases p <;> first | exact absurd rfl hp | decide

/-- A property every command keeps holds at the end of a sequence of commands. -/
theorem execAll_keeps {P : State → Prop} (hexec : ∀ i s t, P s → exec i s = .next t → P t) (commands : List Instr) {s t : State}
    (hs : P s) (h : execAll commands s = .next t) : P t := by
  induction commands generalizing s with
  | nil => cases h; exact hs
  | cons i rest ih =>
    simp only [execAll] at h
    cases he : exec i s with
    | next u => rw [he] at h; exact ih (hexec i s u hs he) h
    | fault f => rw [he] at h; cases h
    | refused r => rw [he] at h; cases h

end Sys2Proof.Machine
end

