-- ==== Sys2Proof/Laws/Memory.lean ====
section
/-! SUPPORT. The laws of the buffers: read after write, the canonical form, and what a slice read or written is. -/

namespace Sys2Proof.Machine

/-! ### One cell -/

@[simp] theorem Memory.read_nil (a : Nat) : Memory.read [] a = none := rfl

/-- A cell holds a value exactly when it is listed. -/
theorem Memory.read_isSome_iff (m : Memory) (a : Nat) : (Memory.read m a).isSome ↔ a ∈ m.map Prod.fst := by
  induction m with
  | nil => simp
  | cons c rest ih =>
    obtain ⟨b, v⟩ := c
    by_cases h : b = a
    · simp [Memory.read, h]
    · simp [Memory.read, h, ih, Ne.symm h]

/-- Read after write, at the cell written. -/
@[simp] theorem Memory.read_write_same (m : Memory) (a : Nat) (v : Byte) : Memory.read (Memory.write m a v) a = some v := by
  induction m with
  | nil => simp [Memory.write, Memory.read]
  | cons c rest ih =>
    obtain ⟨b, x⟩ := c
    simp only [Memory.write]
    split
    · simp [Memory.read]
    · split
      · simp [Memory.read]
      · rename_i h
        simp [Memory.read, Ne.symm h, ih]

/-- Read after write, at every other cell. -/
theorem Memory.read_write_other (m : Memory) {a b : Nat} (v : Byte) (h : b ≠ a) :
    Memory.read (Memory.write m a v) b = Memory.read m b := by
  induction m with
  | nil => simp [Memory.write, Memory.read, Ne.symm h]
  | cons c rest ih =>
    obtain ⟨k, x⟩ := c
    simp only [Memory.write]
    split
    · simp [Memory.read, Ne.symm h]
    · split
      · rename_i hk
        subst hk
        simp [Memory.read, Ne.symm h]
      · simp [Memory.read, ih]

/-- The indices listed after a write. -/
theorem Memory.mem_keys_write (m : Memory) (a b : Nat) (v : Byte) :
    b ∈ (Memory.write m a v).map Prod.fst ↔ b = a ∨ b ∈ m.map Prod.fst := by
  rw [← Memory.read_isSome_iff, ← Memory.read_isSome_iff]
  by_cases h : b = a
  · subst h
    simp
  · simp [Memory.read_write_other m v h, h]

/-! ### The canonical form -/

/-- Indices strictly rising, as a fact about the list of indices. -/
theorem Memory.wf_iff (m : Memory) :
    Memory.wf m = true ↔ (m.map Prod.fst).Pairwise (· < ·) ∧ ∀ a ∈ m.map Prod.fst, a < Config.cells := by
  simp [Memory.wf, List.pairwise_map]

theorem Memory.write_pairwise (m : Memory) (a : Nat) (v : Byte) (h : (m.map Prod.fst).Pairwise (· < ·)) :
    ((Memory.write m a v).map Prod.fst).Pairwise (· < ·) := by
  induction m with
  | nil => simp [Memory.write]
  | cons c rest ih =>
    obtain ⟨b, x⟩ := c
    rw [List.map_cons, List.pairwise_cons] at h
    obtain ⟨hb, hrest⟩ := h
    simp only [Memory.write]
    split
    · rename_i hab
      rw [List.map_cons, List.pairwise_cons, List.map_cons, List.pairwise_cons]
      refine ⟨fun k hk => ?_, hb, hrest⟩
      rcases List.mem_cons.mp hk with rfl | hk
      · exact hab
      · exact lt_trans hab (hb k hk)
    · split
      · rename_i hab
        subst hab
        exact List.pairwise_cons.mpr ⟨hb, hrest⟩
      · rw [List.map_cons, List.pairwise_cons]
        refine ⟨fun k hk => ?_, ih hrest⟩
        rcases (Memory.mem_keys_write rest a k v).mp hk with rfl | hk
        · show b < k
          omega
        · exact hb k hk

/-- A write keeps the canonical form. -/
theorem Memory.write_wf {m : Memory} {a : Nat} (v : Byte) (h : Memory.wf m = true) (ha : a < Config.cells) :
    Memory.wf (Memory.write m a v) = true := by
  rw [Memory.wf_iff] at h ⊢
  refine ⟨Memory.write_pairwise m a v h.1, fun k hk => ?_⟩
  rcases (Memory.mem_keys_write m a k v).mp hk with rfl | hk
  · exact ha
  · exact h.2 k hk

/-! ### Buffers filled from cell 0 -/

@[simp] theorem holdsExactly_nil : holdsExactly [] 0 := rfl

theorem holdsExactly_zero {m : Memory} (h : holdsExactly m 0) : m = [] := by
  simpa [holdsExactly] using h

/-- A buffer filled up to `n` reads a value below `n` and none from `n` on. -/
theorem holdsExactly.isSome_iff {m : Memory} {n : Nat} (h : holdsExactly m n) (a : Nat) :
    (Memory.read m a).isSome ↔ a < n := by
  rw [Memory.read_isSome_iff, h, List.mem_range]

theorem holdsExactly.exists_read {m : Memory} {n a : Nat} (h : holdsExactly m n) (ha : a < n) :
    ∃ v, Memory.read m a = some v := Option.isSome_iff_exists.mp ((h.isSome_iff a).mpr ha)

/-- A buffer filled within its cells is in canonical form. -/
theorem holdsExactly.wf {m : Memory} {n : Nat} (h : holdsExactly m n) (hn : n ≤ Config.cells) : Memory.wf m = true := by
  rw [Memory.wf_iff, h]
  exact ⟨List.pairwise_lt_range, fun a ha => lt_of_lt_of_le (List.mem_range.mp ha) hn⟩

theorem Memory.write_past_end (m : Memory) (a : Nat) (v : Byte) (h : ∀ k ∈ m.map Prod.fst, k < a) :
    Memory.write m a v = m ++ [(a, v)] := by
  induction m with
  | nil => rfl
  | cons c rest ih =>
    obtain ⟨b, x⟩ := c
    have hb : b < a := h b (by simp)
    have hrest := ih fun k hk => h k (by simp at hk ⊢; exact Or.inr hk)
    simp [Memory.write, hrest, Nat.not_lt.mpr (Nat.le_of_lt hb), Nat.ne_of_gt hb]

/-- Appending one cell. -/
theorem holdsExactly.write {m : Memory} {n : Nat} (h : holdsExactly m n) (v : Byte) :
    holdsExactly (Memory.write m n v) (n + 1) := by
  have hlt : ∀ k ∈ m.map Prod.fst, k < n := fun k hk => by rw [h] at hk; exact List.mem_range.mp hk
  rw [holdsExactly, Memory.write_past_end m n v hlt, List.map_append, h, List.range_succ]
  rfl

/-! ### Cells and slices -/

theorem readCell_ok_iff (b : Buffer) (m : Memory) (a : Nat) (v : Byte) :
    readCell b m a = .ok v ↔ a < Config.cells ∧ Memory.read m a = some v := by
  unfold readCell
  split
  · rename_i h
    cases hr : Memory.read m a <;> simp [h]
  · rename_i h
    simp [h]

theorem writeCell_ok {b : Buffer} {m : Memory} {a : Nat} {v : Byte} (h : a < Config.cells) :
    writeCell b m a v = .ok (Memory.write m a v) := by simp [writeCell, h]

/-- What a slice read is: the values of the cells, all of which exist and hold one. -/
theorem readSlice_ok_iff (b : Buffer) (m : Memory) (n a : Nat) (vs : List Byte) :
    readSlice b m a n = .ok vs ↔
      vs.length = n ∧ ∀ j, j < n → a + j < Config.cells ∧ Memory.read m (a + j) = vs[j]? := by
  induction n generalizing a vs with
  | zero => cases vs <;> simp [readSlice]
  | succ n ih =>
    unfold readSlice
    cases hc : readCell b m a with
    | error f =>
      simp only [reduceCtorEq, false_iff]
      rintro ⟨hl, h⟩
      obtain ⟨hcell, hr⟩ := h 0 (by omega)
      cases vs with
      | nil => simp at hl
      | cons x xs =>
        rw [(readCell_ok_iff b m a x).mpr ⟨by simpa using hcell, by simpa using hr⟩] at hc
        cases hc
    | ok x =>
      obtain ⟨hcell, hr⟩ := (readCell_ok_iff b m a x).mp hc
      cases hs : readSlice b m (a + 1) n with
      | error f =>
        simp only [reduceCtorEq, false_iff]
        rintro ⟨hl, h⟩
        have := (ih (a + 1) vs.tail).mpr ⟨by simp [hl], fun j hj => by
          have := h (j + 1) (by omega)
          rw [show a + (j + 1) = a + 1 + j by omega] at this
          rw [List.getElem?_tail]
          exact this⟩
        rw [hs] at this
        cases this
      | ok xs =>
        obtain ⟨hxl, hx⟩ := (ih (a + 1) xs).mp hs
        simp only [Except.ok.injEq]
        constructor
        · rintro rfl
          refine ⟨by simp [hxl], fun j hj => ?_⟩
          cases j with
          | zero => exact ⟨by simpa using hcell, by simpa using hr⟩
          | succ j =>
            have := hx j (by omega)
            rw [show a + 1 + j = a + (j + 1) by omega] at this
            simpa using this
        · rintro ⟨hl, h⟩
          cases vs with
          | nil => simp at hl
          | cons y ys =>
            have h0 := (h 0 (by omega)).2
            simp [hr] at h0
            subst h0
            have := (ih (a + 1) ys).mpr ⟨by simpa using hl, fun j hj => by
              have := h (j + 1) (by omega)
              rw [show a + (j + 1) = a + 1 + j by omega] at this
              simpa using this⟩
            rw [hs] at this
            cases this
            rfl

/-- A slice of cells that all hold a value is read. -/
theorem readSlice_of_filled (b : Buffer) {m : Memory} {k : Nat} (h : holdsExactly m k) {a n : Nat} (hk : a + n ≤ k)
    (hcells : k ≤ Config.cells) : ∃ vs, readSlice b m a n = .ok vs := by
  induction n generalizing a with
  | zero => exact ⟨[], rfl⟩
  | succ n ih =>
    obtain ⟨v, hv⟩ := h.exists_read (a := a) (by omega)
    obtain ⟨vs, hvs⟩ := ih (a := a + 1) (by omega)
    exact ⟨v :: vs, by
      simp [readSlice, (readCell_ok_iff b m a v).mpr ⟨by omega, hv⟩, hvs]⟩

/-- A slice read depends on the cells' values only. -/
theorem readSlice_congr (b : Buffer) {m m' : Memory} {a n : Nat}
    (h : ∀ j, j < n → Memory.read m (a + j) = Memory.read m' (a + j)) : readSlice b m a n = readSlice b m' a n := by
  induction n generalizing a with
  | zero => rfl
  | succ n ih =>
    have h0 : readCell b m a = readCell b m' a := by simp [readCell, show Memory.read m a = Memory.read m' a from h 0 (by omega)]
    have hs : readSlice b m (a + 1) n = readSlice b m' (a + 1) n := ih fun j hj => by
      have := h (j + 1) (by omega)
      rwa [show a + (j + 1) = a + 1 + j by omega] at this
    simp [readSlice, h0, hs]

/-- What a slice written leaves: its own values in its cells, every other cell as it was. -/
theorem writeSlice_ok (b : Buffer) (m : Memory) (a : Nat) (vs : List Byte) (h : vs = [] ∨ a + vs.length ≤ Config.cells) :
    ∃ m', writeSlice b m a vs = .ok m' ∧
      (∀ j, j < vs.length → Memory.read m' (a + j) = vs[j]?) ∧
      ∀ k, k < a ∨ a + vs.length ≤ k → Memory.read m' k = Memory.read m k := by
  induction vs generalizing m a with
  | nil => exact ⟨m, rfl, by simp, fun _ _ => rfl⟩
  | cons v vs ih =>
    have ha : a + (vs.length + 1) ≤ Config.cells := by simpa using h
    obtain ⟨m', hm', hin, hout⟩ := ih (Memory.write m a v) (a + 1) (Or.inr (by omega))
    refine ⟨m', by simp [writeSlice, writeCell_ok (show a < Config.cells by omega), hm'], fun j hj => ?_, fun k hk => ?_⟩
    · cases j with
      | zero => simpa using (hout a (Or.inl (by omega))).trans (Memory.read_write_same m a v)
      | succ j =>
        have := hin j (by simpa using hj)
        rw [show a + 1 + j = a + (j + 1) by omega] at this
        simpa using this
    · rw [List.length_cons] at hk
      rw [hout k (by omega), Memory.read_write_other m v (by omega)]

/-- Writing a slice keeps the canonical form. -/
theorem writeSlice_wf {b : Buffer} {m m' : Memory} {a : Nat} {vs : List Byte} (h : Memory.wf m = true)
    (hw : writeSlice b m a vs = .ok m') : Memory.wf m' = true := by
  induction vs generalizing m a with
  | nil => cases hw; exact h
  | cons v vs ih =>
    by_cases ha : a < Config.cells
    · rw [writeSlice, writeCell_ok ha] at hw
      exact ih (Memory.write_wf v h ha) hw
    · simp [writeSlice, writeCell, ha] at hw

/-- Appending a slice to a buffer filled from cell 0. -/
theorem writeSlice_holdsExactly {b : Buffer} {m m' : Memory} {n : Nat} {vs : List Byte} (h : holdsExactly m n)
    (hw : writeSlice b m n vs = .ok m') : holdsExactly m' (n + vs.length) := by
  induction vs generalizing m n with
  | nil => cases hw; exact h
  | cons v vs ih =>
    by_cases ha : n < Config.cells
    · rw [writeSlice, writeCell_ok ha] at hw
      have := ih (h.write v) hw
      rwa [List.length_cons, show n + (vs.length + 1) = n + 1 + vs.length by omega]
    · simp [writeSlice, writeCell, ha] at hw

/-- The cells a list names, when each exists and holds a value. -/
theorem readCells_ok_iff (s : State) (cells : List (Buffer × Nat)) (vs : List Byte) :
    readCells s cells = .ok vs ↔
      List.Forall₂ (fun c v => c.2 < Config.cells ∧ Memory.read (bufferOf s c.1) c.2 = some v) cells vs := by
  induction cells generalizing vs with
  | nil => cases vs <;> simp [readCells]
  | cons c rest ih =>
    obtain ⟨b, a⟩ := c
    unfold readCells
    cases hc : readCell b (bufferOf s b) a with
    | error f =>
      simp only [reduceCtorEq, false_iff]
      intro h
      cases h with
      | cons h _ =>
        rw [(readCell_ok_iff _ _ _ _).mpr h] at hc
        cases hc
    | ok x =>
      have hx := (readCell_ok_iff _ _ _ _).mp hc
      cases hs : readCells s rest with
      | error f =>
        simp only [reduceCtorEq, false_iff]
        intro h
        cases h with
        | cons _ h =>
          rw [(ih _).mpr h] at hs
          cases hs
      | ok xs =>
        simp only [Except.ok.injEq]
        constructor
        · rintro rfl
          exact .cons hx ((ih xs).mp hs)
        · intro h
          cases h with
          | cons h1 h2 =>
            rename_i y ys
            have hy : x = y := by simpa [hx.2] using h1.2
            have hys : xs = ys := by simpa [hs] using (ih ys).mpr h2
            rw [hy, hys]

theorem readCells_length {s : State} {cells : List (Buffer × Nat)} {vs : List Byte} (h : readCells s cells = .ok vs) :
    vs.length = cells.length := ((readCells_ok_iff s cells vs).mp h).length_eq.symm

end Sys2Proof.Machine
end

