-- ==== Sys2Proof/Laws/Commands.lean ====
section
/-! SUPPORT. What the pseudocode of the transfer, field and mask commands can do: one inversion lemma per operation. -/

namespace Sys2Proof.Machine

/-! ### Transfer and field commands -/

/-- Everything PUSH's pseudocode can do (R106). -/
theorem opPush_cases (v : Byte) (s : State) :
    (s.slen.toNat = 4095 ∧ opPush v s = .raise .range s) ∨
    (s.slen.toNat < 4095 ∧
      opPush v s = .done { s with dmem := Memory.write s.dmem s.slen.toNat v, slen := s.slen + 1 }) := by
  have hlt := s.slen.isLt
  by_cases h : s.slen.toNat = 4095
  · exact .inl ⟨h, by simp [opPush, Config.maxBytes, h]⟩
  · refine .inr ⟨by omega, ?_⟩
    simp [opPush, Config.maxBytes, h, writeCell_ok (b := .dmem) (m := s.dmem) (v := v) (show s.slen.toNat < Config.cells by
      simp [Config.cells]; omega)]

/-- Everything RDR's pseudocode can do (R108). -/
theorem opRdr_cases (n : Byte) (s : State) :
    (∃ r, registerOfNumber n = some r ∧ opRdr n s = .done (respond (readRegister s r) s)) ∨
    (registerOfNumber n = none ∧ opRdr n s = .raise .operand s) := by
  cases h : registerOfNumber n with
  | none => exact .inr ⟨rfl, by simp [opRdr, h]⟩
  | some r => exact .inl ⟨r, rfl, by simp [opRdr, h]⟩

/-- Everything a read of a buffer can do (R66, R107). -/
theorem opReadBuffer_cases (b : Buffer) (valid : Nat) (a : Len) (s : State) :
    (valid ≤ a.toNat ∧ opReadBuffer b valid a s = .raise .range s) ∨
    (a.toNat < valid ∧
      ((∃ v, Memory.read (bufferOf s b) a.toNat = some v ∧ opReadBuffer b valid a s = .done (respond (v.setWidth 32) s)) ∨
       (Memory.read (bufferOf s b) a.toNat = none ∧ opReadBuffer b valid a s = .stop (.cellHoldsNoValue b a.toNat)))) := by
  have hlt : a.toNat < Config.cells := a.isLt
  by_cases h : valid ≤ a.toNat
  · exact .inl ⟨h, by simp [opReadBuffer, h]⟩
  · refine .inr ⟨by omega, ?_⟩
    cases hr : Memory.read (bufferOf s b) a.toNat with
    | none => exact .inr ⟨rfl, by simp [opReadBuffer, h, readCell, hlt, hr]⟩
    | some v => exact .inl ⟨v, rfl, by simp [opReadBuffer, h, readCell, hlt, hr]⟩

/-- Everything a partial field function can do (R135, R136). -/
theorem opFieldPartial_cases (x : Option Byte) (s : State) :
    (∃ v, x = some v ∧ opFieldPartial x s = .done (respond (v.setWidth 32) s)) ∨
    (x = none ∧ opFieldPartial x s = .raise .operand s) := by
  cases x with
  | none => exact .inr ⟨rfl, rfl⟩
  | some v => exact .inl ⟨v, rfl, rfl⟩

/-! ### Mask commands -/

/-- Everything a placement can do (R170): stop at a cell that holds no value, raise EXTERNAL with nothing written, or go on with what
`Place` answered. -/
theorem placement_cases (m : BitVec 3) (s : State) (next : QrMatrix → Flow) :
    (∃ f, placement m s next = .stop f) ∨
    (placementOf s m = none ∧ placement m s next = .raise .external s) ∨
    ∃ matrix, placementOf s m = some matrix ∧ placement m s next = next matrix := by
  unfold placement placementOf
  cases hb : readSlice .omem s.omem 0 s.olen.toNat with
  | error f => exact .inl ⟨f, by simp⟩
  | ok bits =>
    cases ha : askPlace s ⟨bits, s.ecl, s.ver, m⟩ with
    | fail => exact .inr (.inl (by simp [ha]))
    | ok matrix => exact .inr (.inr ⟨matrix, by simp [ha]⟩)

/-- Where the placement is known to succeed it is made. -/
theorem placement_of_some {m : BitVec 3} {s : State} {matrix : QrMatrix} (h : placementOf s m = some matrix)
    (next : QrMatrix → Flow) : placement m s next = next matrix := by
  unfold placementOf at h
  unfold placement
  cases hb : readSlice .omem s.omem 0 s.olen.toNat with
  | error f => simp [hb] at h
  | ok bits =>
    cases ha : askPlace s ⟨bits, s.ecl, s.ver, m⟩ with
    | fail => simp [hb, ha] at h
    | ok matrix' => simpa [hb, ha] using congrArg next (by simpa [hb, ha] using h)

/-- What a placement reads of the state: the stream, the level, the version and the collaborator's answers. -/
theorem placementOf_congr {s t : State} (ho : t.omem = s.omem) (hl : t.olen = s.olen) (he : t.ecl = s.ecl) (hv : t.ver = s.ver)
    (ha : t.placeAnswers = s.placeAnswers) (m : BitVec 3) : placementOf t m = placementOf s m := by
  simp [placementOf, askPlace, ho, hl, he, hv, ha]

/-- What a score reads of the state: the collaborator's answers. -/
theorem scoreOf_congr {s t : State} (ha : t.penAnswers = s.penAnswers) (matrix : QrMatrix) : scoreOf t matrix = scoreOf s matrix := by
  simp [scoreOf, askPen, ha]

/-- The sum of four 32-bit penalties does not overflow 34 bits (R172). -/
theorem scoreOf_toNat (s : State) (matrix : QrMatrix) :
    (scoreOf s matrix).toNat = (askPen s ⟨.rule1, matrix⟩).toNat + (askPen s ⟨.rule2, matrix⟩).toNat +
      (askPen s ⟨.rule3, matrix⟩).toNat + (askPen s ⟨.rule4, matrix⟩).toNat := by
  have h1 := (askPen s ⟨.rule1, matrix⟩).isLt
  have h2 := (askPen s ⟨.rule2, matrix⟩).isLt
  have h3 := (askPen s ⟨.rule3, matrix⟩).isLt
  have h4 := (askPen s ⟨.rule4, matrix⟩).isLt
  simp only [scoreOf, BitVec.toNat_add, BitVec.toNat_setWidth]
  omega

/-- Everything MSTEP's pseudocode can do (R172). -/
theorem opMstep_cases (s : State) :
    (∃ f, opMstep s = .stop f) ∨
    (s.mcur.toNat < 8 ∧ placementOf s (s.mcur.setWidth 3) = none ∧ opMstep s = .raise .external s) ∨
    ∃ matrix, s.mcur.toNat < 8 ∧ placementOf s (s.mcur.setWidth 3) = some matrix ∧
      opMstep s = .done (recordTrial (s.mcur.setWidth 3) matrix s) := by
  by_cases h : 8 ≤ s.mcur.toNat
  · exact .inl ⟨.maskIdOutOfRange, by simp [opMstep, Config.nmask, h]⟩
  have he : opMstep s =
      placement (s.mcur.setWidth 3) s fun matrix => .done (recordTrial (s.mcur.setWidth 3) matrix s) := by
    simp [opMstep, Config.nmask, h]
  rw [he]
  rcases placement_cases (s.mcur.setWidth 3) s fun matrix => .done (recordTrial (s.mcur.setWidth 3) matrix s) with
    hf | ⟨hn, hr⟩ | ⟨matrix, hp, hd⟩
  · exact .inl hf
  · exact .inr (.inl ⟨by omega, hn, hr⟩)
  · exact .inr (.inr ⟨matrix, by omega, hp, hd⟩)

/-- Everything MPLACE's pseudocode can do (R175). -/
theorem opMplace_cases (s : State) :
    (∃ f, opMplace s = .stop f) ∨
    (placementOf s s.mbest = none ∧ opMplace s = .raise .external s) ∨
    ∃ matrix, placementOf s s.mbest = some matrix ∧
      opMplace s = .done { s with mbuf := some matrix, mlast := s.mbest, mlastv := true, mfinal := true, phase := .final } :=
  placement_cases _ _ _

/-- Everything MINIT's pseudocode can do (R171). -/
theorem opMinit_cases (s : State) :
    (s.vset = false ∧ opMinit s = .raise .sequence s) ∨
    (s.vset = true ∧ opMinit s = .done { s with
      mcur := 0, mbestv := false, mbest := 0, mbscore := 0, mfinal := false, phase := .masking }) := by
  cases h : s.vset with
  | false => exact .inl ⟨rfl, by simp [opMinit, h]⟩
  | true => exact .inr ⟨rfl, by simp [opMinit, h]⟩

end Sys2Proof.Machine
end

