-- ==== Sys2Proof/Laws/Field.lean ====
section
/-! SUPPORT. Small laws of the field functions and of the encoder: lengths, and the behaviour of one division step. -/

namespace Sys2Proof.Machine

theorem gfadd_comm (a b : Byte) : gfadd a b = gfadd b a := BitVec.xor_comm a b

theorem gfadd_assoc (a b c : Byte) : gfadd (gfadd a b) c = gfadd a (gfadd b c) := BitVec.xor_assoc a b c

@[simp] theorem gfadd_zero (a : Byte) : gfadd a 0#8 = a := BitVec.xor_zero

@[simp] theorem zero_gfadd (a : Byte) : gfadd 0#8 a = a := BitVec.zero_xor

@[simp] theorem gfadd_self (a : Byte) : gfadd a a = 0#8 := BitVec.xor_self

@[simp] theorem withByte_eq {α : Type} (x : Byte) (f : Byte → α) : withByte x f = f x := by
  unfold withByte
  split
  · rename_i h
    rw [show x = 0x00 from BitVec.eq_of_toNat_eq h]
  · rename_i k h
    rw [show BitVec.ofNat 8 (k + 1) = x by rw [← Nat.succ_eq_add_one, ← h, BitVec.ofNat_toNat, BitVec.setWidth_eq]]

theorem gfexpFrom_succ (e : Nat) (x : Byte) : gfexpFrom (e + 1) x = gfmul alpha (gfexpFrom e x) := by
  induction e generalizing x with
  | zero => simp [gfexpFrom]
  | succ e ih => rw [gfexpFrom, withByte_eq, ih, gfexpFrom, withByte_eq]

@[simp] theorem gfexp_zero : gfexp 0 = 0x01 := rfl

/-- The recurrence of the powers of the generator element (R123). -/
theorem gfexp_succ (e : Nat) : gfexp (e + 1) = gfmul alpha (gfexp e) := gfexpFrom_succ e 0x01

@[simp] theorem genpoly_length (n : Nat) : (genpoly n).length = n + 1 := by
  induction n with
  | zero => rfl
  | succ n ih => simp [genpoly, timesMonic, ih]

/-- Division by the generator polynomial keeps the length of what it works on. -/
theorem addScaled_length (c : Byte) (gs rs : List Byte) (h : gs.length ≤ rs.length) : (addScaled c gs rs).length = rs.length := by
  induction gs generalizing rs with
  | nil => simp [addScaled]
  | cons g gs ih =>
    cases rs with
    | nil => simp at h
    | cons r rs => simp [addScaled, ih rs (by simpa using h)]

/-- One division step adds the scaled divisor cell by cell. -/
theorem addScaled_getElem? (c : Byte) (gs rs : List Byte) (h : gs.length ≤ rs.length) (j : Nat) :
    (addScaled c gs rs)[j]? = (rs[j]?).map fun r => gfadd r ((gs[j]?).elim 0 (gfmul c)) := by
  induction gs generalizing rs j with
  | nil => simp [addScaled]
  | cons g gs ih =>
    cases rs with
    | nil => simp at h
    | cons r rs =>
      cases j with
      | zero => simp [addScaled]
      | succ j => simpa [addScaled] using ih rs (by simpa using h) j

theorem polyRem_length (gs : List Byte) (k : Nat) (p : List Byte) (h : k + gs.length ≤ p.length) :
    (polyRem gs k p).length = p.length - k := by
  induction k generalizing p with
  | zero => simp [polyRem]
  | succ k ih =>
    cases p with
    | nil => simp at h
    | cons c rest =>
      have hl : gs.length ≤ rest.length := by simp at h; omega
      rw [polyRem, ih _ (by rw [addScaled_length c gs rest hl]; simp at h; omega), addScaled_length c gs rest hl]
      simp

/-- The encoder answers exactly `n` bytes (R129, R131). -/
@[simp] theorem rsencode_length (d : List Byte) (n : Nat) : (rsencode d n).length = n := by
  rw [rsencode, polyRem_length _ _ _ (by simp)]
  simp

end Sys2Proof.Machine
end

