-- ==== Sys2Proof/Laws/Interleave.lean ====
section
/-! SUPPORT. What the interleaver's pseudocode can do (42_ecc_interleave.md): one inversion lemma per operation, and the arithmetic of the
geometry behind it. -/

namespace Sys2Proof.Machine

/-! ### Geometry -/

theorem boff_succ (s : State) (b : Nat) : boff s (b + 1) = boff s b + dlen s b := rfl

theorem boff_mono (s : State) {b c : Nat} (h : b ≤ c) : boff s b ≤ boff s c := by
  induction c with
  | zero => simp_all
  | succ c ih =>
    rcases Nat.lt_or_ge b (c + 1) with hb | hb
    · exact le_trans (ih (by omega)) (Nat.le_add_right _ _)
    · rw [show b = c + 1 by omega]

/-- A data byte of block `b` lies below the end of the block. -/
theorem boff_add_lt (s : State) {b c i : Nat} (hb : b < c) (hi : i < dlen s b) : boff s b + i < boff s c :=
  lt_of_lt_of_le (by rw [boff_succ]; omega) (boff_mono s (show b + 1 ≤ c by omega))

/-- Two states with the same group registers have the same offsets. -/
theorem boff_congr {s t : State} (h1 : t.g1 = s.g1) (h2 : t.dg1 = s.dg1) (h3 : t.dg2 = s.dg2) (b : Nat) : boff t b = boff s b := by
  induction b with
  | zero => rfl
  | succ b ih => simp [boff, ih, dlen, h1, h2, h3]

/-- The arithmetic behind check 3 and the final count: group lengths multiplied out (R158). -/
theorem group_lengths (n t : Nat) (h : n ≠ 0) : t / n * (n - t % n) + (t / n + 1) * (t % n) = t := by
  have hlt : t % n < n := Nat.mod_lt t (Nat.pos_of_ne_zero h)
  have hdm : n * (t / n) + t % n = t := Nat.div_add_mod t n
  obtain ⟨k, hk⟩ : ∃ k, n = t % n + k := ⟨n - t % n, by omega⟩
  have hsub : n - t % n = k := by omega
  rw [hsub]
  have hexp : n * (t / n) = (t % n) * (t / n) + k * (t / n) := by
    rw [← Nat.add_mul, ← hk]
  rw [Nat.add_mul, Nat.one_mul, Nat.mul_comm (t / n) k, Nat.mul_comm (t / n) (t % n)]
  omega

/-- The bytes of error correction of all blocks fit in TOTAL (R38). -/
theorem Geometry.ec_le_total {s : State} (g : Geometry s) : s.nblk.toNat * s.eclen.toNat ≤ s.total.toNat :=
  calc s.nblk.toNat * s.eclen.toNat ≤ s.nblk.toNat * (s.total.toNat / s.nblk.toNat) :=
        Nat.mul_le_mul_left _ (by have := g.eclen_eq; omega)
    _ ≤ s.total.toNat := Nat.mul_div_le _ _

/-! ### PART -/

/-- Everything PART's pseudocode can do (R154): raise CONFIG or LENGTH with nothing written, or store a geometry that meets all tests. -/
theorem opPart_cases (s : State) :
    (∃ c, (c = .config ∨ c = .length) ∧ opPart s = .raise c s) ∨
    (s.nblk.toNat ≠ 0 ∧ s.slen = s.data ∧ s.data.toNat / s.nblk.toNat < s.total.toNat / s.nblk.toNat ∧
      s.data.toNat / s.nblk.toNat ≠ 0 ∧
      opPart s = .done { s with
        g1 := BitVec.ofNat 12 (s.nblk.toNat - s.total.toNat % s.nblk.toNat)
        g2 := BitVec.ofNat 12 (s.total.toNat % s.nblk.toNat)
        dg1 := BitVec.ofNat 12 (s.data.toNat / s.nblk.toNat)
        dg2 := BitVec.ofNat 12 (s.data.toNat / s.nblk.toNat + 1)
        eclen := BitVec.ofNat 12 (s.total.toNat / s.nblk.toNat - s.data.toNat / s.nblk.toNat)
        bidx := 0, off := 0, phase := .parted }) := by
  by_cases h0 : s.nblk.toNat = 0
  · exact .inl ⟨.config, .inl rfl, by simp [opPart, h0]⟩
  by_cases hl : s.slen.toNat = s.data.toNat
  swap
  · exact .inl ⟨.length, .inr rfl, by simp [opPart, h0, hl]⟩
  by_cases hc : s.total.toNat / s.nblk.toNat < s.data.toNat / s.nblk.toNat
  · exact .inl ⟨.config, .inl rfl, by simp [opPart, h0, hl, hc]⟩
  have hmod : s.total.toNat % s.nblk.toNat < s.nblk.toNat := Nat.mod_lt _ (Nat.pos_of_ne_zero h0)
  have he : s.total.toNat / s.nblk.toNat + 1 - (s.data.toNat / s.nblk.toNat + 1) =
      s.total.toNat / s.nblk.toNat - s.data.toNat / s.nblk.toNat := by omega
  have h2 : s.nblk.toNat - s.total.toNat % s.nblk.toNat + s.total.toNat % s.nblk.toNat = s.nblk.toNat := by omega
  have hd1 : s.data.toNat / s.nblk.toNat + (s.total.toNat / s.nblk.toNat - s.data.toNat / s.nblk.toNat) =
      s.total.toNat / s.nblk.toNat := by omega
  have hd2 : s.data.toNat / s.nblk.toNat + 1 + (s.total.toNat / s.nblk.toNat - s.data.toNat / s.nblk.toNat) =
      s.total.toNat / s.nblk.toNat + 1 := by omega
  have h3 := group_lengths s.nblk.toNat s.total.toNat h0
  by_cases hz : s.total.toNat / s.nblk.toNat - s.data.toNat / s.nblk.toNat = 0
  · exact .inl ⟨.config, .inl rfl, by
      rw [hz, Nat.add_zero] at hd1 hd2
      simp [opPart, h0, hl, h2, hd1, h3]⟩
  by_cases hd : s.data.toNat / s.nblk.toNat = 0
  · refine .inl ⟨.config, .inl rfl, ?_⟩
    rw [hd] at hz hd1 hd2 he
    simp only [Nat.sub_zero, Nat.zero_add, Nat.add_sub_cancel] at hz hd1 hd2 he
    rw [Nat.add_comm 1] at hd2
    simp [opPart, h0, hl, hd, hz, h2, h3, Nat.add_comm 1]
  · refine .inr ⟨h0, BitVec.eq_of_toNat_eq hl, by omega, hd, ?_⟩
    simp [opPart, h0, hl, hc, hz, hd, h2, hd1, hd2, h3]

/-! ### ECGEN -/

/-- Everything ECGEN's pseudocode can do (R155): stop outside its domain, raise RANGE with nothing written, or encode block BIDX. -/
theorem opEcgen_cases (s : State) :
    (∃ f, opEcgen s = .stop f) ∨
    (s.bidx.toNat < s.nblk.toNat ∧ s.slen.toNat < s.off.toNat + dlen s s.bidx.toNat ∧ opEcgen s = .raise .range s) ∨
    ∃ d m, s.bidx.toNat < s.nblk.toNat ∧ s.off.toNat + dlen s s.bidx.toNat ≤ s.slen.toNat ∧ s.eclen.toNat ≠ 0 ∧
      readSlice .dmem s.dmem s.off.toNat (dlen s s.bidx.toNat) = .ok d ∧
      writeSlice .emem s.emem (s.bidx.toNat * s.eclen.toNat) (rsencode d s.eclen.toNat) = .ok m ∧
      opEcgen s = .done { s with
        emem := m, off := BitVec.ofNat 12 (s.off.toNat + dlen s s.bidx.toNat), bidx := BitVec.ofNat 12 (s.bidx.toNat + 1)
        phase := if s.bidx.toNat + 1 = s.nblk.toNat then .ecdone else s.phase } := by
  by_cases hb : s.nblk.toNat ≤ s.bidx.toNat
  · exact .inl ⟨.blockIndexOutOfRange, by simp only [opEcgen, hb, if_true]⟩
  by_cases hr : s.slen.toNat < s.off.toNat + dlen s s.bidx.toNat
  · exact .inr (.inl ⟨by omega, hr, by simp only [opEcgen, hb, hr, if_true, if_false]⟩)
  by_cases he : s.eclen.toNat = 0
  · exact .inl ⟨.encoderLengthZero, by simp only [opEcgen, hb, hr, he, if_true, if_false]⟩
  cases hd : readSlice .dmem s.dmem s.off.toNat (dlen s s.bidx.toNat) with
  | error f => exact .inl ⟨f, by simp only [opEcgen, hb, hr, he, hd, if_false, withValue_error]⟩
  | ok d =>
    cases hm : writeSlice .emem s.emem (s.bidx.toNat * s.eclen.toNat) (rsencode d s.eclen.toNat) with
    | error f => exact .inl ⟨f, by simp only [opEcgen, hb, hr, he, hd, hm, if_false, withValue_ok, withValue_error]⟩
    | ok m =>
      refine .inr (.inr ⟨d, m, by omega, by omega, he, rfl, hm, ?_⟩)
      simp only [opEcgen, hb, hr, he, hd, hm, if_false, withValue_ok]

/-! ### ILV -/

/-- Everything ILV's pseudocode can do (R156): stop at a cell that holds no value, raise INTERNAL where the count is wrong, or emit the
whole stream. -/
theorem opIlv_cases (s : State) :
    (∃ f, opIlv s = .stop f) ∨
    ∃ bytes m, readCells s (emission s) = .ok bytes ∧ writeSlice .omem s.omem 0 bytes = .ok m ∧
      ((bytes.length ≠ s.total.toNat ∧ opIlv s = .raise .internal { s with omem := m }) ∨
       (bytes.length = s.total.toNat ∧ opIlv s = .done { s with omem := m, olen := s.total, phase := .outv })) := by
  cases hr : readCells s (emission s) with
  | error f => exact .inl ⟨f, by simp [opIlv, hr]⟩
  | ok bytes =>
    cases hm : writeSlice .omem s.omem 0 bytes with
    | error f => exact .inl ⟨f, by simp [opIlv, hr, hm]⟩
    | ok m =>
      refine .inr ⟨bytes, m, rfl, hm, ?_⟩
      by_cases hc : bytes.length = s.total.toNat
      · exact .inr ⟨hc, by simp [opIlv, hr, hm, hc]⟩
      · exact .inl ⟨hc, by simp [opIlv, hr, hm, hc]⟩

/-- A row of the first loop emits NBLK bytes while every block has one, then one per group-2 block. -/
theorem dataRow_length (s : State) (i : Nat) :
    (dataRow s i).length = (List.range s.nblk.toNat).countP fun b => i < dlen s b := by
  simp [dataRow, List.countP_eq_length_filter]

/-- Each cell ILV copies is a data byte of a block or a byte of its error correction. -/
theorem mem_emission (s : State) (c : Buffer × Nat) :
    c ∈ emission s ↔
      (∃ b i, b < s.nblk.toNat ∧ i < dlen s b ∧ i < maxDlen s ∧ c = (.dmem, boff s b + i)) ∨
      ∃ b i, b < s.nblk.toNat ∧ i < s.eclen.toNat ∧ c = (.emem, b * s.eclen.toNat + i) := by
  simp only [emission, dataRow, ecRow, List.mem_append, List.mem_flatMap, List.mem_map, List.mem_filter, List.mem_range,
    decide_eq_true_eq]
  constructor
  · rintro (⟨i, hi, b, ⟨hb, hd⟩, rfl⟩ | ⟨i, hi, b, hb, rfl⟩)
    · exact .inl ⟨b, i, hb, hd, hi, rfl⟩
    · exact .inr ⟨b, i, hb, hi, rfl⟩
  · rintro (⟨b, i, hb, hd, hi, rfl⟩ | ⟨b, i, hb, hi, rfl⟩)
    · exact .inl ⟨i, hi, b, ⟨hb, hd⟩, rfl⟩
    · exact .inr ⟨i, hi, b, hb, rfl⟩

/-- Where every cell to copy exists and holds a value, the copy is made. -/
theorem readCells_of_filled (s : State) (cells : List (Buffer × Nat))
    (h : ∀ c ∈ cells, c.2 < Config.cells ∧ ∃ v, Memory.read (bufferOf s c.1) c.2 = some v) :
    ∃ bytes, readCells s cells = .ok bytes := by
  induction cells with
  | nil => exact ⟨[], rfl⟩
  | cons c rest ih =>
    obtain ⟨hlt, v, hv⟩ := h c (by simp)
    obtain ⟨vs, hvs⟩ := ih fun c' hc' => h c' (by simp [hc'])
    exact ⟨v :: vs, by simp [readCells, (readCell_ok_iff _ _ _ v).mpr ⟨hlt, hv⟩, hvs]⟩

end Sys2Proof.Machine
end

