-- ==== Sys2Proof/Laws/PerInstr.lean ====
section
/-! SUPPORT. The per-instruction family `OpcodeField`: in the word of every command bits 31:24 are the `op` of its row (R80 to R84, R86). -/

namespace Sys2Proof.Laws

/-- `op` sits in bits 31:24 of a word whose other bits lie below bit 24. -/
theorem opField_opcodeBits_or (m : Mnemonic) (x : Word) (h : ∀ i, 24 ≤ i → x.getLsbD i = false) :
    opField (opcodeBits m ||| x) = m.opcode := by
  apply BitVec.eq_of_getLsbD_eq
  intro i hi
  simp only [opField, opcodeBits, BitVec.getLsbD_extractLsb', BitVec.getLsbD_or, BitVec.getLsbD_shiftLeft,
    BitVec.getLsbD_setWidth, h (24 + i) (by omega)]
  simp [hi, show i < 32 by omega, show 24 + i < 32 by omega]

theorem opField_encodeZ (m : Mnemonic) : opField (encodeZ m) = m.opcode := by
  have := opField_opcodeBits_or m 0 (by simp)
  simpa [encodeZ] using this

theorem opField_encodeI12 (m : Mnemonic) (x : BitVec 12) : opField (encodeI12 m x) = m.opcode :=
  opField_opcodeBits_or m _ fun i hi => by simp [BitVec.getLsbD_of_ge x i (by omega)]

theorem opField_encodeI8 (m : Mnemonic) (x : BitVec 8) : opField (encodeI8 m x) = m.opcode :=
  opField_opcodeBits_or m _ fun i hi => by simp [BitVec.getLsbD_of_ge x i (by omega)]

theorem opField_encodeP (m : Mnemonic) (x y : BitVec 8) : opField (encodeP m x y) = m.opcode := by
  rw [encodeP, BitVec.or_assoc]
  exact opField_opcodeBits_or m _ fun i hi => by
    simp [BitVec.getLsbD_of_ge x (i - 8) (by omega), BitVec.getLsbD_of_ge y i (by omega)]

/-- Bits 31:24 of a command's word are its opcode. -/
def OpcodeField.Statement (i : Instr) : Prop := opField (encode i) = i.mnemonic.opcode

theorem OpcodeField.nop : OpcodeField.Statement .nop := opField_encodeZ _
theorem OpcodeField.clr : OpcodeField.Statement .clr := opField_encodeZ _
theorem OpcodeField.sett (x : BitVec 12) : OpcodeField.Statement (.sett x) := opField_encodeI12 _ x
theorem OpcodeField.setd (x : BitVec 12) : OpcodeField.Statement (.setd x) := opField_encodeI12 _ x
theorem OpcodeField.setb (x : BitVec 12) : OpcodeField.Statement (.setb x) := opField_encodeI12 _ x
theorem OpcodeField.sets (x y : BitVec 8) : OpcodeField.Statement (.sets x y) := opField_encodeP _ x y
theorem OpcodeField.push (x : BitVec 8) : OpcodeField.Statement (.push x) := opField_encodeI8 _ x
theorem OpcodeField.rdr (x : BitVec 8) : OpcodeField.Statement (.rdr x) := opField_encodeI8 _ x
theorem OpcodeField.rdd (x : BitVec 12) : OpcodeField.Statement (.rdd x) := opField_encodeI12 _ x
theorem OpcodeField.rde (x : BitVec 12) : OpcodeField.Statement (.rde x) := opField_encodeI12 _ x
theorem OpcodeField.rdo (x : BitVec 12) : OpcodeField.Statement (.rdo x) := opField_encodeI12 _ x
theorem OpcodeField.gfadd (x y : BitVec 8) : OpcodeField.Statement (.gfadd x y) := opField_encodeP _ x y
theorem OpcodeField.gfmul (x y : BitVec 8) : OpcodeField.Statement (.gfmul x y) := opField_encodeP _ x y
theorem OpcodeField.gfexp (x : BitVec 8) : OpcodeField.Statement (.gfexp x) := opField_encodeI8 _ x
theorem OpcodeField.gflog (x : BitVec 8) : OpcodeField.Statement (.gflog x) := opField_encodeI8 _ x
theorem OpcodeField.gfinv (x : BitVec 8) : OpcodeField.Statement (.gfinv x) := opField_encodeI8 _ x
theorem OpcodeField.part : OpcodeField.Statement .part := opField_encodeZ _
theorem OpcodeField.ecgen : OpcodeField.Statement .ecgen := opField_encodeZ _
theorem OpcodeField.ilv : OpcodeField.Statement .ilv := opField_encodeZ _
theorem OpcodeField.ecrun : OpcodeField.Statement .ecrun := opField_encodeZ _
theorem OpcodeField.minit : OpcodeField.Statement .minit := opField_encodeZ _
theorem OpcodeField.mstep : OpcodeField.Statement .mstep := opField_encodeZ _
theorem OpcodeField.mrun : OpcodeField.Statement .mrun := opField_encodeZ _
theorem OpcodeField.mplace : OpcodeField.Statement .mplace := opField_encodeZ _

end Sys2Proof.Laws
end

