-- ==== Sys2Proof/Machine/Assembler.lean ====
section
/-! DEFINITION. The assembler's reading of text (30_encoding.md R89, R90): characters to lines, which `assemble` turns into words. The
block never sees it (log 14). -/

namespace Sys2Proof

/-- A blank between the parts of a line. -/
def isBlank (c : Char) : Bool := c = ' ' || c = '\t' || c = '\r'

/-- The text with no blanks at either end. -/
def trimBlanks (cs : List Char) : List Char := ((cs.dropWhile isBlank).reverse.dropWhile isBlank).reverse

/-- The parts of a text between separators. -/
def splitAtChar (sep : Char) : List Char → List (List Char)
  | [] => [[]]
  | c :: cs =>
    if c = sep then [] :: splitAtChar sep cs
    else
      match splitAtChar sep cs with
      | [] => [[c]]
      | part :: parts => (c :: part) :: parts

/-- The value of a hexadecimal digit, either case. -/
def digitValue (c : Char) : Option Nat :=
  if '0'.toNat ≤ c.toNat && c.toNat ≤ '9'.toNat then some (c.toNat - '0'.toNat)
  else if 'a'.toNat ≤ c.toNat && c.toNat ≤ 'f'.toNat then some (c.toNat - 'a'.toNat + 10)
  else if 'A'.toNat ≤ c.toNat && c.toNat ≤ 'F'.toNat then some (c.toNat - 'A'.toNat + 10)
  else none

/-- The value of a string of digits of a base, after digits worth `acc`. -/
def digitsValue (base : Nat) : Nat → List Char → Option Nat
  | acc, [] => some acc
  | acc, c :: cs =>
    match digitValue c with
    | some d => if d < base then digitsValue base (base * acc + d) cs else none
    | none => none

/-- A decimal numeral, or a hexadecimal one that begins with `0x` (R89). -/
def parseNumeral : List Char → Option Nat
  | [] => none
  | ['0', 'x'] => none
  | '0' :: 'x' :: cs => digitsValue 16 0 cs
  | cs => digitsValue 10 0 cs

/-- The mnemonics of R86, in capitals. -/
def mnemonicNames : List (List Char × Mnemonic) :=
  [("NOP".toList, .nop), ("CLR".toList, .clr), ("SETT".toList, .sett), ("SETD".toList, .setd), ("SETB".toList, .setb),
    ("SETS".toList, .sets), ("PUSH".toList, .push), ("RDR".toList, .rdr), ("RDD".toList, .rdd), ("RDE".toList, .rde),
    ("RDO".toList, .rdo), ("GFADD".toList, .gfadd), ("GFMUL".toList, .gfmul), ("GFEXP".toList, .gfexp)] ++
  [("GFLOG".toList, .gflog), ("GFINV".toList, .gfinv), ("PART".toList, .part), ("ECGEN".toList, .ecgen), ("ILV".toList, .ilv),
    ("ECRUN".toList, .ecrun), ("MINIT".toList, .minit), ("MSTEP".toList, .mstep), ("MRUN".toList, .mrun),
    ("MPLACE".toList, .mplace)]

/-- The register names of 10_state.md R21. -/
def registerNames : List (List Char × RegName) :=
  [("STATUS".toList, .status), ("FCMD".toList, .fcmd), ("TOTAL".toList, .total), ("DATA".toList, .data), ("NBLK".toList, .nblk),
    ("SYM".toList, .sym), ("SLEN".toList, .slen), ("G1".toList, .g1), ("G2".toList, .g2), ("DG1".toList, .dg1)] ++
  [("DG2".toList, .dg2), ("ECLEN".toList, .eclen), ("BIDX".toList, .bidx), ("OFF".toList, .off), ("OLEN".toList, .olen),
    ("MCUR".toList, .mcur), ("MBEST".toList, .mbest), ("MBSLO".toList, .mbslo), ("MBSHI".toList, .mbshi), ("MLAST".toList, .mlast)]

/-- An operand: a level letter, a register name or a numeral; `Line.wf` says where the first two may stand (R89). -/
def parseOperand (cs : List Char) : Option Operand :=
  match cs with
  | ['L'] => some (.level .l)
  | ['M'] => some (.level .m)
  | ['Q'] => some (.level .q)
  | ['H'] => some (.level .h)
  | _ =>
    match registerNames.lookup cs with
    | some r => some (.register r)
    | none => (parseNumeral cs).map .num

/-- Numerals only, as the pseudo-instructions take them (R90). -/
def numeralsOf : List Operand → Option (List Nat)
  | [] => some []
  | .num n :: rest => (numeralsOf rest).map (n :: ·)
  | .level _ :: _ => none
  | .register _ :: _ => none

/-- The command or pseudo-instruction of a name and its operands (R86, R90). -/
def lineOf (name : List Char) (operands : List Operand) : Option Line :=
  match mnemonicNames.lookup name with
  | some m => some (.command m operands)
  | none =>
    match numeralsOf operands with
    | none => none
    | some values =>
      if name = "PUSHN".toList then some (.pushn values)
      else if name = "CONFIG".toList then
        match values with
        | [t, d, n] => some (.config t d n)
        | _ => none
      else if name = "RDON".toList then
        match values with
        | [a, n] => some (.rdon a n)
        | _ => none
      else none

/-- All of a list of optional values, or none. -/
def allSome {α : Type} : List (Option α) → Option (List α)
  | [] => some []
  | none :: _ => none
  | some x :: rest => (allSome rest).map (x :: ·)

/-- A line of text with its comment off and trimmed: a name, then operands between commas. -/
def parseCommand (cs : List Char) : Option Line :=
  let operands := trimBlanks (cs.dropWhile fun c => !isBlank c)
  let parts := if operands = [] then [] else (splitAtChar ',' operands).map fun part => parseOperand (trimBlanks part)
  match allSome parts with
  | some values => lineOf (cs.takeWhile fun c => !isBlank c) values
  | none => none

/-- A listing: one command per line; a semicolon starts a comment that runs to the end of the line; blank lines are ignored (R89). -/
def parseListing (text : List Char) : Option (List Line) :=
  let lines := (splitAtChar '\n' text).map fun line => trimBlanks (line.takeWhile fun c => c != ';')
  allSome ((lines.filter fun line => line != []).map parseCommand)

/-- The words a text assembles to, or an assembly error (R89, R90). -/
def assembleText (text : List Char) : Option (List Word) :=
  match parseListing text with
  | some listing => assemble listing
  | none => none

end Sys2Proof
end

