-- ==== Sys2Proof/Tests/Slice0.lean ====
section
/-! SUPPORT. The model's own tests. Expected values come from spec/95_test_vectors.md and from the examples and tables of the rules named
(hand calculation where a comment says so). The theorems `witness_…` show that the hypotheses of the statements can be met. -/

namespace Sys2Proof.Tests

open Sys2Proof.Machine

set_option Elab.async false

/-! ### Well-formedness: one ill-formed line per check (R85, R89, R90) -/

theorem test_wf_accepts : Line.wf (.command .sets [.num 1, .level .m]) = true ∧ Line.wf (.command .rdr [.register .status]) = true ∧
    Line.wf (.command .sett [.num 4095]) = true := by decide
theorem test_wf_operand_count : Line.wf (.command .sett []) = false := by decide
theorem test_wf_numeral_range : Line.wf (.command .sett [.num 4096]) = false ∧ Line.wf (.command .push [.num 256]) = false := by decide
theorem test_wf_level_place : Line.wf (.command .gfadd [.num 1, .level .m]) = false ∧
    Line.wf (.command .sets [.level .m, .num 1]) = false := by decide
theorem test_wf_register_place : Line.wf (.command .push [.register .status]) = false := by decide
theorem test_wf_pseudo : Line.wf (.config 4096 1 1) = false ∧ Line.wf (.pushn []) = false ∧ Line.wf (.pushn [256]) = false ∧
    Line.wf (.rdon 0 0) = false ∧ Line.wf (.rdon 4095 2) = false := by decide

/-- The examples of R89, and P1 lines 0 to 2 (R90). -/
theorem test_assemble_examples :
    assemble [.command .sett [.num 26], .command .sets [.num 1, .level .m], .command .push [.num 0xEC],
      .command .rdr [.register .status], .command .gfmul [.num 0x02, .num 0x80], .command .ecrun []] =
      some [0x0200001A, 0x05000101, 0x060000EC, 0x08000000, 0x11000280, 0x23000000] := by decide
theorem test_assemble_config : assemble [.config 11 5 2] = some [0x0200000B, 0x03000005, 0x04000002] := by decide

/-- The examples of R89 and the pseudo-instructions of R90 as text, and assembly errors. -/
theorem test_text_examples : assembleText ("SETT 26\nSETS 1, M ; level M\n\n  PUSH 0xEC\nRDR STATUS\nGFMUL 0x02, 0x80\nECRUN\n".toList) =
    some [0x0200001A, 0x05000101, 0x060000EC, 0x08000000, 0x11000280, 0x23000000] := by decide +kernel
theorem test_text_pseudo : assembleText ("CONFIG 11, 5, 2; V3\nPUSHN 1, 0x2\nRDON 4094, 2".toList) =
    some [0x0200000B, 0x03000005, 0x04000002, 0x06000001, 0x06000002, 0x0B000FFE, 0x0B000FFF] := by decide +kernel
theorem test_text_errors : assembleText "sett 26".toList = none ∧ assembleText "SETT 4096".toList = none ∧
    assembleText "SETT 1,".toList = none ∧ assembleText "PUSHN".toList = none ∧ assembleText "RDD M".toList = none := by decide +kernel

/-! ### Decoding: every constructor, words written out from R81 to R86 -/

theorem test_decode_config : decode 0x00000000 = .command .nop ∧ decode 0x01000000 = .command .clr ∧
    decode 0x0200001A = .command (.sett 26) ∧ decode 0x03000010 = .command (.setd 16) ∧ decode 0x04000004 = .command (.setb 4) ∧
    decode 0x05002803 = .command (.sets 40 3) ∧ decode 0x060000FF = .command (.push 0xFF) := by decide
theorem test_decode_reads : decode 0x08000013 = .command (.rdr 19) ∧ decode 0x09000801 = .command (.rdd 0x801) ∧
    decode 0x0A000402 = .command (.rde 0x402) ∧ decode 0x0B000FFF = .command (.rdo 4095) := by decide
theorem test_decode_field : decode 0x100053CA = .command (.gfadd 0x53 0xCA) ∧ decode 0x11000280 = .command (.gfmul 0x02 0x80) ∧
    decode 0x12000008 = .command (.gfexp 8) ∧ decode 0x1300001D = .command (.gflog 0x1D) ∧
    decode 0x14000002 = .command (.gfinv 2) := by decide
theorem test_decode_interleave : decode 0x20000000 = .command .part ∧ decode 0x21000000 = .command .ecgen ∧
    decode 0x22000000 = .command .ilv ∧ decode 0x23000000 = .command .ecrun := by decide
theorem test_decode_mask : decode 0x30000000 = .command .minit ∧ decode 0x31000000 = .command .mstep ∧
    decode 0x32000000 = .command .mrun ∧ decode 0x33000000 = .command .mplace := by decide
/-- The illegal words of 95_test_vectors.md 2.1. -/
theorem test_decode_illegal : decode 0x00000001 = .illegal .zeroFieldSet ∧ decode 0x07000000 = .illegal .unassignedOpcode ∧
    decode 0x0200101A = .illegal .zeroFieldSet ∧ decode 0x06000100 = .illegal .zeroFieldSet ∧
    decode 0x05010101 = .illegal .zeroFieldSet ∧ decode 0x1101FFFF = .illegal .zeroFieldSet ∧
    decode 0x23000001 = .illegal .zeroFieldSet ∧ decode 0xFF000000 = .illegal .unassignedOpcode := by decide

/-! ### GF(256) and the encoder: 95_test_vectors.md 2.2 and 2.3 -/

theorem test_gfmul : gfmul 0x02 0x80 = 0x1D ∧ gfmul 0x03 0x07 = 0x09 ∧ gfmul 0x53 0xCA = 0x8F ∧ gfmul 0xFF 0xFF = 0xE2 := by
  decide +kernel
theorem test_gfexp : gfexp 8 = 0x1D ∧ gfexp 25 = 0x03 ∧ gfexp 254 = 0x8E ∧ gfexp 255 = 0x01 := by decide +kernel
theorem test_gflog : gflog 0x02 = some 1 ∧ gflog 0x03 = some 25 ∧ gflog 0xFF = some 175 ∧ gflog 0 = none := by decide +kernel
theorem test_gfinv : gfinv 0x02 = some 0x8E ∧ gfinv 0x03 = some 0xF4 ∧ gfinv 0xFF = some 0xFD ∧ gfinv 0 = none := by decide +kernel
theorem test_genpoly : genpoly 3 = [0x01, 0x07, 0x0E, 0x08] ∧ genpoly 7 = [0x01, 0x7F, 0x7A, 0x9A, 0xA4, 0x0B, 0x44, 0x75] := by
  decide +kernel
theorem test_rsencode : rsencode [0x01, 0x02, 0x03] 2 = [0x04, 0x04] ∧ rsencode [0x01, 0x02] 3 = [0x15, 0x3E, 0x28] ∧
    rsencode [0x80] 2 = [0x9D, 0x1D] := by decide +kernel
/-- Vector V1: the error-correction bytes. -/
theorem test_rsencode_v1 :
    rsencode [0x10, 0x20, 0x0C, 0x56, 0x61, 0x80, 0xEC, 0x11, 0xEC, 0x11, 0xEC, 0x11, 0xEC, 0x11, 0xEC, 0x11] 10 =
      [0xA5, 0x24, 0xD4, 0xC1, 0xED, 0x36, 0xC7, 0x87, 0x2C, 0x55] := by decide +kernel

/-! ### States for the tests -/

/-- The state commands lead to. -/
def after (commands : List Instr) (s : State) : State :=
  match execAll commands s with
  | .next t => t
  | .fault _ => s
  | .refused _ => s

/-- The next state of one command, if any. -/
def nextOf (i : Instr) (s : State) : Option State :=
  match exec i s with
  | .next t => some t
  | .fault _ => none
  | .refused _ => none

/-- Vector V3 before PART: TOTAL 11, DATA 5, NBLK 2, five bytes pushed. -/
def v3 : State := after [.sett 11, .setd 5, .setb 2, .push 1, .push 2, .push 3, .push 4, .push 5] State.reset

/-- The placement the test collaborator TC makes under a mask id: any eight different matrices will do. -/
def tcMatrix (m : Nat) : QrMatrix := ⟨[List.replicate m .one]⟩

/-- The first row of table M1's sums, as a penalty table: 500, 420, 420, 600, 419, 419, 700, 800, split over the four rules. -/
def tcPenalties : List (PenRequest × Word) :=
  (List.range 8).flatMap fun m =>
    [(⟨.rule1, tcMatrix m⟩, ([100, 120, 120, 300, 119, 119, 200, 300] : List Word).getD m 0),
     (⟨.rule2, tcMatrix m⟩, ([200, 100, 150, 100, 100, 150, 250, 200] : List Word).getD m 0),
     (⟨.rule3, tcMatrix m⟩, ([150, 150, 100, 150, 150, 100, 200, 250] : List Word).getD m 0),
     (⟨.rule4, tcMatrix m⟩, 50)]

/-- TC's answers for V-small; `failing` is a mask id for which it answers `fail` (8: none). -/
def tcPlacements (failing : Nat) : List (PlaceRequest × PlaceAnswer) :=
  (List.range 8).map fun m =>
    (⟨[0x12, 0x34, 0x26], 0, 1, BitVec.ofNat 3 m⟩, if m = failing then .fail else .ok (tcMatrix m))

/-- V-small (95_test_vectors.md 2.6) before ECRUN, with the test collaborator. -/
def small (failing : Nat) : State :=
  after [.sett 3, .setd 2, .setb 1, .push 0x12, .push 0x34]
    { State.reset with placeAnswers := tcPlacements failing, penAnswers := tcPenalties }

def smallParted : State := after [.part] (small 8)
def smallEcdone : State := after [.part, .ecgen] (small 8)
def smallOutv : State := after [.ecrun, .sets 1 0] (small 8)
def smallMasking : State := after [.minit] smallOutv
def smallTried : State := after [.mstep] smallMasking
def smallMdone : State := after [.mrun] smallOutv
def smallFinal : State := after [.mplace] smallMdone
def smallFault : State := after [.push 0] smallOutv

/-! ### Configuration and transfer -/

theorem test_nop : nextOf .nop smallOutv = some smallOutv := by decide +kernel
/-- After a fault, CLR gives STATUS 0 (R101). -/
theorem test_clr : (nextOf .clr smallFault).map statusWord = some 0 := by decide +kernel
theorem test_sett : (nextOf (.sett 26) State.reset).map State.total = some 26 := by decide +kernel
theorem test_setd : (nextOf (.setd 16) State.reset).map State.data = some 16 := by decide +kernel
theorem test_setb : (nextOf (.setb 4) State.reset).map State.nblk = some 4 := by decide +kernel
theorem test_sets : (nextOf (.sets 1 1) State.reset).map (fun t => (symWord t, t.vset)) = some (0x00000101, true) := by decide +kernel
/-- `SETS 41, L` raises F(OPERAND): STATUS 0x707 (R105, R191). -/
theorem test_sets_operand : (nextOf (.sets 41 0) State.reset).map (fun t => (statusWord t, t.fcmd)) = some (0x707, 0x05002900) := by
  decide +kernel
theorem test_push : (nextOf (.push 0x10) State.reset).map (fun t => (t.dmem, t.slen)) = some ([(0, 0x10)], 1) := by decide +kernel
/-- Vector V9 (a): with SLEN = 4095 PUSH raises F(RANGE). -/
theorem test_push_full : (nextOf (.push 7) { State.reset with slen := 4095 }).map (fun t => (statusWord t, t.fcmd)) =
    some (0x607, 0x06000007) := by decide +kernel
theorem test_rdr : (nextOf (.rdr 5) smallOutv).map State.rsp = some [0x00000100] := by decide +kernel
/-- RDR 20 outside phase FAULT raises F(OPERAND); inside it is dropped (95_test_vectors.md 2.5). -/
theorem test_rdr_operand : (nextOf (.rdr 20) State.reset).map statusWord = some 0x707 ∧
    nextOf (.rdr 20) smallFault = some smallFault := by decide +kernel
theorem test_rdd : (nextOf (.rdd 4) v3).map State.rsp = some [5] := by decide +kernel
theorem test_rdd_range : (nextOf (.rdd 0) State.reset).map statusWord = some 0x607 := by decide +kernel
theorem test_rde : (nextOf (.rde 0) smallEcdone).map State.rsp = some [0x26] := by decide +kernel
theorem test_rde_sequence : (nextOf (.rde 0) State.reset).map statusWord = some 0x307 := by decide +kernel
theorem test_rdo : (nextOf (.rdo 2) smallOutv).map State.rsp = some [0x26] := by decide +kernel
theorem test_rdo_range : (nextOf (.rdo 3) smallOutv).map (fun t => t.fcause) = some .range := by decide +kernel

/-! ### The field unit: program P5 -/

theorem test_gfadd_command : (nextOf (.gfadd 0x53 0xCA) State.reset).map State.rsp = some [0x99] := by decide +kernel
theorem test_gfmul_command : (nextOf (.gfmul 0x53 0xCA) State.reset).map State.rsp = some [0x8F] := by decide +kernel
theorem test_gfexp_command : (nextOf (.gfexp 255) State.reset).map State.rsp = some [0x01] := by decide +kernel
theorem test_gflog_command : (nextOf (.gflog 0x1D) State.reset).map State.rsp = some [8] := by decide +kernel
theorem test_gflog_zero : (nextOf (.gflog 0) State.reset).map (fun t => (statusWord t, t.fcmd, t.rsp)) =
    some (0x707, 0x13000000, []) := by decide +kernel
theorem test_gfinv_command : (nextOf (.gfinv 2) State.reset).map State.rsp = some [0x8E] := by decide +kernel
theorem test_gfinv_zero : (nextOf (.gfinv 0) State.reset).map statusWord = some 0x707 := by decide +kernel

/-! ### The interleaver: vectors V3, V6, V7 -/

theorem test_part : (nextOf .part v3).map (fun t => [t.g1, t.g2, t.dg1, t.dg2, t.eclen]) = some [1, 1, 2, 3, 3] := by decide +kernel
/-- V6, second row: four bytes pushed, DATA 5: F(LENGTH). -/
theorem test_part_length : (nextOf .part { v3 with slen := 4 }).map statusWord = some 0x507 := by decide +kernel
theorem test_ecgen : (nextOf .ecgen (after [.part] v3)).map (fun t => (t.emem.map Prod.snd, t.off, t.bidx, t.phase)) =
    some ([0x15, 0x3E, 0x28], 2, 1, .parted) := by decide +kernel
theorem test_ecgen_last : (nextOf .ecgen (after [.part, .ecgen] v3)).map (fun t => (t.emem.map Prod.snd, t.off, t.bidx, t.phase)) =
    some ([0x15, 0x3E, 0x28, 0xD2, 0x6D, 0xBD], 5, 2, .ecdone) := by decide +kernel
theorem test_ilv : (nextOf .ilv (after [.part, .ecgen, .ecgen] v3)).map (fun t => (t.omem.map Prod.snd, t.olen)) =
    some ([0x01, 0x03, 0x02, 0x04, 0x05, 0x15, 0xD2, 0x3E, 0x6D, 0x28, 0xBD], 11) := by decide +kernel
/-- V7: under-consumption; the fifth byte is never read and no fault is raised. -/
theorem test_ecrun_v7 : (nextOf .ecrun { v3 with total := 10 }).map (fun t => (t.omem.map Prod.snd, statusWord t)) =
    some ([0x01, 0x03, 0x02, 0x04, 0x15, 0x31, 0x3E, 0x5E, 0x28, 0x68], 3) := by decide +kernel
/-- V6, last row: DATA 4 with 1 + 1 blocks of 2 and 3 bytes: F(RANGE) at block 1. -/
theorem test_ecrun_range : (nextOf .ecrun { v3 with data := 4, slen := 4, dmem := v3.dmem.take 4 }).map
    (fun t => (statusWord t, t.fcmd, t.bidx, t.off, t.olen)) = some (0x607, 0x23000000, 1, 2, 0) := by decide +kernel

/-! ### The mask evaluator: vectors M1, M5, M6 -/

theorem test_minit : (nextOf .minit smallOutv).map (fun t => (statusWord t, t.mcur)) = some (0x14, 0) := by decide +kernel
theorem test_minit_unset : (nextOf .minit { smallOutv with vset := false }).map statusWord = some 0x307 := by decide +kernel
theorem test_mstep : (nextOf .mstep smallMasking).map (fun t => (statusWord t, t.mcur, t.mbest, t.mbscore, t.mlast)) =
    some (0xB4, 1, 0, 500, 0) := by decide +kernel
theorem test_mrun : (nextOf .mrun smallOutv).map (fun t => (statusWord t, t.mcur, t.mbest, t.mbscore, t.mlast)) =
    some (0xB5, 8, 4, 419, 7) := by decide +kernel
/-- M5: `Place` answers `fail` for id 3. -/
theorem test_mrun_external : (nextOf .mrun (after [.ecrun, .sets 1 0] (small 3))).map
    (fun t => (statusWord t, t.fcmd, t.mcur, t.mbest, t.mbscore, t.mlast)) = some (0x8B7, 0x32000000, 3, 1, 420, 2) := by decide +kernel
theorem test_mplace : (nextOf .mplace smallMdone).map (fun t => (statusWord t, t.mlast, t.mbuf)) =
    some (0xF6, 4, some (tcMatrix 4)) := by decide +kernel
theorem test_mplace_sequence : (nextOf .mplace smallMasking).map (fun t => t.fcause) = some .sequence := by decide +kernel

/-! ### The step -/

/-- A word taken right after reset: program P4, line 0. -/
theorem test_step_word : (match step (State.reset.withFetchWord 32 0x0200000B) with
    | .next t => (t.total, t.pc, t.input) | .fault _ => (0, 0, []) | .refused _ => (0, 0, [])) = (11, 1, []) := by decide +kernel
/-- An illegal CLR word does not clear a fault (95_test_vectors.md 2.5). -/
theorem test_step_illegal_clr : (match takeWord 0x01000001 smallFault with
    | .next t => decide (t = smallFault) | .fault _ => false | .refused _ => false) = true := by decide +kernel

/-! ### Witnesses: the hypotheses of each statement with hypotheses can be met -/

theorem exec_of_nextOf {i : Instr} {s t : State} (h : nextOf i s = some t) : exec i s = .next t := by
  unfold nextOf at h
  split at h <;> simp_all

/-- A command leads to a next state of which something holds. -/
def leads (i : Instr) (s : State) (p : State → Prop) : Prop := ∃ t, exec i s = .next t ∧ p t

theorem leads_of {i : Instr} {s : State} {p : State → Prop} [DecidablePred p]
    (h : (nextOf i s).any (fun t => decide (p t)) = true) : leads i s p := by
  obtain ⟨t, ht, hp⟩ := (Option.any_eq_true ..).mp h
  exact ⟨t, exec_of_nextOf ht, of_decide_eq_true hp⟩

/-- A step leads to a next state of which something holds. -/
def stepsTo (s : State) (p : State → Prop) : Prop := ∃ t, step s = .next t ∧ p t

theorem stepsTo_of {s : State} {p : State → Prop} [DecidablePred p]
    (h : (match step s with | .next t => decide (p t) | .fault _ => false | .refused _ => false) = true) : stepsTo s p := by
  cases hs : step s with
  | next t => rw [hs] at h; exact ⟨t, hs, of_decide_eq_true h⟩
  | fault f => rw [hs] at h; cases h
  | refused r => rw [hs] at h; cases h

/-- A state with the host's next transactions given. -/
def fed (s : State) (inputs : List HostInput) : State := { s with input := inputs }

/-- More states: over-consumption (R159), a full data stream, and a matrix collaborator that answers `fail` under mask id 3, under 0, or
under the winner once it is known. -/
def vOver : State := { v3 with data := 4, slen := 4, dmem := v3.dmem.take 4 }
def full : State := { State.reset with slen := 4095 }
def failsAt3 : State := after [.ecrun, .sets 1 0] (small 3)
def failsAt0 : State := after [.ecrun, .sets 1 0, .minit] (small 0)
def failsLate : State := { smallMdone with placeAnswers := tcPlacements 4 }

theorem witness_EncodeOfDecode : decode 0x0200001A = .command (.sett 26) ∧ decode 0x05002803 = .command (.sets 40 3) := by decide
theorem witness_WordIsCommandIff : decode 0x02000FFF = .command (.sett 4095) ∧ decode 0x02001000 = .illegal .zeroFieldSet := by decide
theorem witness_PseudoInstructionsExpand : assemble [.pushn [255]] = some [0x060000FF] ∧
    assemble [.rdon 4095 1] = some [0x0B000FFF] ∧ assemble [.rdon 4095 2] = none := by decide
theorem witness_ResetLeavesResetValues : (fed smallFinal [.reset]).input = .reset :: [] := rfl
theorem witness_StreamsAreTheHosts : (fed smallFault [.reset, .reset]).input = .reset :: [.reset] ∧ smallFinal.input = [] :=
  ⟨rfl, by decide +kernel⟩
theorem witness_StepRunsDecoded : (fed v3 [.command 0x20000000]).input = .command 0x20000000 :: [] ∧
    decode 0x20000000 = .command .part := ⟨rfl, by decide⟩
theorem witness_PcCountsWords : stepsTo (fed v3 [.command 0x20000000]) (fun t => t.phase = .parted ∧ t.pc = 1) ∧
    stepsTo (fed smallFault [.command 0x20000000]) (fun t => t.pc = 1) ∧
    stepsTo (fed v3 [.command 0xFF000000]) (fun t => t.phase = .fault ∧ t.pc = 1) :=
  ⟨stepsTo_of (by decide +kernel), stepsTo_of (by decide +kernel), stepsTo_of (by decide +kernel)⟩
theorem witness_IllegalWordFaults : decode 0x07000000 = .illegal .unassignedOpcode ∧ State.reset.phase ≠ .fault ∧
    smallFault.phase = .fault ∧ (∀ m : Mnemonic, m.opcode ≠ opField 0x07000000) ∧
    (Mnemonic.sett.opcode = opField 0x02001000 ∧ zeroFieldClear Mnemonic.sett.format 0x02001000 = false) :=
  ⟨by decide, by decide, by decide +kernel, fun m => by cases m <;> decide, by decide⟩
theorem witness_PhasePermissions :
    (State.reset.phase ≠ .fault ∧ State.reset.phase ∉ permissionRow .ecgen) ∧
    (smallOutv.phase ∈ permissionRow .minit ∧
      leads .minit { smallOutv with vset := false } fun t => t.phase = .fault ∧ t.fcause = .sequence) ∧
    smallFault.phase = .fault :=
  ⟨by decide, ⟨by decide +kernel, leads_of (by decide +kernel)⟩, by decide +kernel⟩
theorem witness_PhaseTransitions :
    leads .ecgen smallParted (fun t => t.phase = .ecdone) ∧ leads .ecgen (after [.part] v3) (fun t => t.phase = .parted) ∧
    leads .mstep smallTried (fun t => t.phase = .masking) ∧
    leads .mstep (after (List.replicate 7 .mstep) smallMasking) (fun t => t.phase = .mdone) ∧
    (smallFault.phase = .fault ∧ leads .clr smallFault fun t => t.phase = .load) :=
  ⟨leads_of (by decide +kernel), leads_of (by decide +kernel), leads_of (by decide +kernel), leads_of (by decide +kernel),
    by decide +kernel, leads_of (by decide +kernel)⟩
theorem witness_FaultEntry : smallOutv.phase ≠ .fault ∧ leads (.push 0) smallOutv fun t => t.phase = .fault :=
  ⟨by decide +kernel, leads_of (by decide +kernel)⟩
theorem witness_FaultPhaseFilter : smallFault.phase = .fault ∧ (0x08000013 : Word).toNat = 0x08000000 + 19 ∧
    ((0x08000014 : Word) ≠ 0x01000000 ∧ ∀ n : Nat, n ≤ 19 → (0x08000014 : Word).toNat ≠ 0x08000000 + n) :=
  ⟨by decide +kernel, by decide, by decide, fun n hn => by simp; omega⟩
theorem witness_FirstFaultStays : smallFault.phase = .fault ∧
    stepsTo (fed smallFault [.command 0xFF000000]) (fun t => t.fcause = .sequence) ∧
    stepsTo (fed smallFault [.command 0x01000000]) (fun t => t.phase = .load) ∧
    stepsTo (fed smallFault [.reset]) (fun t => t.phase = .load) :=
  ⟨by decide +kernel, stepsTo_of (by decide +kernel), stepsTo_of (by decide +kernel), stepsTo_of (by decide +kernel)⟩
theorem witness_CausesOfCommands : leads .part State.reset (fun t => t.phase = .fault ∧ t.fcause = .config) ∧
    leads .ecrun vOver (fun t => t.phase = .fault ∧ t.fcause = .range) ∧
    leads .mrun failsAt3 (fun t => t.phase = .fault ∧ t.fcause = .external) ∧
    leads (.sets 0 0) State.reset (fun t => t.phase = .fault ∧ t.fcause = .operand) :=
  ⟨leads_of (by decide +kernel), leads_of (by decide +kernel), leads_of (by decide +kernel), leads_of (by decide +kernel)⟩
theorem witness_RegistersWrittenBy :
    leads (.push 0) smallOutv (fun t => t.fcmd ≠ smallOutv.fcmd ∧ t.fcause ≠ smallOutv.fcause) ∧
    leads .clr smallFinal (fun t => t.total ≠ smallFinal.total ∧ t.data ≠ smallFinal.data ∧ t.nblk ≠ smallFinal.nblk ∧
      t.ver ≠ smallFinal.ver ∧ t.slen ≠ smallFinal.slen ∧ t.g1 ≠ smallFinal.g1 ∧ t.bidx ≠ smallFinal.bidx ∧
      t.emem ≠ smallFinal.emem ∧ t.olen ≠ smallFinal.olen ∧ t.mcur ≠ smallFinal.mcur ∧ t.mlast ≠ smallFinal.mlast) ∧
    leads .ecrun (small 8) (fun t => t.g1 ≠ (small 8).g1 ∧ t.off ≠ (small 8).off ∧ t.omem ≠ (small 8).omem) ∧
    leads .mplace smallMdone (fun t => t.mlast ≠ smallMdone.mlast ∧ t.mbuf ≠ smallMdone.mbuf) :=
  ⟨leads_of (by decide +kernel), leads_of (by decide +kernel), leads_of (by decide +kernel), leads_of (by decide +kernel)⟩
theorem witness_FlagsSetAndCleared :
    leads (.sets 1 0) State.reset (fun t => t.vset ≠ State.reset.vset ∧ t.phase ≠ .fault) ∧
    leads .mstep smallMasking (fun t => t.mbestv ≠ smallMasking.mbestv ∧ t.mlastv ≠ smallMasking.mlastv ∧ t.phase ≠ .fault) ∧
    leads .mplace smallMdone (fun t => t.mfinal ≠ smallMdone.mfinal ∧ t.phase ≠ .fault) ∧
    leads .minit smallFinal (fun t => t.mbestv ≠ smallFinal.mbestv ∧ t.mfinal ≠ smallFinal.mfinal ∧ t.phase ≠ .fault) ∧
    leads .clr smallFinal (fun t => t.vset ≠ smallFinal.vset ∧ t.mlastv ≠ smallFinal.mlastv) :=
  ⟨leads_of (by decide +kernel), leads_of (by decide +kernel), leads_of (by decide +kernel), leads_of (by decide +kernel),
    leads_of (by decide +kernel)⟩
theorem witness_OneResponse :
    (responds .ilv = false ∧ leads .ilv smallEcdone fun _ => True) ∧
    (responds (.rdr 19) = true ∧ smallOutv.phase ≠ .fault ∧ leads (.rdr 19) smallOutv fun t => t.phase ≠ .fault) ∧
    leads (.rdd 4095) smallOutv (fun t => t.phase = .fault) ∧
    (smallFault.phase = .fault ∧ leads (.rdr 0) smallFault fun t => t.rsp ≠ smallFault.rsp) ∧
    ((fed smallOutv [.reset]).input = .reset :: [] ∧ stepsTo (fed smallOutv [.reset]) fun _ => True) :=
  ⟨⟨by decide, leads_of (by decide +kernel)⟩, ⟨by decide, by decide +kernel, leads_of (by decide +kernel)⟩,
    leads_of (by decide +kernel), ⟨by decide +kernel, leads_of (by decide +kernel)⟩, rfl, stepsTo_of (by decide +kernel)⟩
theorem witness_ResponsesPairUp : Instr.clr ∉ [Instr.rdr 0, .nop, .gfexp 8] ∧
    ∃ t, execAll [.rdr 0, .nop, .gfexp 8] State.reset = .next t ∧ t.phase ≠ .fault :=
  ⟨by decide, { State.reset with rsp := [0, 0x1D] }, rfl, by decide⟩
theorem witness_InputsFreeze : Instr.sets 40 3 ≠ .clr ∧ leads (.sets 40 3) smallParted (fun t => t.ver = 40) ∧
    smallParted.phase ≠ .load ∧ leads .mstep smallMasking (fun _ => True) ∧ smallMasking.phase = .masking :=
  ⟨by decide, leads_of (by decide +kernel), by decide +kernel, leads_of (by decide +kernel), by decide +kernel⟩

/-- The fields of `Inv` in a form that can be decided, in four parts. -/
abbrev InvBuffers (s : State) : Prop :=
  (holdsExactly s.dmem s.slen.toNat ∧ holdsExactly s.emem (s.bidx.toNat * s.eclen.toNat) ∧ s.bidx.toNat * s.eclen.toNat ≤ 4095 ∧
    holdsExactly s.omem s.olen.toNat) ∧
  ((s.phase = .fault ↔ s.fcause ≠ .none) ∧ (s.fcause = .none → s.fcmd = 0) ∧ s.fcause ≠ .internal) ∧
  ((s.vset = true → symbolLegal s.ver s.ecl = true) ∧ (s.vset = false → s.ver = 0 ∧ s.ecl = 0))

abbrev InvGeometry (s : State) : Prop :=
  (s.phase = .load → s.g1 = 0 ∧ s.g2 = 0 ∧ s.dg1 = 0 ∧ s.dg2 = 0 ∧ s.eclen = 0 ∧ s.bidx = 0 ∧ s.off = 0) ∧
  (s.phase.partitioned = true → 1 ≤ s.nblk.toNat ∧ s.slen = s.data ∧ s.g2.toNat = s.total.toNat % s.nblk.toNat ∧
    s.g1.toNat = s.nblk.toNat - s.g2.toNat ∧ s.dg1.toNat = s.data.toNat / s.nblk.toNat ∧ s.dg2.toNat = s.dg1.toNat + 1 ∧
    s.dg1.toNat + s.eclen.toNat = s.total.toNat / s.nblk.toNat ∧ 1 ≤ s.dg1.toNat ∧ 1 ≤ s.eclen.toNat) ∧
  ((s.phase.partitioned = true → s.off.toNat = boff s s.bidx.toNat ∧ s.off.toNat ≤ s.slen.toNat) ∧
    (s.phase = .parted → s.bidx.toNat < s.nblk.toNat) ∧ (s.phase = .ecdone ∨ s.phase.interleaved = true → s.bidx = s.nblk) ∧
    (s.phase = .load ∨ s.phase = .parted ∨ s.phase = .ecdone → s.olen = 0) ∧ (s.phase.interleaved = true → s.olen = s.total))

abbrev InvEvaluation (s : State) : Prop :=
  (s.phase = .load ∨ s.phase = .parted ∨ s.phase = .ecdone ∨ s.phase = .outv → s.mcur = 0 ∧ s.mbest = 0 ∧ s.mbscore = 0 ∧
    s.mlast = 0 ∧ s.mbestv = false ∧ s.mlastv = false ∧ s.mfinal = false) ∧
  ((s.phase = .masking ∨ s.phase = .mdone ∨ s.phase = .final → s.vset = true) ∧
    (s.phase = .masking → s.mcur.toNat < 8 ∧ s.mfinal = false ∧ (s.mbestv = true ↔ s.mcur ≠ 0) ∧ (s.mcur ≠ 0 → s.mlastv = true)) ∧
    (s.phase = .mdone → s.mcur = 8 ∧ s.mfinal = false ∧ s.mbestv = true ∧ s.mlastv = true ∧ s.mlast = 7) ∧
    (s.phase = .final → s.mcur = 8 ∧ s.mfinal = true ∧ s.mbestv = true ∧ s.mlastv = true ∧ s.mlast = s.mbest))

abbrev InvMatrix (s : State) : Prop :=
  ((s.mlastv = true → s.mbuf ≠ none ∧ s.mbuf = placementOf s s.mlast) ∧ (s.mlastv = false → s.mbuf = none))

def invCheck (s : State) : Bool :=
  decide (InvBuffers s) && decide (InvGeometry s) && decide (InvEvaluation s) && decide (InvMatrix s)

theorem inv_of_fields {s : State} (h : invCheck s = true) : Inv s := by
  simp only [invCheck, Bool.and_eq_true, decide_eq_true_eq] at h
  obtain ⟨⟨⟨hb, hg⟩, he⟩, j1, j2⟩ := h
  obtain ⟨⟨a1, a2, a3, a4⟩, ⟨b1, b2, b3⟩, c1, c2⟩ := hb
  obtain ⟨d, e, f1, f2, f3, f4, f5⟩ := hg
  obtain ⟨g, i1, i2, i3, i4⟩ := he
  exact ⟨a1, a2, a3, a4, b1, b2, b3, c1, c2, d,
    fun hp => have ⟨x1, x2, x3, x4, x5, x6, x7, x8, x9⟩ := e hp; ⟨x1, x2, x3, x4, x5, x6, x7, x8, x9⟩, f1, f2, f3, f4, f5,
    fun hp => have ⟨x1, x2, x3, x4, x5, x6, x7⟩ := g hp; ⟨x1, x2, x3, x4, x5, x6, x7⟩, i1, i2, i3, i4, j1, j2⟩

theorem inv_v3 : Inv v3 := inv_of_fields (by decide +kernel)
theorem inv_vOver : Inv vOver := inv_of_fields (by decide +kernel)
theorem inv_small : Inv (small 8) := inv_of_fields (by decide +kernel)
theorem inv_smallParted : Inv smallParted := inv_of_fields (by decide +kernel)
theorem inv_smallEcdone : Inv smallEcdone := inv_of_fields (by decide +kernel)
theorem inv_smallOutv : Inv smallOutv := inv_of_fields (by decide +kernel)
theorem inv_smallMasking : Inv smallMasking := inv_of_fields (by decide +kernel)
theorem inv_smallTried : Inv smallTried := inv_of_fields (by decide +kernel)
theorem inv_smallMdone : Inv smallMdone := inv_of_fields (by decide +kernel)
theorem inv_smallFinal : Inv smallFinal := inv_of_fields (by decide +kernel)
theorem inv_smallFault : Inv smallFault := inv_of_fields (by decide +kernel)

/-- A state of every phase meets the invariant. -/
theorem witness_StepKeepsInv :
    (Inv (small 8) ∧ (small 8).phase = .load) ∧ (Inv smallParted ∧ smallParted.phase = .parted) ∧
    (Inv smallEcdone ∧ smallEcdone.phase = .ecdone) ∧ (Inv smallOutv ∧ smallOutv.phase = .outv) ∧
    (Inv smallTried ∧ smallTried.phase = .masking) ∧ (Inv smallMdone ∧ smallMdone.phase = .mdone) ∧
    (Inv smallFinal ∧ smallFinal.phase = .final) ∧ (Inv smallFault ∧ smallFault.phase = .fault) :=
  ⟨⟨inv_small, by decide +kernel⟩, ⟨inv_smallParted, by decide +kernel⟩, ⟨inv_smallEcdone, by decide +kernel⟩,
    ⟨inv_smallOutv, by decide +kernel⟩, ⟨inv_smallTried, by decide +kernel⟩, ⟨inv_smallMdone, by decide +kernel⟩,
    ⟨inv_smallFinal, by decide +kernel⟩, inv_smallFault, by decide +kernel⟩
theorem witness_StepKeepsBuffersCanonical : Memory.wf (fed smallEcdone [.command 0x22000000]).dmem = true ∧
    Memory.wf (fed smallEcdone [.command 0x22000000]).emem = true ∧ Memory.wf (fed smallEcdone [.command 0x22000000]).omem = true ∧
    stepsTo (fed smallEcdone [.command 0x22000000]) fun t => t.phase = .outv :=
  ⟨by decide +kernel, by decide +kernel, by decide +kernel, stepsTo_of (by decide +kernel)⟩

/-- The scores of the ids below `n`, read off a table of them, show the winner. -/
theorem isWinner_of {s : State} {n : Nat} {best : BitVec 3} {score : BitVec 34}
    (h : best.toNat < n ∧ trialScore s best = some score ∧ ∀ m : BitVec 3, m.toNat < n →
      (trialScore s m).any (fun x => decide (score.toNat ≤ x.toNat ∧ (m.toNat < best.toNat → score.toNat < x.toNat))) = true) :
    isWinner s n best score :=
  ⟨h.1, h.2.1, fun m hm => by
    obtain ⟨x, hx, hd⟩ := (Option.any_eq_true ..).mp (h.2.2 m hm)
    exact ⟨x, hx, of_decide_eq_true hd⟩⟩

/-- Vector M1, row 1: the winner is id 4 with 419. -/
theorem winner_small : isWinner smallOutv 8 4 419 := isWinner_of (by decide +kernel)
theorem witness_StepKeepsBestSoFar : Inv (fed smallTried [.command 0x31000000]) ∧ bestSoFar (fed smallTried [.command 0x31000000]) ∧
    smallTried.mbestv = true ∧ stepsTo (fed smallTried [.command 0x31000000]) fun t => t.mbest = 1 :=
  ⟨inv_of_fields (by decide +kernel), fun _ => isWinner_of (by decide +kernel), by decide +kernel, stepsTo_of (by decide +kernel)⟩
theorem witness_OutputsAreComplete : (Inv smallOutv ∧ smallOutv.phase.interleaved = true) ∧
    (Inv smallFinal ∧ smallFinal.phase = .final) ∧ (Inv smallFault ∧ smallFault.phase = .fault) ∧ smallMdone.phase ≠ .fault :=
  ⟨⟨inv_smallOutv, by decide +kernel⟩, ⟨inv_smallFinal, by decide +kernel⟩, ⟨inv_smallFault, by decide +kernel⟩, by decide +kernel⟩

/-- Words with a must-be-zero field set: `zeroFieldIllegal` is about these. -/
theorem witness_zeroFieldIllegal : (0x02001000 : Word).extractLsb' 24 8 = 0x02 ∧ (0x02001000 : Word).extractLsb' 12 (24 - 12) ≠ 0 ∧
    (0x00800000 : Word).extractLsb' 24 8 = 0x00 ∧ (0x00800000 : Word).extractLsb' 0 (24 - 0) ≠ 0 := by decide
/-- Phases in which a command is not permitted: `onlyIn` is about these. -/
theorem witness_onlyIn : smallOutv.phase ≠ .fault ∧ smallOutv.phase ∉ [.load] ∧ smallFault.phase = .fault := by decide +kernel
theorem witness_SetInputs : State.reset.phase = .load := rfl
theorem witness_SetsSymbol : smallOutv.phase ∈ [.load, .parted, .ecdone, .outv] ∧
    (1 ≤ (40 : Byte).toNat ∧ (40 : Byte).toNat ≤ 40 ∧ (3 : Byte).toNat ≤ 3) ∧ (0 : Byte).toNat < 1 ∧ 40 < (41 : Byte).toNat ∧
    3 < (4 : Byte).toNat := by decide +kernel
theorem witness_PushAppends : full.phase = .load ∧ full.slen = 4095 ∧
    ({ full with slen := 4094 } : State).phase = .load ∧ ({ full with slen := 4094 } : State).slen ≠ 4095 := by decide
theorem witness_RdrReadsRegister : (19 : Byte).toNat ≤ 19 ∧ 19 < (20 : Byte).toNat ∧ State.reset.phase ≠ .fault ∧
    smallFault.phase = .fault := by decide +kernel
theorem witness_RddReadsData : smallOutv.phase ∈ phasesButFault ∧ smallOutv.slen.toNat ≤ (2 : Len).toNat ∧
    (1 : Len).toNat < smallOutv.slen.toNat ∧ Memory.read smallOutv.dmem (1 : Len).toNat = some 0x34 := by decide +kernel
theorem witness_RdeReadsCorrection : smallParted.phase ∈ [.parted, .ecdone, .outv, .masking, .mdone, .final] ∧
    smallParted.bidx.toNat * smallParted.eclen.toNat ≤ (0 : Len).toNat ∧
    smallEcdone.phase ∈ [.parted, .ecdone, .outv, .masking, .mdone, .final] ∧
    (0 : Len).toNat < smallEcdone.bidx.toNat * smallEcdone.eclen.toNat ∧
    Memory.read smallEcdone.emem (0 : Len).toNat = some 0x26 := by decide +kernel
theorem witness_RdoReadsOutput : smallOutv.phase ∈ [.outv, .masking, .mdone, .final] ∧ smallOutv.olen.toNat ≤ (3 : Len).toNat ∧
    (2 : Len).toNat < smallOutv.olen.toNat ∧ Memory.read smallOutv.omem (2 : Len).toNat = some 0x26 := by decide +kernel
theorem witness_ReadsComplete : Inv smallOutv ∧ smallOutv.phase ≠ .fault ∧ smallOutv.phase ≠ .load ∧
    (1 : Len).toNat < smallOutv.slen.toNat ∧ (0 : Len).toNat < smallOutv.bidx.toNat * smallOutv.eclen.toNat ∧
    smallOutv.phase.interleaved = true ∧ (2 : Len).toNat < smallOutv.total.toNat := ⟨inv_smallOutv, by decide +kernel⟩
theorem witness_FieldCommands : State.reset.phase ∈ phasesButFault := by decide
theorem witness_GflogRespondsExponent : State.reset.phase ∈ phasesButFault ∧ (0xFF : Byte) ≠ 0 := by decide
theorem witness_GfinvRespondsInverse : State.reset.phase ∈ phasesButFault ∧ (0x01 : Byte) ≠ 0 := by decide
theorem witness_FieldLaws : gfmul 0x00 0x05 = 0x00 ∧ gflog 0x02 = some 1 ∧ gflog 0x8E = some 254 := by decide +kernel
theorem witness_PowersOfAlpha : 1 ≤ 254 ∧ 254 ≤ 254 := by decide
theorem witness_EncoderIsRemainder : 1 ≤ 1 := by decide
theorem witness_ShiftRegisterAgrees : 1 ≤ 2 := by decide
theorem witness_EncoderIsLinear : 1 ≤ 1 ∧ ([0x01] : List Byte).length = ([0x80] : List Byte).length := by decide
theorem witness_RootsOfTheCode : 1 ≤ 2 ∧ 1 < 2 := by decide

/-- One state for each clause of PART. -/
theorem witness_PartComputesGeometry :
    (State.reset.phase = .load ∧ State.reset.nblk.toNat = 0) ∧
    (full.phase = .load ∧ ({ full with nblk := 1 } : State).nblk.toNat ≠ 0 ∧ ({ full with nblk := 1 } : State).slen ≠ full.data) ∧
    (v3.slen = v3.data ∧ ({ v3 with total := 5 } : State).total.toNat / v3.nblk.toNat ≤ v3.data.toNat / v3.nblk.toNat) ∧
    (vOver.data.toNat / ({ vOver with nblk := 5 } : State).nblk.toNat < vOver.total.toNat / 5 ∧ vOver.data.toNat / 5 = 0) ∧
    (v3.phase = .load ∧ v3.nblk.toNat ≠ 0 ∧ v3.data.toNat / v3.nblk.toNat < v3.total.toNat / v3.nblk.toNat ∧
      v3.data.toNat / v3.nblk.toNat ≠ 0) := by decide +kernel
theorem witness_OffsetsInClosedForm : Geometry smallParted := inv_smallParted.geometry (by decide +kernel)

/-- The last block of V3, and the block over-consumption stops at. -/
theorem witness_EcgenEncodesBlock :
    ((after [.part, .ecgen] vOver).phase = .parted ∧ (after [.part, .ecgen] vOver).bidx.toNat < vOver.nblk.toNat ∧
      (after [.part, .ecgen] vOver).slen.toNat < (after [.part, .ecgen] vOver).off.toNat + 3) ∧
    ((after [.part, .ecgen] v3).phase = .parted ∧ (after [.part, .ecgen] v3).bidx.toNat < v3.nblk.toNat ∧
      (after [.part, .ecgen] v3).off.toNat + 3 ≤ v3.slen.toNat ∧ 1 ≤ (after [.part, .ecgen] v3).eclen.toNat ∧
      1 * (after [.part, .ecgen] v3).eclen.toNat + (after [.part, .ecgen] v3).eclen.toNat ≤ 4096 ∧
      (after [.part, .ecgen] v3).dg2.toNat = 3 ∧ ∀ j : Nat, j < 3 → Memory.read v3.dmem (2 + j) = ([3, 4, 5] : List Byte)[j]?) := by
  decide +kernel
theorem witness_IlvInterleaves : Inv smallEcdone ∧ smallEcdone.phase = .ecdone := ⟨inv_smallEcdone, by decide +kernel⟩

/-- Read the result of a computation that can stop. -/
def okOf {α : Type} (x : Except Fault α) : Option α := x.toOption

theorem witness_IlvChecksCount : smallEcdone.phase = .ecdone ∧ okOf (readCells smallEcdone (emission smallEcdone)) =
      some [0x12, 0x34, 0x26] ∧
    okOf (writeSlice .omem smallEcdone.omem 0 [0x12, 0x34, 0x26]) = some [(0, 0x12), (1, 0x34), (2, 0x26)] ∧
    ([0x12, 0x34, 0x26] : List Byte).length = smallEcdone.total.toNat ∧
    ([0x12, 0x34, 0x26] : List Byte).length ≠ ({ smallEcdone with total := 4 } : State).total.toNat := by decide +kernel
theorem witness_EcrunIsTheStages : v3.phase = .load ∧ leads .ecrun v3 (fun t => t.phase ≠ .fault) ∧
    (∃ t, execAll [.part] State.reset = .next t ∧ t.phase = .fault) :=
  ⟨by decide +kernel, leads_of (by decide +kernel), _, rfl, rfl⟩
theorem witness_EcrunCompletes :
    (Inv v3 ∧ v3.phase = .load ∧ v3.nblk.toNat ≠ 0 ∧ v3.slen = v3.data ∧
      v3.data.toNat / v3.nblk.toNat < v3.total.toNat / v3.nblk.toNat ∧ v3.data.toNat / v3.nblk.toNat ≠ 0 ∧
      v3.nblk.toNat * (v3.data.toNat / v3.nblk.toNat) + v3.total.toNat % v3.nblk.toNat ≤ v3.data.toNat) ∧
    (Inv vOver ∧ vOver.slen = vOver.data ∧ vOver.data.toNat / vOver.nblk.toNat < vOver.total.toNat / vOver.nblk.toNat ∧
      vOver.data.toNat < vOver.nblk.toNat * (vOver.data.toNat / vOver.nblk.toNat) + vOver.total.toNat % vOver.nblk.toNat) :=
  ⟨⟨inv_v3, by decide +kernel⟩, inv_vOver, by decide +kernel⟩

/-- Two states with the same data stream and different levels. -/
theorem witness_StreamIsFunctionOfInputs :
    Inv v3 ∧ Inv (after [.sets 40 3] v3) ∧ v3 ≠ after [.sets 40 3] v3 ∧ v3.total = (after [.sets 40 3] v3).total ∧
    v3.dmem = (after [.sets 40 3] v3).dmem ∧ (after [.sets 40 3] v3).phase = .load ∧
    leads .ecrun v3 (fun t => t.phase = .outv) ∧ leads .ecrun (after [.sets 40 3] v3) (fun t => t.phase = .outv) :=
  ⟨inv_v3, inv_of_fields (by decide +kernel), by decide +kernel, by decide +kernel, by decide +kernel, by decide +kernel,
    leads_of (by decide +kernel), leads_of (by decide +kernel)⟩
theorem witness_MinitStartsEvaluation : smallFinal.phase ∈ [.outv, .masking, .mdone, .final] ∧ smallFinal.vset = true ∧
    ({ smallOutv with vset := false } : State).phase = .outv := by decide +kernel
theorem witness_MstepTriesOneMask :
    (smallMasking.phase = .masking ∧ smallMasking.mcur.toNat < 8 ∧ ([0x12, 0x34, 0x26] : List Byte).length = smallMasking.olen.toNat ∧
      (∀ j : Nat, j < 3 → Memory.read smallMasking.omem j = ([0x12, 0x34, 0x26] : List Byte)[j]?) ∧
      askPlace smallMasking ⟨[0x12, 0x34, 0x26], 0, 1, 0⟩ = .ok (tcMatrix 0)) ∧
    (failsAt0.phase = .masking ∧ askPlace failsAt0 ⟨[0x12, 0x34, 0x26], 0, 1, 0⟩ = .fail) := by decide +kernel
theorem witness_MrunIsTheStages : smallOutv.phase ∈ [.outv, .masking, .mdone, .final] ∧
    leads .mrun smallOutv (fun t => t.phase ≠ .fault) ∧ leads .minit { smallOutv with vset := false } (fun t => t.phase = .fault) :=
  ⟨by decide +kernel, leads_of (by decide +kernel), leads_of (by decide +kernel)⟩
theorem witness_MrunFindsWinner :
    (smallOutv.phase ∈ [.outv, .masking, .mdone, .final] ∧ smallOutv.vset = true ∧ ∀ m, placementOf smallOutv m ≠ none) ∧
    (failsAt3.phase ∈ [.outv, .masking, .mdone, .final] ∧ failsAt3.vset = true ∧
      okOf (readSlice .omem failsAt3.omem 0 failsAt3.olen.toNat) = some [0x12, 0x34, 0x26] ∧ placementOf failsAt3 3 = none ∧
      ∀ m : BitVec 3, m.toNat < (3 : BitVec 3).toNat → placementOf failsAt3 m ≠ none) := by decide +kernel
theorem witness_MplacePlacesWinner :
    (smallMdone.phase ∈ [.mdone, .final] ∧ ([0x12, 0x34, 0x26] : List Byte).length = smallMdone.olen.toNat ∧
      (∀ j : Nat, j < 3 → Memory.read smallMdone.omem j = ([0x12, 0x34, 0x26] : List Byte)[j]?) ∧
      askPlace smallMdone ⟨[0x12, 0x34, 0x26], 0, 1, smallMdone.mbest⟩ = .ok (tcMatrix 4)) ∧
    (failsLate.phase = .mdone ∧ askPlace failsLate ⟨[0x12, 0x34, 0x26], 0, 1, failsLate.mbest⟩ = .fail) := by decide +kernel

/-- Two different states with the same stream. -/
theorem witness_WinnerIsDetermined : smallOutv ≠ smallFinal ∧ smallOutv.omem = smallFinal.omem ∧ smallOutv.olen = smallFinal.olen ∧
    smallOutv.ecl = smallFinal.ecl ∧ smallOutv.ver = smallFinal.ver ∧ smallOutv.placeAnswers = smallFinal.placeAnswers ∧
    smallOutv.penAnswers = smallFinal.penAnswers ∧ smallFinal.phase ∈ [.outv, .masking, .mdone, .final] ∧
    leads .mrun smallOutv (fun t => t.phase ≠ .fault) ∧ leads .mrun smallFinal (fun t => t.phase ≠ .fault) :=
  ⟨by decide +kernel, by decide +kernel, by decide +kernel, by decide +kernel, by decide +kernel, by decide +kernel,
    by decide +kernel, by decide +kernel, leads_of (by decide +kernel), leads_of (by decide +kernel)⟩

end Sys2Proof.Tests
end

section
/-! PROOFS. 00_scope.md: the block takes the host's next word and runs the command it decodes to (R16). -/

namespace Sys2Proof.Machine

/-- A word that decodes to a command is executed (R16). -/
theorem takeWord_of_command {w : Word} {i : Instr} (hw : decode w = .command i) (s : State) : takeWord w s = exec i s := by
  simp only [takeWord, hw]

/-- A command word of the host is taken out of `input` and counted in `pc`, whatever it decodes to (R27). -/
theorem step_of_command_input {s : State} {w : Word} {rest : List HostInput} (hs : s.input = .command w :: rest) :
    step s = takeWord w { s with input := rest, pc := s.pc + 1 } := by
  simp only [step, hs]

/-- Settles O8: the step takes the word, and the word taken decodes to the command. -/
theorem stepRunsDecoded : Obligations.StepRunsDecoded := by
  intro s w rest i hs hw
  calc step s = takeWord w { s with input := rest, pc := s.pc + 1 } := step_of_command_input hs
    _ = exec i { s with input := rest, pc := s.pc + 1 } := takeWord_of_command hw _

end Sys2Proof.Machine
end

section
/-! PROOFS. 10_state.md: the invariant, the phase rules, and what each command reads and writes. -/

namespace Sys2Proof.Machine

/-! ### Reasoning about pseudocode -/

/-- What a piece of pseudocode leads to: `P` of the state it runs through to, `Q` of a cause raised and the state at the raise, and
`stops` where it stops the model. With `stops := False` it never stops; with `stops := True` nothing is said of a stop. -/
def Flow.LeadsTo (P : State → Prop) (Q : Cause → State → Prop) (stops : Prop) : Flow → Prop
  | .done s => P s
  | .raise c s => Q c s
  | .stop _ => stops

section
variable {P P' : State → Prop} {Q : Cause → State → Prop} {stops : Prop}

theorem Flow.LeadsTo.done {x : Flow} {s : State} (h : x.LeadsTo P Q stops) (hx : x = .done s) : P s := by
  subst hx
  exact h

theorem Flow.LeadsTo.raise {x : Flow} {c : Cause} {s : State} (h : x.LeadsTo P Q stops) (hx : x = .raise c s) : Q c s := by
  subst hx
  exact h

theorem Flow.LeadsTo.mono {x : Flow} (h : x.LeadsTo P' Q stops) (hP : ∀ s, P' s → P s) : x.LeadsTo P Q stops := by
  cases x with
  | done s => exact hP s h
  | raise c s => exact h
  | stop f => exact h

theorem Flow.LeadsTo.andThen {x : Flow} {f : State → Flow} (hx : x.LeadsTo P' Q stops)
    (hf : ∀ s, P' s → (f s).LeadsTo P Q stops) : (x.andThen f).LeadsTo P Q stops := by
  cases x with
  | done s => exact hf s hx
  | raise c s => exact hx
  | stop e => exact hx

/-- Pseudocode run `n` times: each run takes the property numbered `k` to the one numbered `k + 1`. -/
theorem leadsTo_repeatFlow {R : Nat → State → Prop} {body : State → Flow} (n : Nat)
    (hbody : ∀ k s, k < n → R k s → (body s).LeadsTo (R (k + 1)) Q stops) {s : State} (hs : R 0 s) :
    (repeatFlow body n s).LeadsTo (R n) Q stops := by
  induction n generalizing R s with
  | zero => exact hs
  | succ n ih =>
    exact (hbody 0 s (by omega) hs).andThen fun u hu =>
      ih (R := fun k => R (k + 1)) (fun k v hk => hbody (k + 1) v (by omega)) hu

end

/-! ### A command is the order of checks around its pseudocode -/

/-- The pseudocode of each command, without the checks of R16 around it (`exec_eq_runCommand`). -/
def pseudocode : Instr → State → Flow
  | .nop => .done
  | .clr => fun s => .done (clearBlock s)
  | .sett n => fun s => .done { s with total := n }
  | .setd n => fun s => .done { s with data := n }
  | .setb n => fun s => .done { s with nblk := n }
  | .sets version level => fun s =>
    if symbolLegal version level then .done { s with ver := version, ecl := level, vset := true } else .raise .operand s
  | .push v => opPush v
  | .rdr n => opRdr n
  | .rdd a => fun s => opReadBuffer .dmem s.slen.toNat a s
  | .rde a => fun s => opReadBuffer .emem (s.bidx.toNat * s.eclen.toNat) a s
  | .rdo a => fun s => opReadBuffer .omem s.olen.toNat a s
  | .gfadd a b => fun s => .done (respond ((gfadd a b).setWidth 32) s)
  | .gfmul a b => fun s => .done (respond ((gfmul a b).setWidth 32) s)
  | .gfexp e => fun s => .done (respond ((gfexp e.toNat).setWidth 32) s)
  | .gflog v => opFieldPartial (gflog v)
  | .gfinv v => opFieldPartial (gfinv v)
  | .part => opPart
  | .ecgen => opEcgen
  | .ilv => opIlv
  | .ecrun => opEcrun
  | .minit => opMinit
  | .mstep => opMstep
  | .mrun => opMrun
  | .mplace => opMplace

theorem exec_eq_runCommand (i : Instr) (s : State) : exec i s = runCommand i (pseudocode i) s := by
  cases i <;> rfl

/-- Everything a command can do that answers next (R16). -/
theorem exec_cases {i : Instr} {s t : State} (h : exec i s = .next t) :
    (s.phase = .fault ∧ servedInFault i = false ∧ t = s) ∨
    (s.phase ≠ .fault ∧ permitted i.mnemonic s.phase = false ∧ t = takeFault .sequence (encode i) s) ∨
    ((s.phase = .fault → servedInFault i = true) ∧ (s.phase ≠ .fault → permitted i.mnemonic s.phase = true) ∧
      (pseudocode i s = .done t ∨ ∃ c u, pseudocode i s = .raise c u ∧ t = takeFault c (encode i) u)) :=
  runCommand_cases (exec_eq_runCommand i s ▸ h)

/-- A permitted command outside phase FAULT is its pseudocode. -/
theorem exec_permitted {i : Instr} {s : State} (hp : s.phase ≠ .fault) (hm : permitted i.mnemonic s.phase = true) :
    exec i s = finish (encode i) (pseudocode i s) := by
  rw [exec_eq_runCommand, runCommand_permitted hp hm]

/-- A command served in phase FAULT is its pseudocode there. -/
theorem exec_served {i : Instr} {s : State} (hp : s.phase = .fault) (hs : servedInFault i = true) :
    exec i s = finish (encode i) (pseudocode i s) := by
  rw [exec_eq_runCommand, runCommand, if_pos hp, if_pos hs]

theorem exec_dropped {i : Instr} {s : State} (hp : s.phase = .fault) (hs : servedInFault i = false) : exec i s = .next s := by
  rw [exec_eq_runCommand, runCommand_dropped hp hs]

theorem exec_refused {i : Instr} {s : State} (hp : s.phase ≠ .fault) (hm : permitted i.mnemonic s.phase = false) :
    exec i s = .next (takeFault .sequence (encode i) s) := by
  rw [exec_eq_runCommand, runCommand_refused hp hm]

/-- Everything SETS's pseudocode can do (R105). -/
theorem pseudocode_sets_cases (version level : Byte) (s : State) :
    (symbolLegal version level = true ∧
      pseudocode (.sets version level) s = .done { s with ver := version, ecl := level, vset := true }) ∨
    (symbolLegal version level = false ∧ pseudocode (.sets version level) s = .raise .operand s) := by
  cases hl : symbolLegal version level with
  | true => exact .inl ⟨rfl, by simp [pseudocode, hl]⟩
  | false => exact .inr ⟨rfl, by simp [pseudocode, hl]⟩

theorem servedInFault_iff (i : Instr) :
    servedInFault i = true ↔ i = .nop ∨ i = .clr ∨ ∃ n, i = .rdr n ∧ (registerOfNumber n).isSome := by
  cases i <;> simp [servedInFault]

/-! ### The invariant phase by phase -/

/-- The part of `Inv` that speaks of no phase and no fault record, and so survives a fault. -/
structure PhaseFree (s : State) : Prop where
  dmem_filled : holdsExactly s.dmem s.slen.toNat
  emem_filled : holdsExactly s.emem (s.bidx.toNat * s.eclen.toNat)
  emem_fits : s.bidx.toNat * s.eclen.toNat ≤ 4095
  omem_filled : holdsExactly s.omem s.olen.toNat
  symbol_set : s.vset = true → symbolLegal s.ver s.ecl = true
  symbol_unset : s.vset = false → s.ver = 0 ∧ s.ecl = 0
  matrix_held : s.mlastv = true → s.mbuf ≠ none ∧ s.mbuf = placementOf s s.mlast
  matrix_none : s.mlastv = false → s.mbuf = none

/-- The record of a run without a fault (R23). -/
structure NoFault (s : State) : Prop where
  fcause_eq : s.fcause = .none
  fcmd_eq : s.fcmd = 0

/-- The geometry, loop and output registers before PART (R32 to R34, R45). -/
structure Unpartitioned (s : State) : Prop where
  g1_eq : s.g1 = 0
  g2_eq : s.g2 = 0
  dg1_eq : s.dg1 = 0
  dg2_eq : s.dg2 = 0
  eclen_eq : s.eclen = 0
  bidx_eq : s.bidx = 0
  off_eq : s.off = 0
  olen_eq : s.olen = 0

/-- What PART establishes and ECGEN keeps (R32, R33). -/
structure Partitioned (s : State) : Prop where
  geometry : Geometry s
  off_eq : s.off.toNat = boff s s.bidx.toNat
  off_le : s.off.toNat ≤ s.slen.toNat

/-- What holds from ILV on (R34). -/
structure Interleaved (s : State) : Prop where
  partitioned : Partitioned s
  bidx_eq : s.bidx = s.nblk
  olen_eq : s.olen = s.total

/-- What `Inv` says of the state in its phase. -/
def PhaseFacts (s : State) : Prop :=
  match s.phase with
  | .load => NoFault s ∧ Unpartitioned s ∧ NoEvaluation s
  | .parted => NoFault s ∧ Partitioned s ∧ s.bidx.toNat < s.nblk.toNat ∧ s.olen = 0 ∧ NoEvaluation s
  | .ecdone => NoFault s ∧ Partitioned s ∧ s.bidx = s.nblk ∧ s.olen = 0 ∧ NoEvaluation s
  | .outv => NoFault s ∧ Interleaved s ∧ NoEvaluation s
  | .masking => NoFault s ∧ Interleaved s ∧ s.vset = true ∧
      s.mcur.toNat < 8 ∧ s.mfinal = false ∧ (s.mbestv = true ↔ s.mcur ≠ 0) ∧ (s.mcur ≠ 0 → s.mlastv = true)
  | .mdone => NoFault s ∧ Interleaved s ∧ s.vset = true ∧
      s.mcur = 8 ∧ s.mfinal = false ∧ s.mbestv = true ∧ s.mlastv = true ∧ s.mlast = 7
  | .final => NoFault s ∧ Interleaved s ∧ s.vset = true ∧
      s.mcur = 8 ∧ s.mfinal = true ∧ s.mbestv = true ∧ s.mlastv = true ∧ s.mlast = s.mbest
  | .fault => s.fcause ≠ .none ∧ s.fcause ≠ .internal

theorem Inv.phaseFree {s : State} (h : Inv s) : PhaseFree s :=
  ⟨h.dmem_filled, h.emem_filled, h.emem_fits, h.omem_filled, h.symbol_set, h.symbol_unset, h.matrix_held, h.matrix_none⟩

theorem Inv.noFault {s : State} (h : Inv s) (hp : s.phase ≠ .fault) : NoFault s := by
  have hc : s.fcause = .none := by
    by_contra hc
    exact hp (h.fault_iff.mpr hc)
  exact ⟨hc, h.fcmd_zero hc⟩

theorem Inv.partitioned {s : State} (h : Inv s) (hp : s.phase.partitioned = true) : Partitioned s :=
  ⟨h.geometry hp, (h.offset hp).1, (h.offset hp).2⟩

theorem Phase.partitioned_of_interleaved {p : Phase} (h : p.interleaved = true) : p.partitioned = true := by
  simp [Phase.partitioned, h]

theorem Inv.interleaved {s : State} (h : Inv s) (hp : s.phase.interleaved = true) : Interleaved s :=
  ⟨h.partitioned (Phase.partitioned_of_interleaved hp), h.encoded (.inr hp), h.olen_total hp⟩

theorem Inv.unpartitioned {s : State} (h : Inv s) (hp : s.phase = .load) : Unpartitioned s := by
  obtain ⟨h1, h2, h3, h4, h5, h6, h7⟩ := h.load_zero hp
  exact ⟨h1, h2, h3, h4, h5, h6, h7, h.olen_zero (.inl hp)⟩

theorem Inv.phaseFacts {s : State} (h : Inv s) : PhaseFacts s := by
  unfold PhaseFacts
  split
  case h_1 hp => exact ⟨h.noFault (by simp [hp]), h.unpartitioned hp, h.unevaluated (by simp [hp])⟩
  case h_2 hp =>
    exact ⟨h.noFault (by simp [hp]), h.partitioned (by simp [hp, Phase.partitioned]), h.parted_open hp,
      h.olen_zero (by simp [hp]), h.unevaluated (by simp [hp])⟩
  case h_3 hp =>
    exact ⟨h.noFault (by simp [hp]), h.partitioned (by simp [hp, Phase.partitioned]), h.encoded (by simp [hp]),
      h.olen_zero (by simp [hp]), h.unevaluated (by simp [hp])⟩
  case h_4 hp =>
    exact ⟨h.noFault (by simp [hp]), h.interleaved (by simp [hp, Phase.interleaved]), h.unevaluated (by simp [hp])⟩
  case h_5 hp =>
    exact ⟨h.noFault (by simp [hp]), h.interleaved (by simp [hp, Phase.interleaved]), h.evaluator_given (by simp [hp]), h.masking hp⟩
  case h_6 hp =>
    exact ⟨h.noFault (by simp [hp]), h.interleaved (by simp [hp, Phase.interleaved]), h.evaluator_given (by simp [hp]), h.mdone hp⟩
  case h_7 hp =>
    exact ⟨h.noFault (by simp [hp]), h.interleaved (by simp [hp, Phase.interleaved]), h.evaluator_given (by simp [hp]), h.final hp⟩
  case h_8 hp => exact ⟨h.fault_iff.mp hp, h.not_internal⟩

/-- What `PhaseFacts` says in every phase but FAULT. -/
theorem PhaseFacts.noFault {s : State} (h : PhaseFacts s) (hp : s.phase ≠ .fault) : NoFault s := by
  unfold PhaseFacts at h
  split at h
  case h_8 hf => exact absurd hf hp
  all_goals exact h.1

theorem PhaseFacts.interleaved {s : State} (h : PhaseFacts s) (hp : s.phase.interleaved = true) : Interleaved s := by
  unfold PhaseFacts at h
  split at h
  case h_4 | h_5 | h_6 | h_7 => exact h.2.1
  all_goals simp_all [Phase.interleaved]

theorem PhaseFacts.partitioned {s : State} (h : PhaseFacts s) (hp : s.phase.partitioned = true) : Partitioned s := by
  by_cases hi : s.phase.interleaved = true
  · exact (h.interleaved hi).partitioned
  · unfold PhaseFacts at h
    split at h
    case h_2 | h_3 => exact h.2.1
    all_goals simp_all [Phase.partitioned, Phase.interleaved]

/-- The invariant, phase by phase. -/
theorem inv_iff (s : State) : Inv s ↔ PhaseFree s ∧ PhaseFacts s := by
  refine ⟨fun h => ⟨h.phaseFree, h.phaseFacts⟩, fun ⟨hf, h⟩ => ?_⟩
  have hno : s.phase ≠ .fault → s.fcause = .none := fun hp => (h.noFault hp).fcause_eq
  have hfault : s.phase = .fault → s.fcause ≠ .none ∧ s.fcause ≠ .internal := fun hp => by
    simpa only [PhaseFacts, hp] using h
  exact {
    dmem_filled := hf.dmem_filled
    emem_filled := hf.emem_filled
    emem_fits := hf.emem_fits
    omem_filled := hf.omem_filled
    symbol_set := hf.symbol_set
    symbol_unset := hf.symbol_unset
    matrix_held := hf.matrix_held
    matrix_none := hf.matrix_none
    fault_iff := ⟨fun hp => (hfault hp).1, fun hc => by_contra fun hp => hc (hno hp)⟩
    fcmd_zero := fun hc => (h.noFault fun hp => (hfault hp).1 hc).fcmd_eq
    not_internal := fun hc => by
      by_cases hp : s.phase = .fault
      · exact (hfault hp).2 hc
      · simp [hno hp] at hc
    load_zero := fun hp => by
      simp only [PhaseFacts, hp] at h
      obtain ⟨-, ⟨h1, h2, h3, h4, h5, h6, h7, -⟩, -⟩ := h
      exact ⟨h1, h2, h3, h4, h5, h6, h7⟩
    geometry := fun hp => (h.partitioned hp).geometry
    offset := fun hp => ⟨(h.partitioned hp).off_eq, (h.partitioned hp).off_le⟩
    parted_open := fun hp => by
      simp only [PhaseFacts, hp] at h
      obtain ⟨-, -, hopen, -⟩ := h
      exact hopen
    encoded := by
      rintro (hp | hp)
      · simp only [PhaseFacts, hp] at h
        obtain ⟨-, -, hbidx, -⟩ := h
        exact hbidx
      · exact (h.interleaved hp).bidx_eq
    olen_zero := by
      rintro (hp | hp | hp) <;> simp only [PhaseFacts, hp] at h
      · obtain ⟨-, hun, -⟩ := h
        exact hun.olen_eq
      · obtain ⟨-, -, -, holen, -⟩ := h
        exact holen
      · obtain ⟨-, -, -, holen, -⟩ := h
        exact holen
    olen_total := fun hp => (h.interleaved hp).olen_eq
    unevaluated := by
      rintro (hp | hp | hp | hp) <;> simp only [PhaseFacts, hp] at h
      · obtain ⟨-, -, hev⟩ := h
        exact hev
      · obtain ⟨-, -, -, -, hev⟩ := h
        exact hev
      · obtain ⟨-, -, -, -, hev⟩ := h
        exact hev
      · obtain ⟨-, -, hev⟩ := h
        exact hev
    evaluator_given := by
      rintro (hp | hp | hp) <;> simp only [PhaseFacts, hp] at h <;> obtain ⟨-, -, hvset, -⟩ := h <;> exact hvset
    masking := fun hp => by
      simp only [PhaseFacts, hp] at h
      obtain ⟨-, -, -, hfacts⟩ := h
      exact hfacts
    mdone := fun hp => by
      simp only [PhaseFacts, hp] at h
      obtain ⟨-, -, -, hfacts⟩ := h
      exact hfacts
    final := fun hp => by
      simp only [PhaseFacts, hp] at h
      obtain ⟨-, -, -, hfacts⟩ := h
      exact hfacts }

/-! ### Changes the invariant does not see -/

/-- The registers PART and ECGEN write, as they were: the facts on them stay (the equations close by `rfl` on an updated record). -/
theorem Partitioned.congr {s t : State} (h : Partitioned s) (hg : Geometry t) (h1 : t.g1 = s.g1 := by rfl)
    (h2 : t.dg1 = s.dg1 := by rfl) (h3 : t.dg2 = s.dg2 := by rfl) (hb : t.bidx = s.bidx := by rfl)
    (ho : t.off = s.off := by rfl) (hl : t.slen = s.slen := by rfl) : Partitioned t where
  geometry := hg
  off_eq := by rw [ho, hb, boff_congr h1 h2 h3, h.off_eq]
  off_le := by rw [ho, hl]; exact h.off_le

/-- The invariant says nothing of the host's streams. -/
theorem Inv.with_streams {s : State} (h : Inv s) (inputs : List HostInput) (n : Nat) (words : List Word) :
    Inv { s with input := inputs, pc := n, rsp := words } :=
  have hpart (hp : s.phase.partitioned = true) : Partitioned { s with input := inputs, pc := n, rsp := words } :=
    (h.partitioned hp).congr { h.geometry hp with }
  { h with
    geometry := fun hp => (hpart hp).geometry
    offset := fun hp => ⟨(hpart hp).off_eq, (hpart hp).off_le⟩
    unevaluated := fun hp => { h.unevaluated hp with } }

theorem Inv.respond {s : State} (h : Inv s) (v : Word) : Inv (respond v s) := h.with_streams s.input s.pc (s.rsp ++ [v])

/-- What the state must meet where a fault is raised, and what the cause must be (R193, R158). -/
def Recordable (c : Cause) (s : State) : Prop := c ≠ .none ∧ c ≠ .internal ∧ PhaseFree s

theorem Recordable.inv_takeFault {c : Cause} {s : State} (h : Recordable c s) (w : Word) : Inv (takeFault c w s) := by
  obtain ⟨hnone, hinternal, hf⟩ := h
  exact (inv_iff _).mpr ⟨{ hf with }, hnone, hinternal⟩

theorem Inv.recordable {s : State} (h : Inv s) {c : Cause} (hnone : c ≠ .none) (hinternal : c ≠ .internal) : Recordable c s :=
  ⟨hnone, hinternal, h.phaseFree⟩

/-- CLR and the reset input lead to a state that meets the invariant, whatever came before (R45). -/
theorem inv_clearBlock (s : State) : Inv (clearBlock s) := by
  refine (inv_iff _).mpr ⟨?_, ⟨rfl, rfl⟩, ⟨rfl, rfl, rfl, rfl, rfl, rfl, rfl, rfl⟩, ⟨rfl, rfl, rfl, rfl, rfl, rfl, rfl⟩⟩
  exact ⟨rfl, rfl, Nat.zero_le _, rfl, by simp, fun _ => ⟨rfl, rfl⟩, by simp, fun _ => rfl⟩

/-! ### Transfer commands keep the invariant -/

/-- Before PART, TOTAL, DATA and NBLK are free. -/
theorem Inv.with_inputs {s : State} (h : Inv s) (hp : s.phase = .load) (t d n : Len) :
    Inv { s with total := t, data := d, nblk := n } := by
  obtain ⟨hf, hfacts⟩ := (inv_iff s).mp h
  simp only [PhaseFacts, hp] at hfacts
  obtain ⟨hno, hun, hev⟩ := hfacts
  refine (inv_iff _).mpr ⟨{ hf with }, ?_⟩
  simp only [PhaseFacts, hp]
  exact ⟨{ hno with }, { hun with }, { hev with }⟩

theorem opPush_keepsInv {s : State} (h : Inv s) (hp : s.phase = .load) (v : Byte) : (opPush v s).LeadsTo Inv Recordable False := by
  rcases opPush_cases v s with ⟨-, hr⟩ | ⟨hlt, hd⟩
  · rw [hr]
    exact h.recordable (by decide) (by decide)
  · rw [hd]
    obtain ⟨hf, hfacts⟩ := (inv_iff s).mp h
    simp only [PhaseFacts, hp] at hfacts
    obtain ⟨hno, hun, hev⟩ := hfacts
    have hslen : (s.slen + 1).toNat = s.slen.toNat + 1 := by bv_omega
    refine (inv_iff _).mpr ⟨{ hf with dmem_filled := ?_ }, ?_⟩
    · simpa only [hslen] using hf.dmem_filled.write v
    · simp only [PhaseFacts, hp]
      exact ⟨{ hno with }, { hun with }, { hev with }⟩

/-- Before an evaluation SETS with legal operands is free (R105). -/
theorem Inv.with_symbol {s : State} (h : Inv s) (hp : permitted .sets s.phase = true) {version level : Byte}
    (hl : symbolLegal version level = true) : Inv { s with ver := version, ecl := level, vset := true } := by
  have hearly : s.phase = .load ∨ s.phase = .parted ∨ s.phase = .ecdone ∨ s.phase = .outv := by
    simpa [permitted, or_assoc] using hp
  have hev := h.unevaluated hearly
  have hpart (hp : s.phase.partitioned = true) : Partitioned { s with ver := version, ecl := level, vset := true } :=
    (h.partitioned hp).congr { h.geometry hp with }
  exact { h with
    symbol_set := fun _ => hl
    symbol_unset := by simp
    geometry := fun hp => (hpart hp).geometry
    offset := fun hp => ⟨(hpart hp).off_eq, (hpart hp).off_le⟩
    unevaluated := fun _ => { hev with }
    evaluator_given := by simp
    matrix_held := by simp [hev.mlastv_eq] }

/-- A read below the valid length of a filled buffer responds the value of its cell (R66, R107). -/
theorem opReadBuffer_of_filled {b : Buffer} {s : State} {n : Nat} {a : Len} (h : holdsExactly (bufferOf s b) n) (ha : a.toNat < n) :
    ∃ v, Memory.read (bufferOf s b) a.toNat = some v ∧ opReadBuffer b n a s = .done (respond (v.setWidth 32) s) := by
  obtain ⟨v, hv⟩ := h.exists_read ha
  refine ⟨v, hv, ?_⟩
  rcases opReadBuffer_cases b n a s with ⟨hle, -⟩ | ⟨-, ⟨w, hw, hd⟩ | ⟨hn, -⟩⟩
  · omega
  · rw [hd, Option.some.inj (hv.symm.trans hw)]
  · simp [hv] at hn

theorem opReadBuffer_keepsInv {s : State} (h : Inv s) {b : Buffer} {n : Nat} (hf : holdsExactly (bufferOf s b) n) (a : Len) :
    (opReadBuffer b n a s).LeadsTo Inv Recordable False := by
  rcases Nat.lt_or_ge a.toNat n with ha | ha
  · obtain ⟨v, -, hd⟩ := opReadBuffer_of_filled hf ha
    rw [hd]
    exact h.respond _
  · have hr : opReadBuffer b n a s = .raise .range s := if_pos ha
    rw [hr]
    exact h.recordable (by decide) (by decide)

theorem opRdr_keepsInv {s : State} (h : Inv s) (n : Byte) : (opRdr n s).LeadsTo Inv Recordable False := by
  rcases opRdr_cases n s with ⟨r, -, hd⟩ | ⟨-, hr⟩
  · rw [hd]
    exact h.respond _
  · rw [hr]
    exact h.recordable (by decide) (by decide)

theorem opFieldPartial_keepsInv {s : State} (h : Inv s) (x : Option Byte) : (opFieldPartial x s).LeadsTo Inv Recordable False := by
  rcases opFieldPartial_cases x s with ⟨v, -, hd⟩ | ⟨-, hr⟩
  · rw [hd]
    exact h.respond _
  · rw [hr]
    exact h.recordable (by decide) (by decide)

/-! ### The interleaver keeps the invariant -/

/-- The state PART leads to where its tests pass (R154). -/
def parted (s : State) : State :=
  { s with
    g1 := BitVec.ofNat 12 (s.nblk.toNat - s.total.toNat % s.nblk.toNat)
    g2 := BitVec.ofNat 12 (s.total.toNat % s.nblk.toNat)
    dg1 := BitVec.ofNat 12 (s.data.toNat / s.nblk.toNat)
    dg2 := BitVec.ofNat 12 (s.data.toNat / s.nblk.toNat + 1)
    eclen := BitVec.ofNat 12 (s.total.toNat / s.nblk.toNat - s.data.toNat / s.nblk.toNat)
    bidx := 0, off := 0, phase := .parted }

theorem toNat_ofNat_len {n : Nat} (h : n < 4096) : (BitVec.ofNat 12 n).toNat = n := by
  rw [BitVec.toNat_ofNat, Nat.mod_eq_of_lt h]

/-- The values PART stores fit their registers and are a geometry (R154). -/
theorem geometry_parted {s : State} (hn : s.nblk.toNat ≠ 0) (hl : s.slen = s.data)
    (hlt : s.data.toNat / s.nblk.toNat < s.total.toNat / s.nblk.toNat) (hd : s.data.toNat / s.nblk.toNat ≠ 0) :
    Geometry (parted s) := by
  have hnblk := s.nblk.isLt
  have htotal := s.total.isLt
  have hmod := Nat.mod_lt s.total.toNat (Nat.pos_of_ne_zero hn)
  have hdiv := Nat.div_le_self s.total.toNat s.nblk.toNat
  have h2 : (parted s).g2.toNat = s.total.toNat % s.nblk.toNat := toNat_ofNat_len (by omega)
  have h1 : (parted s).g1.toNat = s.nblk.toNat - s.total.toNat % s.nblk.toNat := toNat_ofNat_len (by omega)
  have hd1 : (parted s).dg1.toNat = s.data.toNat / s.nblk.toNat := toNat_ofNat_len (by omega)
  have hd2 : (parted s).dg2.toNat = s.data.toNat / s.nblk.toNat + 1 := toNat_ofNat_len (by omega)
  have he : (parted s).eclen.toNat = s.total.toNat / s.nblk.toNat - s.data.toNat / s.nblk.toNat := toNat_ofNat_len (by omega)
  exact {
    nblk_pos := Nat.pos_of_ne_zero hn
    slen_eq := hl
    g2_eq := h2
    g1_eq := by rw [h1, h2]; rfl
    dg1_eq := hd1
    dg2_eq := by rw [hd2, hd1]
    eclen_eq := by rw [hd1, he, Nat.add_sub_cancel' hlt.le]; rfl
    dg1_pos := by omega
    eclen_pos := by omega }

theorem opPart_keepsInv {s : State} (h : Inv s) (hp : s.phase = .load) :
    (opPart s).LeadsTo (fun t => Inv t ∧ t.phase = .parted ∧ t.bidx = 0 ∧ t.nblk = s.nblk) Recordable False := by
  rcases opPart_cases s with ⟨c, hc, hr⟩ | ⟨hn, hl, hlt, hd, hdone⟩
  · rw [hr]
    rcases hc with rfl | rfl <;> exact h.recordable (by decide) (by decide)
  · rw [hdone]
    refine ⟨?_, rfl, rfl, rfl⟩
    obtain ⟨hf, hfacts⟩ := (inv_iff s).mp h
    simp only [PhaseFacts, hp] at hfacts
    obtain ⟨hno, hun, hev⟩ := hfacts
    have hemem : holdsExactly s.emem 0 := by simpa [hun.bidx_eq] using hf.emem_filled
    refine (inv_iff (parted s)).mpr ⟨{ hf with emem_filled := ?_, emem_fits := ?_ }, ?_⟩
    · simpa [parted] using hemem
    · simp [parted]
    · exact ⟨{ hno with }, ⟨geometry_parted hn hl hlt hd, rfl, Nat.zero_le _⟩, Nat.pos_of_ne_zero hn, hun.olen_eq, { hev with }⟩

/-- The state ECGEN leads to when EMEM becomes `m` (R155). -/
def blockEncoded (m : Memory) (s : State) : State :=
  { s with
    emem := m, off := BitVec.ofNat 12 (s.off.toNat + dlen s s.bidx.toNat), bidx := BitVec.ofNat 12 (s.bidx.toNat + 1)
    phase := if s.bidx.toNat + 1 = s.nblk.toNat then .ecdone else s.phase }

/-- ECGEN within its domain encodes the block (R155). -/
theorem opEcgen_done {s : State} {d : List Byte} {m : Memory} (hb : s.bidx.toNat < s.nblk.toNat)
    (hr : s.off.toNat + dlen s s.bidx.toNat ≤ s.slen.toNat) (he : 1 ≤ s.eclen.toNat)
    (hd : readSlice .dmem s.dmem s.off.toNat (dlen s s.bidx.toNat) = .ok d)
    (hm : writeSlice .emem s.emem (s.bidx.toNat * s.eclen.toNat) (rsencode d s.eclen.toNat) = .ok m) :
    opEcgen s = .done (blockEncoded m s) := by
  simp only [opEcgen, blockEncoded, hd, hm, Nat.not_le.mpr hb, Nat.not_lt.mpr hr, Nat.ne_of_gt he, if_false, withValue_ok]

theorem blockEncoded_bidx (m : Memory) {s : State} (hb : s.bidx.toNat < s.nblk.toNat) :
    (blockEncoded m s).bidx.toNat = s.bidx.toNat + 1 := by
  have hnblk := s.nblk.isLt
  exact toNat_ofNat_len (by omega)

/-- ECGEN keeps `OFF = boff(BIDX)` (R33, R155). -/
theorem partitioned_blockEncoded {s : State} (h : Partitioned s) (m : Memory) (hb : s.bidx.toNat < s.nblk.toNat)
    (hr : s.off.toNat + dlen s s.bidx.toNat ≤ s.slen.toNat) : Partitioned (blockEncoded m s) := by
  have hslen := s.slen.isLt
  have hoff : (blockEncoded m s).off.toNat = s.off.toNat + dlen s s.bidx.toNat := toNat_ofNat_len (by omega)
  refine ⟨{ h.geometry with }, ?_, hoff.trans_le hr⟩
  calc (blockEncoded m s).off.toNat = boff s s.bidx.toNat + dlen s s.bidx.toNat := by rw [hoff, h.off_eq]
    _ = boff s (s.bidx.toNat + 1) := (boff_succ s _).symm
    _ = boff (blockEncoded m s) (s.bidx.toNat + 1) := (boff_congr (s := s) (t := blockEncoded m s) rfl rfl rfl _).symm
    _ = boff (blockEncoded m s) (blockEncoded m s).bidx.toNat := by rw [blockEncoded_bidx m hb]

theorem opEcgen_range {s : State} (hb : s.bidx.toNat < s.nblk.toNat) (hr : s.slen.toNat < s.off.toNat + dlen s s.bidx.toNat) :
    opEcgen s = .raise .range s := by
  simp only [opEcgen, Nat.not_le.mpr hb, hr, if_false, if_true]

/-- The blocks' error correction fits EMEM and OMEM (R38). -/
theorem Geometry.ec_end_le {s : State} (g : Geometry s) {b : Nat} (hb : b ≤ s.nblk.toNat) : b * s.eclen.toNat ≤ 4095 :=
  calc b * s.eclen.toNat ≤ s.nblk.toNat * s.eclen.toNat := Nat.mul_le_mul_right _ hb
    _ ≤ s.total.toNat := g.ec_le_total
    _ ≤ 4095 := Nat.le_of_lt_succ s.total.isLt

theorem opEcgen_keepsInv {s : State} (h : Inv s) (hp : s.phase = .parted) :
    (opEcgen s).LeadsTo
      (fun t => Inv t ∧ t.bidx.toNat = s.bidx.toNat + 1 ∧ t.nblk = s.nblk ∧
        t.phase = if s.bidx.toNat + 1 = s.nblk.toNat then .ecdone else .parted)
      Recordable False := by
  obtain ⟨hf, hfacts⟩ := (inv_iff s).mp h
  simp only [PhaseFacts, hp] at hfacts
  obtain ⟨hno, hpart, hb, holen, hev⟩ := hfacts
  rcases Nat.lt_or_ge s.slen.toNat (s.off.toNat + dlen s s.bidx.toNat) with hr | hr
  · rw [opEcgen_range hb hr]
    exact h.recordable (by decide) (by decide)
  have hend : (s.bidx.toNat + 1) * s.eclen.toNat ≤ 4095 := hpart.geometry.ec_end_le hb
  have hnext : (s.bidx.toNat + 1) * s.eclen.toNat = s.bidx.toNat * s.eclen.toNat + s.eclen.toNat := Nat.succ_mul _ _
  obtain ⟨d, hd⟩ := readSlice_of_filled .dmem hf.dmem_filled hr s.slen.isLt.le
  obtain ⟨m, hm, -, -⟩ := writeSlice_ok .emem s.emem (s.bidx.toNat * s.eclen.toNat) (rsencode d s.eclen.toNat)
    (.inr (by rw [rsencode_length, Config.cells]; omega))
  rw [opEcgen_done hb hr hpart.geometry.eclen_pos hd hm]
  have hfilled : holdsExactly m ((s.bidx.toNat + 1) * s.eclen.toNat) := by
    rw [hnext]
    simpa only [rsencode_length] using writeSlice_holdsExactly hf.emem_filled hm
  have hbidx := blockEncoded_bidx m hb
  have hpart' := partitioned_blockEncoded hpart m hb hr
  have hphase : (blockEncoded m s).phase = if s.bidx.toNat + 1 = s.nblk.toNat then .ecdone else .parted := by
    rw [← hp]
    rfl
  refine ⟨(inv_iff _).mpr ⟨{ hf with emem_filled := ?_, emem_fits := ?_ }, ?_⟩, hbidx, rfl, hphase⟩
  · rw [hbidx]
    exact hfilled
  · rw [hbidx]
    exact hend
  by_cases hlast : s.bidx.toNat + 1 = s.nblk.toNat
  · simp only [PhaseFacts, hphase, if_pos hlast]
    exact ⟨{ hno with }, hpart', BitVec.eq_of_toNat_eq (hbidx.trans hlast), holen, { hev with }⟩
  · simp only [PhaseFacts, hphase, if_neg hlast]
    refine ⟨{ hno with }, hpart', ?_, holen, { hev with }⟩
    rw [hbidx]
    exact Nat.lt_of_le_of_ne hb hlast

/-! ### ILV emits exactly TOTAL bytes (R158) -/

/-- The offsets in closed form (R152). -/
theorem boff_eq (s : State) (b : Nat) :
    boff s b = if b ≤ s.g1.toNat then b * s.dg1.toNat else s.g1.toNat * s.dg1.toNat + (b - s.g1.toNat) * s.dg2.toNat := by
  induction b with
  | zero => simp [boff]
  | succ b ih =>
    rw [boff_succ, ih, dlen]
    rcases Nat.lt_trichotomy b s.g1.toNat with hb | rfl | hb
    · simp [hb, hb.le, Nat.succ_le_of_lt hb, Nat.succ_mul]
    · simp
    · have hsub : b + 1 - s.g1.toNat = b - s.g1.toNat + 1 := by omega
      simp [Nat.not_lt.mpr hb.le, Nat.not_le.mpr hb, Nat.not_le.mpr (Nat.lt_succ_of_lt hb), hsub, Nat.succ_mul, Nat.add_assoc]

theorem Geometry.g1_add_g2 {s : State} (g : Geometry s) : s.g1.toNat + s.g2.toNat = s.nblk.toNat := by
  have hlt := Nat.mod_lt s.total.toNat g.nblk_pos
  rw [g.g1_eq, g.g2_eq]
  omega

/-- All blocks' data and error correction make up TOTAL (R158). -/
theorem Geometry.boff_add_ec {s : State} (g : Geometry s) :
    boff s s.nblk.toNat + s.nblk.toNat * s.eclen.toNat = s.total.toNat := by
  have hboff : boff s s.nblk.toNat = s.g1.toNat * s.dg1.toNat + s.g2.toNat * s.dg2.toNat := by
    rw [boff_eq, ← g.g1_add_g2]
    split
    · rename_i hle
      simp [show s.g2.toNat = 0 by omega]
    · rw [Nat.add_sub_cancel_left]
  have hlengths := group_lengths s.nblk.toNat s.total.toNat (Nat.ne_of_gt g.nblk_pos)
  rw [← g.eclen_eq, ← g.g2_eq, ← g.g1_eq] at hlengths
  rw [hboff, g.dg2_eq, ← g.g1_add_g2, ← hlengths]
  ring

/-- No block is longer than the first loop of ILV runs (R156). -/
theorem Geometry.dlen_le_maxDlen {s : State} (g : Geometry s) {b : Nat} (hb : b < s.nblk.toNat) : dlen s b ≤ maxDlen s := by
  have hsum := g.g1_add_g2
  have hdg2 := g.dg2_eq
  unfold dlen maxDlen
  split <;> split <;> omega

/-- The first loop of ILV, counted by block instead of by position: each data byte of each block once. -/
theorem dataRows_length {s : State} {n : Nat} (h : ∀ b, b < s.nblk.toNat → dlen s b ≤ n) :
    ((List.range n).flatMap (dataRow s)).length = boff s s.nblk.toNat := by
  have hrow (i : Nat) : (dataRow s i).length = ∑ b ∈ Finset.range s.nblk.toNat, if i < dlen s b then 1 else 0 := by
    rw [dataRow_length, ← Finset.card_filter]
    exact Nat.count_eq_card_filter_range (fun b => i < dlen s b) s.nblk.toNat
  have hcolumn {b : Nat} (hb : b ∈ Finset.range s.nblk.toNat) :
      (∑ i ∈ Finset.range n, if i < dlen s b then 1 else 0) = dlen s b := by
    have hn := h b (Finset.mem_range.mp hb)
    have hfilter : (Finset.range n).filter (· < dlen s b) = Finset.range (dlen s b) := by
      ext i
      simp only [Finset.mem_filter, Finset.mem_range]
      omega
    rw [← Finset.card_filter, hfilter, Finset.card_range]
  have hboff (k : Nat) : boff s k = ∑ b ∈ Finset.range k, dlen s b := by
    induction k with
    | zero => rfl
    | succ k ih => rw [boff_succ, ih, Finset.sum_range_succ]
  calc ((List.range n).flatMap (dataRow s)).length = ∑ i ∈ Finset.range n, (dataRow s i).length := by
        rw [List.length_flatMap]
        rfl
    _ = ∑ i ∈ Finset.range n, ∑ b ∈ Finset.range s.nblk.toNat, if i < dlen s b then 1 else 0 := by simp only [hrow]
    _ = ∑ b ∈ Finset.range s.nblk.toNat, ∑ i ∈ Finset.range n, if i < dlen s b then 1 else 0 := Finset.sum_comm
    _ = ∑ b ∈ Finset.range s.nblk.toNat, dlen s b := Finset.sum_congr rfl fun b hb => hcolumn hb
    _ = boff s s.nblk.toNat := (hboff _).symm

theorem ecRows_length (s : State) (n : Nat) : ((List.range n).flatMap (ecRow s)).length = s.nblk.toNat * n := by
  simp [List.length_flatMap, ecRow, Nat.mul_comm]

theorem Geometry.emission_length {s : State} (g : Geometry s) : (emission s).length = s.total.toNat := by
  rw [emission, List.length_append, dataRows_length fun b hb => g.dlen_le_maxDlen hb, ecRows_length, g.boff_add_ec]

/-! ### ILV and ECRUN keep the invariant -/

/-- Every cell ILV copies holds a value once all blocks are encoded. -/
theorem emission_readable {s : State} (h : PhaseFree s) (hpart : Partitioned s) (hb : s.bidx = s.nblk) :
    ∃ bytes, readCells s (emission s) = .ok bytes := by
  have hoff : boff s s.nblk.toNat ≤ s.slen.toNat := by
    rw [← hb, ← hpart.off_eq]
    exact hpart.off_le
  have hslen := s.slen.isLt
  refine readCells_of_filled s _ fun c hc => ?_
  rcases (mem_emission s c).mp hc with ⟨b, i, hbn, hi, -, rfl⟩ | ⟨b, i, hbn, hi, rfl⟩
  · have hlt := boff_add_lt s hbn hi
    exact ⟨by simp only [Config.cells]; omega, h.dmem_filled.exists_read (by omega)⟩
  · have hlt : b * s.eclen.toNat + i < s.bidx.toNat * s.eclen.toNat :=
      calc b * s.eclen.toNat + i < (b + 1) * s.eclen.toNat := by rw [Nat.succ_mul]; omega
        _ ≤ s.bidx.toNat * s.eclen.toNat := Nat.mul_le_mul_right _ (by rw [hb]; exact hbn)
    have hfits := h.emem_fits
    exact ⟨by simp only [Config.cells]; omega, h.emem_filled.exists_read hlt⟩

/-- The state ILV leads to when OMEM becomes `m` (R156). -/
def streamComplete (m : Memory) (s : State) : State := { s with omem := m, olen := s.total, phase := .outv }

/-- Once all blocks are encoded ILV completes: no cell is unwritten and the count is right (R156, R158). -/
theorem opIlv_done {s : State} (h : PhaseFree s) (hpart : Partitioned s) (hb : s.bidx = s.nblk) (ho : s.olen = 0) :
    ∃ bytes m, readCells s (emission s) = .ok bytes ∧ writeSlice .omem s.omem 0 bytes = .ok m ∧
      holdsExactly m s.total.toNat ∧ opIlv s = .done (streamComplete m s) := by
  obtain ⟨bytes, hbytes⟩ := emission_readable h hpart hb
  have hlength : bytes.length = s.total.toNat := (readCells_length hbytes).trans hpart.geometry.emission_length
  have htotal := s.total.isLt
  obtain ⟨m, hm, -, -⟩ := writeSlice_ok .omem s.omem 0 bytes (.inr (by rw [hlength, Config.cells]; omega))
  have homem : holdsExactly s.omem 0 := by simpa [ho] using h.omem_filled
  refine ⟨bytes, m, hbytes, hm, ?_, ?_⟩
  · simpa only [hlength, Nat.zero_add] using writeSlice_holdsExactly homem hm
  · simp [opIlv, streamComplete, hbytes, hm, hlength]

theorem opIlv_keepsInv {s : State} (h : Inv s) (hp : s.phase = .ecdone) :
    (opIlv s).LeadsTo (fun t => Inv t ∧ t.phase = .outv) Recordable False := by
  obtain ⟨hf, hfacts⟩ := (inv_iff s).mp h
  simp only [PhaseFacts, hp] at hfacts
  obtain ⟨hno, hpart, hb, ho, hev⟩ := hfacts
  obtain ⟨-, m, -, -, hfilled, hdone⟩ := opIlv_done hf hpart hb ho
  rw [hdone]
  refine ⟨(inv_iff _).mpr ⟨{ hf with omem_filled := hfilled, matrix_held := ?_ }, ?_⟩, rfl⟩
  · simp [streamComplete, hev.mlastv_eq]
  · exact ⟨{ hno with }, ⟨hpart.congr { hpart.geometry with }, hb, rfl⟩, { hev with }⟩

/-- What the loop of ECRUN keeps: the invariant, with `k` of the `n` blocks encoded (R157). -/
def BlocksEncoded (n k : Nat) (s : State) : Prop :=
  Inv s ∧ s.nblk.toNat = n ∧ s.bidx.toNat = k ∧ s.phase = if k = n then .ecdone else .parted

theorem opEcgen_keepsBlocksEncoded {n k : Nat} {s : State} (hk : k < n) (h : BlocksEncoded n k s) :
    (opEcgen s).LeadsTo (BlocksEncoded n (k + 1)) Recordable False := by
  obtain ⟨hinv, rfl, rfl, hp⟩ := h
  rw [if_neg hk.ne] at hp
  refine (opEcgen_keepsInv hinv hp).mono ?_
  rintro t ⟨ht, hbidx, hnblk, hphase⟩
  exact ⟨ht, by rw [hnblk], hbidx, hphase⟩

theorem opEcrun_keepsInv {s : State} (h : Inv s) (hp : s.phase = .load) :
    (opEcrun s).LeadsTo (fun t => Inv t ∧ t.phase = .outv) Recordable False := by
  have hstart : (opPart s).LeadsTo (BlocksEncoded s.nblk.toNat 0) Recordable False := by
    refine (opPart_keepsInv h hp).mono ?_
    rintro t ⟨ht, hphase, hbidx, hnblk⟩
    have hopen : 0 < s.nblk.toNat := by simpa [hbidx, hnblk] using ht.parted_open hphase
    exact ⟨ht, by rw [hnblk], by rw [hbidx]; rfl, by rw [hphase, if_neg hopen.ne]⟩
  refine (hstart.andThen fun u hu =>
    leadsTo_repeatFlow (R := BlocksEncoded s.nblk.toNat) _ (fun k v => opEcgen_keepsBlocksEncoded) hu).andThen ?_
  rintro u ⟨hu, -, -, hphase⟩
  exact opIlv_keepsInv hu (by simpa using hphase)

/-! ### The mask evaluator keeps the invariant -/

/-- A stream of valid length can be handed to the collaborator (R170). -/
theorem placement_ne_stop {s : State} (h : PhaseFree s) (m : BitVec 3) (next : QrMatrix → Flow) :
    (placementOf s m = none ∧ placement m s next = .raise .external s) ∨
    ∃ matrix, placementOf s m = some matrix ∧ placement m s next = next matrix := by
  obtain ⟨bits, hbits⟩ := readSlice_of_filled .omem h.omem_filled (Nat.zero_add _).le s.olen.isLt.le
  unfold placement placementOf
  simp only [hbits, withValue_ok]
  cases askPlace s ⟨bits, s.ecl, s.ver, m⟩ with
  | ok matrix => exact .inr ⟨matrix, rfl, rfl⟩
  | fail => exact .inl ⟨rfl, rfl⟩

/-- The facts of the phases in which the evaluator can start again. -/
theorem Inv.evaluable {s : State} (h : Inv s) (hp : permitted .minit s.phase = true) : PhaseFree s ∧ NoFault s ∧ Interleaved s := by
  have hi : s.phase.interleaved = true := by simpa [permitted, Phase.interleaved] using hp
  exact ⟨h.phaseFree, h.noFault fun hf => by simp [hf, Phase.interleaved] at hi, h.interleaved hi⟩

theorem opMinit_keepsInv {s : State} (h : Inv s) (hp : permitted .minit s.phase = true) :
    (opMinit s).LeadsTo (fun t => Inv t ∧ t.phase = .masking ∧ t.mcur = 0) Recordable False := by
  obtain ⟨hf, hno, hint⟩ := h.evaluable hp
  rcases opMinit_cases s with ⟨-, hr⟩ | ⟨hv, hd⟩
  · rw [hr]
    exact h.recordable (by decide) (by decide)
  · rw [hd]
    refine ⟨(inv_iff _).mpr ⟨{ hf with }, ?_⟩, rfl, rfl⟩
    exact ⟨{ hno with }, ⟨hint.partitioned.congr { hint.partitioned.geometry with }, hint.bidx_eq, hint.olen_eq⟩, hv,
      by simp, rfl, by simp, by simp⟩

/-- After a trial there is a best so far (R173). -/
theorem mbestv_or_replacesBest (s : State) (score : BitVec 34) : (s.mbestv || replacesBest s score) = true := by
  cases h : s.mbestv <;> simp [replacesBest, h]

theorem recordTrial_mbestv_eq_true (m : BitVec 3) (matrix : QrMatrix) (s : State) : (recordTrial m matrix s).mbestv = true :=
  mbestv_or_replacesBest s _

/-- A trial keeps what a state holds of MBUF and takes no part in the buffers (R40, R172). -/
theorem PhaseFree.recordTrial {s : State} (h : PhaseFree s) {m : BitVec 3} {matrix : QrMatrix} (hm : placementOf s m = some matrix) :
    PhaseFree (recordTrial m matrix s) :=
  { h with
    matrix_held := fun _ => ⟨by simp, hm.symm⟩
    matrix_none := by simp }

theorem opMstep_keepsInv {s : State} (h : Inv s) (hp : s.phase = .masking) :
    (opMstep s).LeadsTo
      (fun t => Inv t ∧ t.mcur.toNat = s.mcur.toNat + 1 ∧ t.phase = if s.mcur.toNat + 1 = 8 then .mdone else .masking)
      Recordable False := by
  obtain ⟨hf, hfacts⟩ := (inv_iff s).mp h
  simp only [PhaseFacts, hp] at hfacts
  obtain ⟨hno, hint, hv, hmcur, -, -, -⟩ := hfacts
  have hop : opMstep s = placement (s.mcur.setWidth 3) s fun matrix => .done (recordTrial (s.mcur.setWidth 3) matrix s) :=
    if_neg (Nat.not_le.mpr hmcur)
  rw [hop]
  rcases placement_ne_stop hf (s.mcur.setWidth 3) _ with ⟨-, hr⟩ | ⟨matrix, hm, hd⟩
  · rw [hr]
    exact h.recordable (by decide) (by decide)
  rw [hd]
  have hnext : (s.mcur + 1).toNat = s.mcur.toNat + 1 := by bv_omega
  have hphase : (recordTrial (s.mcur.setWidth 3) matrix s).phase = if s.mcur.toNat + 1 = 8 then .mdone else .masking := by
    rw [← hp]
    rfl
  have hint' : Interleaved (recordTrial (s.mcur.setWidth 3) matrix s) :=
    ⟨hint.partitioned.congr { hint.partitioned.geometry with }, hint.bidx_eq, hint.olen_eq⟩
  refine ⟨(inv_iff _).mpr ⟨hf.recordTrial hm, ?_⟩, hnext, hphase⟩
  by_cases hlast : s.mcur.toNat + 1 = 8
  · simp only [PhaseFacts, hphase, if_pos hlast]
    have hseven : s.mcur = 7 := by bv_omega
    exact ⟨{ hno with }, hint', hv, by simp [hseven], rfl, recordTrial_mbestv_eq_true _ _ s, rfl, by simp [hseven]⟩
  · simp only [PhaseFacts, hphase, if_neg hlast]
    have hne : s.mcur + 1 ≠ 0 := by bv_omega
    refine ⟨{ hno with }, hint', hv, ?_, rfl, ?_, fun _ => rfl⟩
    · rw [recordTrial_mcur, hnext]
      omega
    · simp only [recordTrial_mbestv_eq_true, recordTrial_mcur, hne, ne_eq, not_false_eq_true]

/-- What the loop of MRUN keeps: the invariant, with `k` of the mask ids tried (R174). -/
def MasksTried (k : Nat) (s : State) : Prop :=
  Inv s ∧ s.mcur.toNat = k ∧ s.phase = if k = 8 then .mdone else .masking

theorem opMstep_keepsMasksTried {k : Nat} {s : State} (hk : k < 8) (h : MasksTried k s) :
    (opMstep s).LeadsTo (MasksTried (k + 1)) Recordable False := by
  obtain ⟨hinv, rfl, hp⟩ := h
  rw [if_neg hk.ne] at hp
  exact opMstep_keepsInv hinv hp

theorem opMrun_keepsInv {s : State} (h : Inv s) (hp : permitted .minit s.phase = true) :
    (opMrun s).LeadsTo (MasksTried 8) Recordable False := by
  refine (opMinit_keepsInv h hp).andThen ?_
  rintro u ⟨hu, hphase, hmcur⟩
  exact leadsTo_repeatFlow (R := MasksTried) 8 (fun k v => opMstep_keepsMasksTried) ⟨hu, by rw [hmcur]; rfl, hphase⟩

theorem opMplace_keepsInv {s : State} (h : Inv s) (hp : s.phase = .mdone ∨ s.phase = .final) :
    (opMplace s).LeadsTo Inv Recordable False := by
  have hi : s.phase.interleaved = true := by rcases hp with hp | hp <;> simp [hp, Phase.interleaved]
  have hf := h.phaseFree
  have hint := h.interleaved hi
  have htried : s.mcur = 8 ∧ s.mbestv = true := by
    rcases hp with hp | hp
    · obtain ⟨hmcur, -, hbest, -⟩ := h.mdone hp
      exact ⟨hmcur, hbest⟩
    · obtain ⟨hmcur, -, hbest, -⟩ := h.final hp
      exact ⟨hmcur, hbest⟩
  unfold opMplace
  rcases placement_ne_stop hf s.mbest _ with ⟨-, hr⟩ | ⟨matrix, hm, hd⟩
  · rw [hr]
    exact h.recordable (by decide) (by decide)
  · rw [hd]
    refine (inv_iff _).mpr ⟨{ hf with matrix_held := fun _ => ⟨by simp, hm.symm⟩, matrix_none := by simp }, ?_⟩
    exact ⟨{ h.noFault (fun hfault => by simp [hfault] at hp) with },
      ⟨hint.partitioned.congr { hint.partitioned.geometry with }, hint.bidx_eq, hint.olen_eq⟩,
      h.evaluator_given (.inr hp), htried.1, rfl, htried.2, rfl, rfl⟩

/-! ### Every step keeps the invariant -/

/-- A command whose pseudocode runs keeps the invariant, never stops, and raises only what can be recorded. -/
theorem pseudocode_keepsInv {i : Instr} {s : State} (h : Inv s) (hs : s.phase = .fault → servedInFault i = true)
    (hm : s.phase ≠ .fault → permitted i.mnemonic s.phase = true) : (pseudocode i s).LeadsTo Inv Recordable False := by
  by_cases hp : s.phase = .fault
  · rcases (servedInFault_iff i).mp (hs hp) with rfl | rfl | ⟨n, rfl, -⟩
    · exact h
    · exact inv_clearBlock s
    · exact opRdr_keepsInv h n
  have hperm := hm hp
  cases i with
  | nop => exact h
  | clr => exact inv_clearBlock s
  | sett n => exact h.with_inputs (by simpa [Instr.mnemonic, permitted] using hperm) n s.data s.nblk
  | setd n => exact h.with_inputs (by simpa [Instr.mnemonic, permitted] using hperm) s.total n s.nblk
  | setb n => exact h.with_inputs (by simpa [Instr.mnemonic, permitted] using hperm) s.total s.data n
  | sets version level =>
    rcases pseudocode_sets_cases version level s with ⟨hl, hd⟩ | ⟨-, hr⟩
    · rw [hd]
      exact h.with_symbol hperm hl
    · rw [hr]
      exact h.recordable (by decide) (by decide)
  | push v => exact opPush_keepsInv h (by simpa [Instr.mnemonic, permitted] using hperm) v
  | rdr n => exact opRdr_keepsInv h n
  | rdd a => exact opReadBuffer_keepsInv (b := .dmem) h h.dmem_filled a
  | rde a => exact opReadBuffer_keepsInv (b := .emem) h h.emem_filled a
  | rdo a => exact opReadBuffer_keepsInv (b := .omem) h h.omem_filled a
  | gfadd a b => exact h.respond _
  | gfmul a b => exact h.respond _
  | gfexp e => exact h.respond _
  | gflog v => exact opFieldPartial_keepsInv h _
  | gfinv v => exact opFieldPartial_keepsInv h _
  | part => exact (opPart_keepsInv h (by simpa [Instr.mnemonic, permitted] using hperm)).mono fun _ ht => ht.1
  | ecgen => exact (opEcgen_keepsInv h (by simpa [Instr.mnemonic, permitted] using hperm)).mono fun _ ht => ht.1
  | ilv => exact (opIlv_keepsInv h (by simpa [Instr.mnemonic, permitted] using hperm)).mono fun _ ht => ht.1
  | ecrun => exact (opEcrun_keepsInv h (by simpa [Instr.mnemonic, permitted] using hperm)).mono fun _ ht => ht.1
  | minit => exact (opMinit_keepsInv h hperm).mono fun _ ht => ht.1
  | mstep => exact (opMstep_keepsInv h (by simpa [Instr.mnemonic, permitted] using hperm)).mono fun _ ht => ht.1
  | mrun => exact (opMrun_keepsInv h hperm).mono fun _ ht => ht.1
  | mplace => exact opMplace_keepsInv h (by simpa [Instr.mnemonic, permitted] using hperm)

theorem Flow.LeadsTo.finish_inv {x : Flow} (h : x.LeadsTo Inv Recordable False) (w : Word) : ∃ t, finish w x = .next t ∧ Inv t := by
  cases x with
  | done s => exact ⟨s, rfl, h⟩
  | raise c s => exact ⟨_, rfl, Recordable.inv_takeFault h w⟩
  | stop f => exact h.elim

/-- Every command leads from a state that meets the invariant to one that does. -/
theorem exec_keepsInv {s : State} (h : Inv s) (i : Instr) : ∃ t, exec i s = .next t ∧ Inv t := by
  by_cases hp : s.phase = .fault
  · cases hs : servedInFault i with
    | true =>
      rw [exec_served hp hs]
      exact (pseudocode_keepsInv h (fun _ => hs) fun hn => absurd hp hn).finish_inv _
    | false => exact ⟨s, exec_dropped hp hs, h⟩
  · cases hm : permitted i.mnemonic s.phase with
    | true =>
      rw [exec_permitted hp hm]
      exact (pseudocode_keepsInv h (fun hn => absurd hn hp) fun _ => hm).finish_inv _
    | false => exact ⟨_, exec_refused hp hm, (h.recordable (by decide) (by decide)).inv_takeFault _⟩

theorem illegalWord_keepsInv {s : State} (h : Inv s) (w : Word) : Inv (illegalWord w s) := by
  unfold illegalWord
  split
  · exact h
  · exact (h.recordable (by decide) (by decide)).inv_takeFault w

theorem takeWord_keepsInv {s : State} (h : Inv s) (w : Word) : ∃ t, takeWord w s = .next t ∧ Inv t := by
  unfold takeWord
  split
  · exact exec_keepsInv h _
  · exact ⟨_, rfl, illegalWord_keepsInv h w⟩

/-- Settles O23, by cases on the host's next transaction. -/
theorem stepKeepsInv : Obligations.StepKeepsInv := by
  intro s h
  unfold step
  split
  · exact ⟨s, rfl, h⟩
  · exact ⟨_, rfl, inv_clearBlock _⟩
  · exact takeWord_keepsInv (h.with_streams _ _ s.rsp) _

/-- Settles O22: the reset state is what CLR leads to from it. -/
theorem invAtReset : Obligations.InvAtReset := inv_clearBlock State.reset

/-! ### What ECRUN and MRUN write -/

/-- Nothing differs but what the interleaver writes (R32 to R34, R38, R39). -/
def ChangesOnlyInterleaver (s t : State) : Prop :=
  t = { s with
    g1 := t.g1, g2 := t.g2, dg1 := t.dg1, dg2 := t.dg2, eclen := t.eclen, bidx := t.bidx, off := t.off, emem := t.emem
    olen := t.olen, omem := t.omem, phase := t.phase }

/-- Nothing differs but what the mask evaluator writes (R35, R36, R40). -/
def ChangesOnlyEvaluator (s t : State) : Prop :=
  t = { s with
    mcur := t.mcur, mbest := t.mbest, mbscore := t.mbscore, mbestv := t.mbestv, mlast := t.mlast, mlastv := t.mlastv
    mfinal := t.mfinal, mbuf := t.mbuf, phase := t.phase }

theorem ChangesOnlyInterleaver.trans {s t u : State} (h : ChangesOnlyInterleaver s t) (h' : ChangesOnlyInterleaver t u) :
    ChangesOnlyInterleaver s u := by
  rw [ChangesOnlyInterleaver] at h
  rw [ChangesOnlyInterleaver, h] at h'
  exact h'

theorem ChangesOnlyEvaluator.trans {s t u : State} (h : ChangesOnlyEvaluator s t) (h' : ChangesOnlyEvaluator t u) :
    ChangesOnlyEvaluator s u := by
  rw [ChangesOnlyEvaluator] at h
  rw [ChangesOnlyEvaluator, h] at h'
  exact h'

theorem ChangesOnlyInterleaver.rsp_eq {s t : State} (h : ChangesOnlyInterleaver s t) : t.rsp = s.rsp := by rw [h]
theorem ChangesOnlyInterleaver.fcause_eq {s t : State} (h : ChangesOnlyInterleaver s t) : t.fcause = s.fcause := by rw [h]
theorem ChangesOnlyInterleaver.fcmd_eq {s t : State} (h : ChangesOnlyInterleaver s t) : t.fcmd = s.fcmd := by rw [h]

theorem ChangesOnlyEvaluator.rsp_eq {s t : State} (h : ChangesOnlyEvaluator s t) : t.rsp = s.rsp := by rw [h]
theorem ChangesOnlyEvaluator.fcause_eq {s t : State} (h : ChangesOnlyEvaluator s t) : t.fcause = s.fcause := by rw [h]
theorem ChangesOnlyEvaluator.fcmd_eq {s t : State} (h : ChangesOnlyEvaluator s t) : t.fcmd = s.fcmd := by rw [h]
theorem ChangesOnlyEvaluator.vset_eq {s t : State} (h : ChangesOnlyEvaluator s t) : t.vset = s.vset := by rw [h]

/-- All three buffers are in canonical form (R37 to R41, R60). -/
structure Canonical (s : State) : Prop where
  dmem_wf : Memory.wf s.dmem = true
  emem_wf : Memory.wf s.emem = true
  omem_wf : Memory.wf s.omem = true

/-- What holds in ECRUN, started in `s`, after each of its stages (R157). -/
structure Stages (s u : State) : Prop where
  frame : ChangesOnlyInterleaver s u
  keepsCanonical : Canonical s → Canonical u

theorem Stages.with_emem {s u : State} (h : Stages s u) {b : Buffer} {a : Nat} {bytes : List Byte} {m : Memory}
    (hm : writeSlice b u.emem a bytes = .ok m) : Stages s { u with emem := m } :=
  ⟨h.frame.trans rfl, fun hs => { h.keepsCanonical hs with emem_wf := writeSlice_wf (h.keepsCanonical hs).emem_wf hm }⟩

theorem Stages.with_omem {s u : State} (h : Stages s u) {b : Buffer} {a : Nat} {bytes : List Byte} {m : Memory}
    (hm : writeSlice b u.omem a bytes = .ok m) : Stages s { u with omem := m } :=
  ⟨h.frame.trans rfl, fun hs => { h.keepsCanonical hs with omem_wf := writeSlice_wf (h.keepsCanonical hs).omem_wf hm }⟩

/-- The registers the interleaver writes are free. -/
theorem Stages.with_registers {s u v : State} (h : Stages s u) (hf : ChangesOnlyInterleaver u v) (he : v.emem = u.emem := by rfl)
    (ho : v.omem = u.omem := by rfl) : Stages s v where
  frame := h.frame.trans hf
  keepsCanonical := fun hs => by
    obtain ⟨hd, he', ho'⟩ := h.keepsCanonical hs
    refine ⟨?_, by rw [he]; exact he', by rw [ho]; exact ho'⟩
    rw [hf]
    exact hd

theorem stages_refl (s : State) : Stages s s := ⟨rfl, id⟩

theorem opPart_stages (s : State) : (opPart s).LeadsTo (Stages s) (fun c u => Stages s u ∧ c ∈ causesOf .ecrun) True := by
  rcases opPart_cases s with ⟨c, hc, hr⟩ | ⟨-, -, -, -, hd⟩
  · rw [hr]
    exact ⟨stages_refl s, by rcases hc with rfl | rfl <;> decide⟩
  · rw [hd]
    exact (stages_refl s).with_registers rfl

theorem opEcgen_stages {s u : State} (h : Stages s u) :
    (opEcgen u).LeadsTo (Stages s) (fun c v => Stages s v ∧ c ∈ causesOf .ecrun) True := by
  rcases opEcgen_cases u with ⟨f, hf⟩ | ⟨-, -, hr⟩ | ⟨d, m, -, -, -, -, hm, hd⟩
  · rw [hf]
    trivial
  · rw [hr]
    exact ⟨h, by decide⟩
  · rw [hd]
    exact (h.with_emem hm).with_registers rfl

theorem opIlv_stages {s u : State} (h : Stages s u) :
    (opIlv u).LeadsTo (fun t => Stages s t ∧ t.phase = .outv) (fun c v => Stages s v ∧ c ∈ causesOf .ecrun) True := by
  rcases opIlv_cases u with ⟨f, hf⟩ | ⟨bytes, m, -, hm, ⟨-, hr⟩ | ⟨-, hd⟩⟩
  · rw [hf]
    trivial
  · rw [hr]
    exact ⟨h.with_omem hm, by decide⟩
  · rw [hd]
    exact ⟨(h.with_omem hm).with_registers rfl, rfl⟩

/-- ECRUN writes what its stages write, and raises what they raise (R157). -/
theorem opEcrun_stages (s : State) :
    (opEcrun s).LeadsTo (fun t => Stages s t ∧ t.phase = .outv) (fun c u => Stages s u ∧ c ∈ causesOf .ecrun) True :=
  ((opPart_stages s).andThen fun _ hu =>
    leadsTo_repeatFlow (R := fun _ => Stages s) _ (fun _ _ _ => opEcgen_stages) hu).andThen fun _ => opIlv_stages

/-- The state MINIT leads to with VSET = 1 (R171). -/
def evaluationStarted (s : State) : State :=
  { s with mcur := 0, mbestv := false, mbest := 0, mbscore := 0, mfinal := false, phase := .masking }

/-- What holds in MRUN, started in `s`, after `k` trials (R174). -/
structure Trials (s : State) (k : Nat) (u : State) : Prop where
  frame : ChangesOnlyEvaluator s u
  mcur_eq : u.mcur.toNat = k
  mfinal_eq : u.mfinal = false
  mlastv_stays : s.mlastv = true → u.mlastv = true
  tried : k ≠ 0 → u.mbestv = true ∧ u.mlastv = true
  phase_eq : u.phase = if k = 8 then .mdone else .masking

theorem trials_start (s : State) : Trials s 0 (evaluationStarted s) :=
  ⟨rfl, rfl, rfl, id, fun h => absurd rfl h, rfl⟩

theorem Trials.recordTrial {s u : State} {k : Nat} (h : Trials s k u) (hk : k < 8) (m : BitVec 3) (matrix : QrMatrix) :
    Trials s (k + 1) (recordTrial m matrix u) where
  frame := h.frame.trans rfl
  mcur_eq := by
    have hmcur := h.mcur_eq
    rw [recordTrial_mcur]
    bv_omega
  mfinal_eq := rfl
  mlastv_stays := fun _ => rfl
  tried := fun _ => ⟨recordTrial_mbestv_eq_true m matrix u, rfl⟩
  phase_eq := by rw [recordTrial_phase, h.mcur_eq, h.phase_eq, if_neg hk.ne]; rfl

theorem opMstep_trials {s u : State} {k : Nat} (hk : k < 8) (h : Trials s k u) :
    (opMstep u).LeadsTo (Trials s (k + 1)) (fun c v => c = .external ∧ ∃ j, Trials s j v) True := by
  rcases opMstep_cases u with ⟨f, hf⟩ | ⟨-, -, hr⟩ | ⟨matrix, -, -, hd⟩
  · rw [hf]
    trivial
  · rw [hr]
    exact ⟨rfl, k, h⟩
  · rw [hd]
    exact h.recordTrial hk _ matrix

/-- Everything MRUN's pseudocode can do (R174): refuse at its start, or 8 trials, of which one may fail. -/
theorem opMrun_cases (s : State) :
    (s.vset = false ∧ opMrun s = .raise .sequence s) ∨
    (opMrun s).LeadsTo (Trials s 8) (fun c v => c = .external ∧ ∃ j, Trials s j v) True := by
  unfold opMrun
  rcases opMinit_cases s with ⟨hv, hr⟩ | ⟨-, hd⟩
  · exact .inl ⟨hv, by rw [hr, andThen_raise]⟩
  · refine .inr ?_
    rw [hd, andThen_done]
    exact leadsTo_repeatFlow (R := Trials s) 8 (fun _ _ => opMstep_trials) (trials_start s)

/-! ### What a command leads to, in one relation per outcome -/

/-- The states the pseudocode of a command can run through to. -/
inductive Completes : Instr → State → State → Prop
  | nop (s : State) : Completes .nop s s
  | clr (s : State) : Completes .clr s (clearBlock s)
  | sett (n : Len) (s : State) : Completes (.sett n) s { s with total := n }
  | setd (n : Len) (s : State) : Completes (.setd n) s { s with data := n }
  | setb (n : Len) (s : State) : Completes (.setb n) s { s with nblk := n }
  | sets {version level : Byte} (hl : symbolLegal version level = true) (s : State) :
      Completes (.sets version level) s { s with ver := version, ecl := level, vset := true }
  | push (v : Byte) {s : State} (hs : s.slen.toNat < 4095) :
      Completes (.push v) s { s with dmem := Memory.write s.dmem s.slen.toNat v, slen := s.slen + 1 }
  | responding {i : Instr} (hi : responds i = true) (v : Word) (s : State) : Completes i s (respond v s)
  | part (s : State) : Completes .part s (parted s)
  | ecgen {s : State} {d : List Byte} {m : Memory}
      (hm : writeSlice .emem s.emem (s.bidx.toNat * s.eclen.toNat) (rsencode d s.eclen.toNat) = .ok m) :
      Completes .ecgen s (blockEncoded m s)
  | ilv {s : State} {bytes : List Byte} {m : Memory} (hm : writeSlice .omem s.omem 0 bytes = .ok m) :
      Completes .ilv s (streamComplete m s)
  | ecrun {s t : State} (ht : Stages s t) (hp : t.phase = .outv) : Completes .ecrun s t
  | minit (s : State) : Completes .minit s (evaluationStarted s)
  | mstep (matrix : QrMatrix) (s : State) : Completes .mstep s (recordTrial (s.mcur.setWidth 3) matrix s)
  | mrun {s t : State} (ht : Trials s 8 t) : Completes .mrun s t
  | mplace (matrix : QrMatrix) (s : State) :
      Completes .mplace s { s with mbuf := some matrix, mlast := s.mbest, mlastv := true, mfinal := true, phase := .final }

/-- The causes a command's pseudocode can raise, with the state at the raise (R192). -/
inductive Raises : Instr → State → Cause → State → Prop
  | unchanged {i : Instr} {c : Cause} (hs : servedInFault i = false) (hc : c ∈ causesOf i.mnemonic) (s : State) : Raises i s c s
  | unset {i : Instr} {s : State} (hi : i = .minit ∨ i = .mrun) (hv : s.vset = false) : Raises i s .sequence s
  | ilv {s : State} {bytes : List Byte} {m : Memory} (hm : writeSlice .omem s.omem 0 bytes = .ok m) :
      Raises .ilv s .internal { s with omem := m }
  | ecrun {s u : State} {c : Cause} (hu : Stages s u) (hc : c ∈ causesOf .ecrun) : Raises .ecrun s c u
  | mrun {s u : State} {k : Nat} (hu : Trials s k u) : Raises .mrun s .external u

/-- The two relations together: all that a command's pseudocode leads to when it does not stop the model. -/
abbrev Effect (i : Instr) (s : State) : Flow → Prop := Flow.LeadsTo (Completes i s) (Raises i s) True

theorem opReadBuffer_effect {i : Instr} (hi : responds i = true) (hs : servedInFault i = false)
    (hc : .range ∈ causesOf i.mnemonic) (b : Buffer) (n : Nat) (a : Len) (s : State) : Effect i s (opReadBuffer b n a s) := by
  rcases opReadBuffer_cases b n a s with ⟨-, h⟩ | ⟨-, ⟨v, -, h⟩ | ⟨-, h⟩⟩
  · rw [h]
    exact .unchanged hs hc s
  · rw [h]
    exact .responding hi _ s
  · rw [h]
    trivial

theorem opFieldPartial_effect {i : Instr} (hi : responds i = true) (hs : servedInFault i = false)
    (hc : .operand ∈ causesOf i.mnemonic) (x : Option Byte) (s : State) : Effect i s (opFieldPartial x s) := by
  rcases opFieldPartial_cases x s with ⟨v, -, h⟩ | ⟨-, h⟩
  · rw [h]
    exact .responding hi _ s
  · rw [h]
    exact .unchanged hs hc s

theorem opMrun_effect (s : State) : Effect .mrun s (opMrun s) := by
  rcases opMrun_cases s with ⟨hv, h⟩ | h
  · rw [h]
    exact .unset (.inr rfl) hv
  · generalize opMrun s = x at h
    cases x with
    | done t => exact .mrun h
    | raise c u =>
      obtain ⟨rfl, k, hu⟩ := h
      exact .mrun hu
    | stop f => trivial

theorem opEcrun_effect (s : State) : Effect .ecrun s (opEcrun s) := by
  have h := opEcrun_stages s
  generalize opEcrun s = x at h
  cases x with
  | done t => exact .ecrun h.1 h.2
  | raise c u => exact .ecrun h.1 h.2
  | stop f => trivial

/-- Everything a command's pseudocode leads to. -/
theorem pseudocode_effect (i : Instr) (s : State) : Effect i s (pseudocode i s) := by
  cases i with
  | nop => exact .nop s
  | clr => exact .clr s
  | sett n => exact .sett n s
  | setd n => exact .setd n s
  | setb n => exact .setb n s
  | sets version level =>
    rcases pseudocode_sets_cases version level s with ⟨hl, h⟩ | ⟨-, h⟩ <;> rw [h]
    · exact .sets hl s
    · exact .unchanged rfl (List.mem_singleton_self _) s
  | push v =>
    rw [pseudocode]
    rcases opPush_cases v s with ⟨-, h⟩ | ⟨hlt, h⟩ <;> rw [h]
    · exact .unchanged rfl (List.mem_singleton_self _) s
    · exact .push v hlt
  | rdr n =>
    rw [pseudocode]
    rcases opRdr_cases n s with ⟨r, -, h⟩ | ⟨hr, h⟩ <;> rw [h]
    · exact .responding rfl _ s
    · exact .unchanged (by rw [servedInFault, hr]; rfl) (List.mem_singleton_self _) s
  | rdd a => exact opReadBuffer_effect rfl rfl (List.mem_singleton_self _) _ _ a s
  | rde a => exact opReadBuffer_effect rfl rfl (List.mem_singleton_self _) _ _ a s
  | rdo a => exact opReadBuffer_effect rfl rfl (List.mem_singleton_self _) _ _ a s
  | gfadd a b => exact .responding rfl _ s
  | gfmul a b => exact .responding rfl _ s
  | gfexp e => exact .responding rfl _ s
  | gflog v => exact opFieldPartial_effect rfl rfl (List.mem_singleton_self _) _ s
  | gfinv v => exact opFieldPartial_effect rfl rfl (List.mem_singleton_self _) _ s
  | part =>
    rw [pseudocode]
    rcases opPart_cases s with ⟨c, hc, h⟩ | ⟨-, -, -, -, h⟩ <;> rw [h]
    · exact .unchanged rfl (by rcases hc with rfl | rfl <;> decide) s
    · exact .part s
  | ecgen =>
    rw [pseudocode]
    rcases opEcgen_cases s with ⟨f, h⟩ | ⟨-, -, h⟩ | ⟨d, m, -, -, -, -, hm, h⟩ <;> rw [h]
    · trivial
    · exact .unchanged rfl (by decide) s
    · exact .ecgen hm
  | ilv =>
    rw [pseudocode]
    rcases opIlv_cases s with ⟨f, h⟩ | ⟨bytes, m, -, hm, ⟨-, h⟩ | ⟨-, h⟩⟩ <;> rw [h]
    · trivial
    · exact .ilv hm
    · exact .ilv hm
  | ecrun => exact opEcrun_effect s
  | minit =>
    rw [pseudocode]
    rcases opMinit_cases s with ⟨hv, h⟩ | ⟨-, h⟩ <;> rw [h]
    · exact .unset (.inl rfl) hv
    · exact .minit s
  | mstep =>
    rw [pseudocode]
    rcases opMstep_cases s with ⟨f, h⟩ | ⟨-, -, h⟩ | ⟨matrix, -, -, h⟩ <;> rw [h]
    · trivial
    · exact .unchanged rfl (by decide) s
    · exact .mstep matrix s
  | mrun => exact opMrun_effect s
  | mplace =>
    rw [pseudocode]
    rcases opMplace_cases s with ⟨f, h⟩ | ⟨-, h⟩ | ⟨matrix, -, h⟩ <;> rw [h]
    · trivial
    · exact .unchanged rfl (by decide) s
    · exact .mplace matrix s

theorem completes_of_done {i : Instr} {s t : State} (h : pseudocode i s = .done t) : Completes i s t :=
  (pseudocode_effect i s).done h

theorem raises_of_raise {i : Instr} {s u : State} {c : Cause} (h : pseudocode i s = .raise c u) : Raises i s c u :=
  (pseudocode_effect i s).raise h

/-! ### Phases -/

theorem phaseAfter_of_responds {i : Instr} (hi : responds i = true) (s : State) : phaseAfter i.mnemonic s = s.phase := by
  cases i with
  | rdr | rdd | rde | rdo | gfadd | gfmul | gfexp | gflog | gfinv => rfl
  | _ => cases hi

/-- R26: a permitted command that completes ends in the phase of its row. -/
theorem Completes.phase_eq {i : Instr} {s t : State} (h : Completes i s t) (hm : permitted i.mnemonic s.phase = true) :
    t.phase = phaseAfter i.mnemonic s := by
  cases h with
  | responding hi v => exact (phaseAfter_of_responds hi s).symm
  | ecgen hw =>
    have hp : s.phase = .parted := by simpa [Instr.mnemonic, permitted] using hm
    simp only [blockEncoded, hp]
    rfl
  | ecrun ht hp => exact hp
  | mstep matrix =>
    have hp : s.phase = .masking := by simpa [Instr.mnemonic, permitted] using hm
    simp only [recordTrial_phase, hp]
    rfl
  | mrun ht => exact ht.phase_eq
  | _ => rfl

theorem phaseAfter_ne_fault (m : Mnemonic) {s : State} (hp : s.phase ≠ .fault) : phaseAfter m s ≠ .fault := by
  cases m with
  | ecgen | mstep =>
    simp only [phaseAfter]
    split <;> exact Phase.noConfusion
  | clr | part | ilv | ecrun | minit | mrun | mplace => exact Phase.noConfusion
  | _ => exact hp

theorem registerOfNumber_isSome_iff (n : BitVec 8) : (registerOfNumber n).isSome ↔ n.toNat ≤ 19 := by
  revert n
  decide

/-- R195: what completes in phase FAULT. -/
theorem Completes.of_served {i : Instr} {s t : State} (h : Completes i s t) (hs : servedInFault i = true) :
    (i = .nop ∧ t = s) ∨ (i = .clr ∧ t = clearBlock s) ∨ ∃ n v, i = .rdr n ∧ n.toNat ≤ 19 ∧ t = respond v s := by
  rcases (servedInFault_iff i).mp hs with rfl | rfl | ⟨n, rfl, hn⟩
  · cases h with
    | nop => exact .inl ⟨rfl, rfl⟩
    | responding hi => cases hi
  · cases h with
    | clr => exact .inr (.inl ⟨rfl, rfl⟩)
    | responding hi => cases hi
  · cases h with
    | responding hi v => exact .inr (.inr ⟨n, v, rfl, (registerOfNumber_isSome_iff n).mp hn, rfl⟩)

theorem Raises.not_served {i : Instr} {s u : State} {c : Cause} (h : Raises i s c u) : servedInFault i = false := by
  cases h with
  | unchanged hs => exact hs
  | unset hi => rcases hi with rfl | rfl <;> rfl
  | ilv => rfl
  | ecrun => rfl
  | mrun => rfl

/-- R192: a command's own causes; MINIT and MRUN raise F(SEQUENCE) as well, with VSET = 0. -/
theorem Raises.cause {i : Instr} {s u : State} {c : Cause} (h : Raises i s c u) :
    c ∈ causesOf i.mnemonic ∨ c = .sequence ∧ (i = .minit ∨ i = .mrun) ∧ s.vset = false := by
  cases h with
  | unchanged hs hc => exact .inl hc
  | unset hi hv => exact .inr ⟨rfl, hi, hv⟩
  | ilv => exact .inl (by decide)
  | ecrun ht hc => exact .inl hc
  | mrun => exact .inl (by decide)

theorem sequence_not_mem_causesOf (m : Mnemonic) : Cause.sequence ∉ causesOf m := by
  cases m <;> decide

theorem ne_fault_of_mem_permissionRow {m : Mnemonic} {p : Phase} (h : p ∈ permissionRow m) : p ≠ .fault := by
  rintro rfl
  cases m <;> exact absurd h (by decide)

/-- Settles O11: the table and the FAULT-phase filter stand before the pseudocode (R16), whose own F(SEQUENCE) is VSET's. -/
theorem phasePermissions : Obligations.PhasePermissions := by
  refine fun i s => ⟨fun hp hrow => ?_, fun hrow t h hf hc => ?_, fun hp hnop hclr hrdr => ?_⟩
  · exact exec_refused hp (Bool.eq_false_iff.mpr fun hm => hrow ((permitted_iff_row _ hp).mp hm))
  · have hp := ne_fault_of_mem_permissionRow hrow
    have hm := (permitted_iff_row _ hp).mpr hrow
    obtain ⟨hp', -⟩ | ⟨-, hm', -⟩ | ⟨-, -, hd | ⟨c, u, hr, rfl⟩⟩ := exec_cases h
    · exact absurd hp' hp
    · simp [hm] at hm'
    · rw [(completes_of_done hd).phase_eq hm] at hf
      exact absurd hf (phaseAfter_ne_fault _ hp)
    · obtain rfl : c = .sequence := hc
      rcases (raises_of_raise hr).cause with hc' | ⟨-, hi, hv⟩
      · exact absurd hc' (sequence_not_mem_causesOf _)
      · exact ⟨hi, hv⟩
  · refine exec_dropped hp (Bool.eq_false_iff.mpr fun hs => ?_)
    rcases (servedInFault_iff i).mp hs with rfl | rfl | ⟨n, rfl, -⟩
    · exact hnop rfl
    · exact hclr rfl
    · exact hrdr rfl

/-- The reset input clears the block (R220). -/
theorem step_of_reset_input {s : State} {rest : List HostInput} (hs : s.input = .reset :: rest) :
    step s = .next (clearBlock { s with input := rest }) := by
  simp only [step, hs]

/-- Settles O12: the outcomes of a command outside phase FAULT, and those in it. -/
theorem phaseTransitions : Obligations.PhaseTransitions := by
  refine ⟨fun i s t h => ?_, fun s t rest hs h => ?_⟩
  · obtain ⟨hp, hs, rfl⟩ | ⟨hp, -, rfl⟩ | ⟨hs, hm, hd | ⟨c, u, hr, rfl⟩⟩ := exec_cases h
    · have hclr : i ≠ .clr := by
        rintro rfl
        cases hs
      exact ⟨fun hn => absurd hp hn, fun _ => by rw [if_neg hclr, hp]⟩
    · exact ⟨fun _ => .inl rfl, fun hf => absurd hf hp⟩
    · have hcomp := completes_of_done hd
      refine ⟨fun hp => .inr (hcomp.phase_eq (hm hp)), fun hp => ?_⟩
      rcases hcomp.of_served (hs hp) with ⟨rfl, rfl⟩ | ⟨rfl, rfl⟩ | ⟨n, v, rfl, -, rfl⟩
      · exact hp
      · rfl
      · exact hp
    · refine ⟨fun _ => .inl rfl, fun hp => ?_⟩
      exact absurd (hs hp) (by rw [(raises_of_raise hr).not_served]; decide)
  · rw [step_of_reset_input hs] at h
    cases h
    rfl

/-! ### Registers and buffers -/

/-- The rows of R21, column "written by", and of R37 to R40, and what no command writes: what a change between two states says of the
command. -/
def WrittenByRow (m : Mnemonic) (s t : State) : Prop :=
  (t.total ≠ s.total → m ∈ [.sett, .clr]) ∧
  (t.data ≠ s.data → m ∈ [.setd, .clr]) ∧
  (t.nblk ≠ s.nblk → m ∈ [.setb, .clr]) ∧
  (t.ver ≠ s.ver ∨ t.ecl ≠ s.ecl → m ∈ [.sets, .clr]) ∧
  (t.slen ≠ s.slen ∨ t.dmem ≠ s.dmem → m ∈ [.push, .clr]) ∧
  (t.g1 ≠ s.g1 ∨ t.g2 ≠ s.g2 ∨ t.dg1 ≠ s.dg1 ∨ t.dg2 ≠ s.dg2 ∨ t.eclen ≠ s.eclen → m ∈ [.part, .ecrun, .clr]) ∧
  (t.bidx ≠ s.bidx ∨ t.off ≠ s.off → m ∈ [.part, .ecgen, .ecrun, .clr]) ∧
  (t.emem ≠ s.emem → m ∈ [.ecgen, .ecrun, .clr]) ∧
  (t.olen ≠ s.olen ∨ t.omem ≠ s.omem → m ∈ [.ilv, .ecrun, .clr]) ∧
  (t.mcur ≠ s.mcur ∨ t.mbest ≠ s.mbest ∨ t.mbscore ≠ s.mbscore → m ∈ [.minit, .mstep, .mrun, .clr]) ∧
  (t.mlast ≠ s.mlast ∨ t.mbuf ≠ s.mbuf → m ∈ [.mstep, .mrun, .mplace, .clr]) ∧
  t.input = s.input ∧ t.pc = s.pc ∧ t.placeAnswers = s.placeAnswers ∧ t.penAnswers = s.penAnswers

theorem writtenByRow_refl (m : Mnemonic) (s : State) : WrittenByRow m s s := by simp [WrittenByRow]

theorem ChangesOnlyInterleaver.writtenByRow {s t : State} (h : ChangesOnlyInterleaver s t) : WrittenByRow .ecrun s t := by
  rw [h]
  simp [WrittenByRow]

theorem ChangesOnlyEvaluator.writtenByRow {s t : State} (h : ChangesOnlyEvaluator s t) : WrittenByRow .mrun s t := by
  rw [h]
  simp [WrittenByRow]

theorem Completes.writtenByRow {i : Instr} {s t : State} (h : Completes i s t) : WrittenByRow i.mnemonic s t := by
  cases h with
  | responding hi v => exact writtenByRow_refl _ s
  | ecrun ht hp => exact ht.frame.writtenByRow
  | mrun ht => exact ht.frame.writtenByRow
  | part | ecgen | ilv | minit => simp [WrittenByRow, Instr.mnemonic, parted, blockEncoded, streamComplete, evaluationStarted]
  | _ => simp [WrittenByRow, Instr.mnemonic]

theorem Raises.writtenByRow {i : Instr} {s u : State} {c : Cause} (h : Raises i s c u) : WrittenByRow i.mnemonic s u := by
  cases h with
  | unchanged => exact writtenByRow_refl _ s
  | unset => exact writtenByRow_refl _ s
  | ilv hm => simp [WrittenByRow, Instr.mnemonic]
  | ecrun hu => exact hu.frame.writtenByRow
  | mrun hu => exact hu.frame.writtenByRow

theorem exec_writtenByRow {i : Instr} {s t : State} (h : exec i s = .next t) : WrittenByRow i.mnemonic s t := by
  obtain ⟨-, -, rfl⟩ | ⟨-, -, rfl⟩ | ⟨-, -, hd | ⟨c, u, hr, rfl⟩⟩ := exec_cases h
  · exact writtenByRow_refl _ t
  · exact writtenByRow_refl _ s
  · exact (completes_of_done hd).writtenByRow
  · exact (raises_of_raise hr).writtenByRow

/-- Only CLR touches the fault record without a fault (R23). -/
theorem Completes.fault_record {i : Instr} {s t : State} (h : Completes i s t) (hi : i ≠ .clr) :
    t.fcause = s.fcause ∧ t.fcmd = s.fcmd := by
  cases h with
  | clr => exact absurd rfl hi
  | ecrun ht hp => exact ⟨ht.frame.fcause_eq, ht.frame.fcmd_eq⟩
  | mrun ht => exact ⟨ht.frame.fcause_eq, ht.frame.fcmd_eq⟩
  | _ => exact ⟨rfl, rfl⟩

theorem exec_fault_record {i : Instr} {s t : State} (h : exec i s = .next t) :
    t.fcmd ≠ s.fcmd ∨ t.fcause ≠ s.fcause → t.phase = .fault ∨ i = .clr := by
  intro hne
  obtain ⟨-, -, rfl⟩ | ⟨-, -, rfl⟩ | ⟨-, -, hd | ⟨c, u, hr, rfl⟩⟩ := exec_cases h
  · simp at hne
  · exact .inl rfl
  · by_cases hi : i = .clr
    · exact .inr hi
    · obtain ⟨hcause, hcmd⟩ := (completes_of_done hd).fault_record hi
      simp [hcause, hcmd] at hne
  · exact .inl rfl

/-- Settles O17: every row of the table at once, over all a command leads to. -/
theorem registersWrittenBy : Obligations.RegistersWrittenBy :=
  fun _ _ _ h => ⟨exec_fault_record h, exec_writtenByRow h⟩

/-- A command word the block takes changes neither `pc` nor what the host still sends (R27, R47). -/
theorem takeWord_streams {w : Word} {s t : State} (h : takeWord w s = .next t) : t.pc = s.pc ∧ t.input = s.input := by
  unfold takeWord at h
  split at h
  · obtain ⟨-, -, -, -, -, -, -, -, -, -, -, hinput, hpc, -⟩ := exec_writtenByRow h
    exact ⟨hpc, hinput⟩
  · cases h
    unfold illegalWord
    split <;> exact ⟨rfl, rfl⟩

/-- Settles O9: the step counts the word before it takes it. -/
theorem pcCountsWords : Obligations.PcCountsWords := by
  intro s t w rest hs h
  rw [step_of_command_input hs] at h
  exact takeWord_streams h

/-! ### Flags -/

/-- What a change of a flag says of the command (R28). -/
def FlagRow (m : Mnemonic) (s t : State) : Prop :=
  (t.vset ≠ s.vset → m = if t.vset then .sets else .clr) ∧
  (t.mbestv ≠ s.mbestv → m ∈ if t.mbestv then [.mstep, .mrun] else [.clr, .minit, .mrun]) ∧
  (t.mlastv ≠ s.mlastv → m ∈ if t.mlastv then [.mstep, .mrun, .mplace] else [.clr]) ∧
  (t.mfinal ≠ s.mfinal → m ∈ if t.mfinal then [.mplace] else [.clr, .minit, .mstep, .mrun])

theorem flagRow_refl (m : Mnemonic) (s : State) : FlagRow m s s := by simp [FlagRow]

theorem ChangesOnlyInterleaver.flagRow {s t : State} (h : ChangesOnlyInterleaver s t) (m : Mnemonic) : FlagRow m s t := by
  rw [h]
  exact flagRow_refl m s

theorem Trials.flagRow {s t : State} {k : Nat} (h : Trials s k t) : FlagRow .mrun s t := by
  have hvset : t.vset = s.vset := h.frame.vset_eq
  refine ⟨fun hne => absurd hvset hne, fun _ => ?_, fun hne => ?_, fun _ => by simp [h.mfinal_eq]⟩
  · split <;> decide
  · cases ht : t.mlastv with
    | true => decide
    | false =>
      have hs : s.mlastv = true := by simpa [ht] using hne
      simp [h.mlastv_stays hs] at ht

theorem Completes.flagRow {i : Instr} {s t : State} (h : Completes i s t) : FlagRow i.mnemonic s t := by
  cases h with
  | clr | sets | minit | mplace => simp [FlagRow, Instr.mnemonic, evaluationStarted]
  | mstep matrix =>
    simp only [FlagRow, recordTrial_mbestv_eq_true]
    simp [Instr.mnemonic]
  | ecrun ht hp => exact ht.frame.flagRow _
  | mrun ht => exact ht.flagRow
  | _ => exact flagRow_refl _ s

theorem Raises.flagRow {i : Instr} {s u : State} {c : Cause} (h : Raises i s c u) : FlagRow i.mnemonic s u := by
  cases h with
  | ecrun hu => exact hu.frame.flagRow _
  | mrun hu => exact hu.flagRow
  | _ => exact flagRow_refl _ s

theorem exec_flagRow {i : Instr} {s t : State} (h : exec i s = .next t) : FlagRow i.mnemonic s t := by
  obtain ⟨-, -, rfl⟩ | ⟨-, -, rfl⟩ | ⟨-, -, hd | ⟨c, u, hr, rfl⟩⟩ := exec_cases h
  · exact flagRow_refl _ t
  · exact flagRow_refl _ s
  · exact (completes_of_done hd).flagRow
  · exact (raises_of_raise hr).flagRow

/-- A command outside phase FAULT that ends outside it was permitted and completed. -/
theorem completes_of_no_fault {i : Instr} {s t : State} (h : exec i s = .next t) (hs : s.phase ≠ .fault) (ht : t.phase ≠ .fault) :
    permitted i.mnemonic s.phase = true ∧ Completes i s t := by
  obtain ⟨hp, -⟩ | ⟨-, -, rfl⟩ | ⟨-, hm, hd | ⟨c, u, hr, rfl⟩⟩ := exec_cases h
  · exact absurd hp hs
  · exact absurd rfl ht
  · exact ⟨hm hs, completes_of_done hd⟩
  · exact absurd rfl ht

theorem exec_clr (s : State) : exec .clr s = .next (clearBlock s) := by
  rw [exec_eq_runCommand]
  by_cases hp : s.phase = .fault
  · simp [runCommand, hp, servedInFault, pseudocode]
  · simp [runCommand, hp, permitted, Instr.mnemonic, pseudocode]

/-- The flags after the commands that set them (R28). -/
theorem Completes.flags {i : Instr} {s t : State} (h : Completes i s t) :
    (i.mnemonic = .sets → t.vset = true) ∧
    (i = .minit → t.mbestv = false ∧ t.mfinal = false) ∧
    (i = .mstep ∨ i = .mrun → t.mbestv = true ∧ t.mlastv = true ∧ t.mfinal = false) ∧
    (i = .mplace → t.mlastv = true ∧ t.mfinal = true) := by
  cases h with
  | responding hi v =>
    exact ⟨fun hm => by simp [responds, hm] at hi, fun h => by simp [h, responds, Instr.mnemonic] at hi,
      fun h => by rcases h with h | h <;> simp [h, responds, Instr.mnemonic] at hi,
      fun h => by simp [h, responds, Instr.mnemonic] at hi⟩
  | mstep matrix => exact ⟨nofun, nofun, fun _ => ⟨recordTrial_mbestv_eq_true _ _ s, rfl, rfl⟩, nofun⟩
  | mrun ht =>
    obtain ⟨hbest, hlast⟩ := ht.tried (by decide)
    exact ⟨nofun, nofun, fun _ => ⟨hbest, hlast, ht.mfinal_eq⟩, nofun⟩
  | _ => simp [Instr.mnemonic, evaluationStarted]

/-- Settles O18: a changed flag names its commands, and a command that completes leaves the flags of its rule. -/
theorem flagsSetAndCleared : Obligations.FlagsSetAndCleared := by
  intro i s t h
  obtain ⟨hvset, hmbestv, hmlastv, hmfinal⟩ := exec_flagRow h
  refine ⟨hvset, hmbestv, hmlastv, hmfinal, ?_, fun hs ht => (completes_of_no_fault h hs ht).2.flags⟩
  rintro rfl
  rw [exec_clr] at h
  cases h
  exact ⟨rfl, rfl, rfl, rfl⟩

/-! ### Responses -/

theorem Completes.rsp_of_not_responds {i : Instr} {s t : State} (h : Completes i s t) (hi : responds i = false) : t.rsp = s.rsp := by
  cases h with
  | responding hi' v => simp [hi] at hi'
  | ecrun ht hp => exact ht.frame.rsp_eq
  | mrun ht => exact ht.frame.rsp_eq
  | _ => rfl

theorem Completes.rsp_of_responds {i : Instr} {s t : State} (h : Completes i s t) (hi : responds i = true) :
    ∃ v, t.rsp = s.rsp ++ [v] := by
  cases h with
  | responding _ v => exact ⟨v, rfl⟩
  | _ => cases hi

theorem Raises.rsp_eq {i : Instr} {s u : State} {c : Cause} (h : Raises i s c u) : u.rsp = s.rsp := by
  cases h with
  | ecrun hu => exact hu.frame.rsp_eq
  | mrun hu => exact hu.frame.rsp_eq
  | _ => rfl

/-- R46: a command responds exactly once where it completes and is one that responds, and not at all otherwise. -/
theorem exec_rsp_cases {i : Instr} {s t : State} (h : exec i s = .next t) :
    t.rsp = s.rsp ∨ responds i = true ∧ Completes i s t := by
  obtain ⟨-, -, rfl⟩ | ⟨-, -, rfl⟩ | ⟨-, -, hd | ⟨c, u, hr, rfl⟩⟩ := exec_cases h
  · exact .inl rfl
  · exact .inl rfl
  · cases hi : responds i with
    | true => exact .inr ⟨rfl, completes_of_done hd⟩
    | false => exact .inl ((completes_of_done hd).rsp_of_not_responds hi)
  · exact .inl (raises_of_raise hr).rsp_eq

/-- Settles O19: a response is made exactly where a command that responds completes, which ends outside FAULT when it starts there. -/
theorem oneResponse : Obligations.OneResponse := by
  refine ⟨fun i s t h => ⟨fun hi => ?_, fun hi hs ht => ?_, fun hs ht => ?_, fun hs => ?_⟩, fun s t rest hs h => ?_⟩
  · rcases exec_rsp_cases h with hrsp | ⟨hi', -⟩
    · exact hrsp
    · simp [hi] at hi'
  · exact (completes_of_no_fault h hs ht).2.rsp_of_responds hi
  · obtain ⟨hp, -⟩ | ⟨-, -, rfl⟩ | ⟨-, hm, hd | ⟨c, u, hr, rfl⟩⟩ := exec_cases h
    · exact absurd hp hs
    · rfl
    · rw [(completes_of_done hd).phase_eq (hm hs)] at ht
      exact absurd ht (phaseAfter_ne_fault _ hs)
    · exact (raises_of_raise hr).rsp_eq
  · obtain ⟨-, -, rfl⟩ | ⟨hp, -⟩ | ⟨hserved, -, hd | ⟨c, u, hr, rfl⟩⟩ := exec_cases h
    · exact .inl rfl
    · exact absurd hs hp
    · rcases (completes_of_done hd).of_served (hserved hs) with ⟨-, rfl⟩ | ⟨-, rfl⟩ | ⟨n, v, hi, hn, rfl⟩
      · exact .inl rfl
      · exact .inl rfl
      · exact .inr ⟨n, v, hi, hn, rfl⟩
    · exact .inl (raises_of_raise hr).rsp_eq
  · rw [step_of_reset_input hs] at h
    cases h
    rfl

/-! ### The buffers' canonical form -/

theorem Completes.canonical {i : Instr} {s t : State} (h : Completes i s t) (hs : Canonical s) : Canonical t := by
  cases h with
  | clr => exact ⟨rfl, rfl, rfl⟩
  | push v hlt => exact { hs with dmem_wf := Memory.write_wf v hs.dmem_wf (by simp only [Config.cells]; omega) }
  | ecgen hm => exact { hs with emem_wf := writeSlice_wf hs.emem_wf hm }
  | ilv hm => exact { hs with omem_wf := writeSlice_wf hs.omem_wf hm }
  | ecrun ht hp => exact ht.keepsCanonical hs
  | mrun ht =>
    rw [ht.frame]
    exact { hs with }
  | _ => exact { hs with }

theorem Raises.canonical {i : Instr} {s u : State} {c : Cause} (h : Raises i s c u) (hs : Canonical s) : Canonical u := by
  cases h with
  | unchanged => exact hs
  | unset => exact hs
  | ilv hm => exact { hs with omem_wf := writeSlice_wf hs.omem_wf hm }
  | ecrun hu => exact hu.keepsCanonical hs
  | mrun hu =>
    rw [hu.frame]
    exact { hs with }

theorem exec_canonical {i : Instr} {s t : State} (h : exec i s = .next t) (hs : Canonical s) : Canonical t := by
  obtain ⟨-, -, rfl⟩ | ⟨-, -, rfl⟩ | ⟨-, -, hd | ⟨c, u, hr, rfl⟩⟩ := exec_cases h
  · exact hs
  · exact { hs with }
  · exact (completes_of_done hd).canonical hs
  · exact { (raises_of_raise hr).canonical hs with }

theorem takeWord_canonical {w : Word} {s t : State} (h : takeWord w s = .next t) (hs : Canonical s) : Canonical t := by
  unfold takeWord at h
  split at h
  · exact exec_canonical h hs
  · cases h
    unfold illegalWord
    split
    · exact hs
    · exact { hs with }

/-- Settles O24, by cases on the host's next transaction. -/
theorem stepKeepsBuffersCanonical : Obligations.StepKeepsBuffersCanonical := by
  intro s t hdmem hemem homem h
  have hs : Canonical s := ⟨hdmem, hemem, homem⟩
  have ht : Canonical t := by
    unfold step at h
    split at h
    · cases h
      exact hs
    · cases h
      exact ⟨rfl, rfl, rfl⟩
    · exact takeWord_canonical h { hs with }
  exact ⟨ht.dmem_wf, ht.emem_wf, ht.omem_wf⟩

/-! ### Reset (R45, R46) -/

theorem resetValues_clearBlock (s : State) : ResetValues (clearBlock s) :=
  ⟨rfl, ⟨rfl, rfl, rfl, rfl⟩, ⟨rfl, rfl⟩, ⟨rfl, rfl, rfl⟩, ⟨rfl, rfl⟩, ⟨rfl, rfl, rfl, rfl, rfl, rfl, rfl, rfl, rfl⟩,
    ⟨rfl, rfl, rfl, rfl⟩, fun _ => ⟨rfl, rfl, rfl⟩, show statusWord State.reset = 0 by decide⟩

/-- Settles O6: reset, CLR and the reset input all clear the block. -/
theorem resetLeavesResetValues : Obligations.ResetLeavesResetValues :=
  ⟨resetValues_clearBlock State.reset, fun s => ⟨_, exec_clr s, resetValues_clearBlock s⟩,
    fun _ _ hs => ⟨_, step_of_reset_input hs, resetValues_clearBlock _⟩⟩

/-- With nothing from the host the block is idle (R206). -/
theorem step_of_no_input {s : State} (hs : s.input = []) : step s = .next s := by
  simp only [step, hs]

/-- Settles O7: `clearBlock` names what it leaves. -/
theorem streamsAreTheHosts : Obligations.StreamsAreTheHosts :=
  ⟨exec_clr, fun _ _ hs => step_of_reset_input hs, fun _ => step_of_no_input⟩

/-! ### STATUS (R22) -/

theorem flagBit_toNat (b : Bool) {k : Nat} (hk : k < 32) : (flagBit b k).toNat = 2 ^ k * b.toNat := by
  have hpow : 2 ^ k < 2 ^ 32 := Nat.pow_lt_pow_right (by decide) hk
  cases b
  · simp [flagBit]
  · simpa [flagBit, Nat.shiftLeft_eq] using hpow

/-- A field below the others joins them by addition. -/
theorem toNat_or_low {w x : Word} {k a : Nat} (hw : w.toNat = 2 ^ k * a) (hx : x.toNat < 2 ^ k) :
    (w ||| x).toNat = 2 ^ k * a + x.toNat := by
  rw [BitVec.toNat_or, hw, Nat.two_pow_add_eq_or_of_lt hx]

/-- A flag just below the fields already there. -/
theorem toNat_or_flagBit {w : Word} {k a : Nat} (hk : k < 32) (hw : w.toNat = 2 ^ (k + 1) * a) (b : Bool) :
    (w ||| flagBit b k).toNat = 2 ^ k * (2 * a + b.toNat) := by
  have hpos : 0 < 2 ^ k := Nat.two_pow_pos k
  have hflag : (flagBit b k).toNat < 2 ^ (k + 1) := by
    rw [flagBit_toNat b hk, Nat.pow_succ]
    exact Nat.mul_lt_mul_of_pos_left b.toNat_lt hpos
  rw [toNat_or_low hw hflag, flagBit_toNat b hk]
  ring

theorem statusWord_toNat (s : State) : (statusWord s).toNat =
    s.phase.code.toNat + 2 ^ 4 * s.vset.toNat + 2 ^ 5 * s.mbestv.toNat + 2 ^ 6 * s.mfinal.toNat + 2 ^ 7 * s.mlastv.toNat +
      2 ^ 8 * s.fcause.code.toNat := by
  have hcode := s.fcause.code.isLt
  have hcause : (s.fcause.code.setWidth 32 <<< 8).toNat = 2 ^ (7 + 1) * s.fcause.code.toNat := by
    rw [BitVec.toNat_shiftLeft, BitVec.toNat_setWidth, Nat.shiftLeft_eq]
    omega
  have hmlastv := toNat_or_flagBit (by decide) hcause s.mlastv
  have hmfinal := toNat_or_flagBit (by decide) hmlastv s.mfinal
  have hmbestv := toNat_or_flagBit (by decide) hmfinal s.mbestv
  have hvset := toNat_or_flagBit (by decide) hmbestv s.vset
  have hlow := s.phase.code.isLt
  have hphase : (s.phase.code.setWidth 32).toNat = s.phase.code.toNat := by
    rw [BitVec.toNat_setWidth]
    omega
  rw [statusWord, toNat_or_low hvset (by rw [hphase]; omega), hphase]
  ring

/-- Settles O33: the fields of STATUS do not overlap, so joining them adds them up. -/
theorem statusFields : Obligations.StatusFields := ⟨statusWord_toNat, by decide, by decide⟩

/-! ### Reads and outputs under the invariant -/

/-- A permitted read below its bound responds its cell (R107). -/
theorem exec_read_of_filled {i : Instr} {b : Buffer} {s : State} {n : Nat} {a : Len} (hp : s.phase ≠ .fault)
    (hm : permitted i.mnemonic s.phase = true) (hi : pseudocode i s = opReadBuffer b n a s)
    (hf : holdsExactly (bufferOf s b) n) (ha : a.toNat < n) :
    ∃ v : Byte, Memory.read (bufferOf s b) a.toNat = some v ∧
      exec i s = .next { s with rsp := s.rsp ++ [BitVec.ofNat 32 v.toNat] } := by
  obtain ⟨v, hv, hd⟩ := opReadBuffer_of_filled hf ha
  refine ⟨v, hv, ?_⟩
  rw [exec_permitted hp hm, hi, hd, BitVec.ofNat_toNat]
  rfl

/-- Settles O37: each buffer is filled up to the bound of its read. -/
theorem readsComplete : Obligations.ReadsComplete := by
  refine fun s a h => ⟨fun hp ha => ?_, fun hp hl ha => ?_, fun hi ha => ?_⟩
  · exact exec_read_of_filled (b := .dmem) hp (by simp [permitted, Instr.mnemonic, hp]) rfl h.dmem_filled ha
  · exact exec_read_of_filled (b := .emem) hp (by simp [permitted, Instr.mnemonic, hp, hl]) rfl h.emem_filled ha
  · have hp : s.phase ≠ .fault := fun hf => by simp [hf, Phase.interleaved] at hi
    exact exec_read_of_filled (b := .omem) hp hi rfl h.omem_filled (by rwa [h.olen_total hi])

theorem Inv.mfinal_iff {s : State} (h : Inv s) (hp : s.phase ≠ .fault) : s.mfinal = true ↔ s.phase = .final := by
  cases hphase : s.phase with
  | load | parted | ecdone | outv => simp [(h.unevaluated (by simp [hphase])).mfinal_eq]
  | masking =>
    obtain ⟨-, hmfinal, -⟩ := h.masking hphase
    simp [hmfinal]
  | mdone =>
    obtain ⟨-, hmfinal, -⟩ := h.mdone hphase
    simp [hmfinal]
  | final =>
    obtain ⟨-, hmfinal, -⟩ := h.final hphase
    simp [hmfinal]
  | fault => exact absurd hphase hp

theorem streamOutput_of_interleaved {s : State} (h : Inv s) (hi : s.phase.interleaved = true) :
    ∃ bytes, streamOutput s = some bytes ∧ bytes.length = s.total.toNat ∧
      ∀ j : Nat, j < bytes.length → Memory.read s.omem j = bytes[j]? := by
  obtain ⟨bytes, hbytes⟩ := readSlice_of_filled .omem h.omem_filled (Nat.zero_add _).le s.olen.isLt.le
  obtain ⟨hlength, hcells⟩ := (readSlice_ok_iff ..).mp hbytes
  refine ⟨bytes, by rw [streamOutput, if_pos hi, hbytes]; rfl, by rw [hlength, h.olen_total hi], fun j hj => ?_⟩
  simpa using (hcells j (hlength ▸ hj)).2

theorem symbolOutput_of_final {s : State} (h : Inv s) (hp : s.phase = .final) :
    ∃ matrix, symbolOutput s = some ⟨s.ver, s.ecl, s.mbest, matrix⟩ ∧ s.mbuf = some matrix ∧
      placementOf s s.mbest = some matrix := by
  obtain ⟨-, -, -, hlastv, hlast⟩ := h.final hp
  obtain ⟨hne, hplaced⟩ := h.matrix_held hlastv
  obtain ⟨matrix, hm⟩ := Option.ne_none_iff_exists'.mp hne
  exact ⟨matrix, by simp [symbolOutput, hp, hm], hm, by rw [← hlast, ← hplaced, hm]⟩

theorem symbolOutput_eq_none {s : State} (hp : s.phase ≠ .final) : symbolOutput s = none := if_neg hp

/-- Settles O26: OMEM is filled up to OLEN = TOTAL, and in FINAL MLAST is MBEST, under which MBUF was placed. -/
theorem outputsAreComplete : Obligations.OutputsAreComplete := fun s h =>
  ⟨streamOutput_of_interleaved h, symbolOutput_of_final h, symbolOutput_eq_none,
    fun hp => ⟨by simp [streamOutput, hp, Phase.interleaved], symbolOutput_eq_none (by simp [hp])⟩, h.mfinal_iff⟩

end Sys2Proof.Machine
end

section
/-! PROOFS. 30_encoding.md: the decoder and the encoder agree, which words are commands, and the assembler's pseudo-instructions. A
word is its `op` (bits 31:24) and its lower 24 bits, `w.toNat % 2 ^ 24`, in which the operands of a command are one number. -/

namespace Sys2Proof

/-! ### The fields of a word as numbers (R80 to R85) -/

theorem toNat_opField (w : Word) : (opField w).toNat = w.toNat / 2 ^ 24 := by
  rw [opField, BitVec.extractLsb'_toNat, Nat.shiftRight_eq_div_pow]
  omega

@[simp] theorem toNat_imm12Field (w : Word) : (imm12Field w).toNat = w.toNat % 2 ^ 12 := BitVec.extractLsb'_toNat ..

@[simp] theorem toNat_imm8Field (w : Word) : (imm8Field w).toNat = w.toNat % 2 ^ 8 := BitVec.extractLsb'_toNat ..

@[simp] theorem toNat_a8Field (w : Word) : (a8Field w).toNat = w.toNat / 2 ^ 8 % 2 ^ 8 := by
  rw [a8Field, BitVec.extractLsb'_toNat, Nat.shiftRight_eq_div_pow]

@[simp] theorem toNat_b8Field (w : Word) : (b8Field w).toNat = w.toNat % 2 ^ 8 := BitVec.extractLsb'_toNat ..

theorem word_ext {w v : Word} (hop : opField w = opField v) (hlow : w.toNat % 2 ^ 24 = v.toNat % 2 ^ 24) : w = v := by
  have hhigh : w.toNat / 2 ^ 24 = v.toNat / 2 ^ 24 := by rw [← toNat_opField, ← toNat_opField, hop]
  apply BitVec.eq_of_toNat_eq
  omega

/-- One more than the largest operand number of a format: what its zero field leaves room for (R81 to R84). -/
def Format.operandBound : Format → Nat
  | .z => 1
  | .i12 => 2 ^ 12
  | .i8 => 2 ^ 8
  | .p => 2 ^ 16

theorem Format.operandBound_dvd (f : Format) : f.operandBound ∣ 2 ^ 24 := by
  cases f <;> decide

theorem zeroFieldClear_iff (f : Format) (w : Word) : zeroFieldClear f w = true ↔ w.toNat % 2 ^ 24 < f.operandBound := by
  cases f <;>
    simp only [zeroFieldClear, Format.operandBound, beq_iff_eq, ← BitVec.toNat_inj, BitVec.extractLsb'_toNat,
      Nat.shiftRight_eq_div_pow, BitVec.ofNat_eq_ofNat, BitVec.toNat_ofNat] <;>
    omega

/-! ### The operands of a command as one number -/

/-- The lower 24 bits of a command's word (`toNat_encode_mod`). -/
def Instr.operandNumber : Instr → Nat
  | .sett n | .setd n | .setb n | .rdd n | .rde n | .rdo n => n.toNat
  | .push v | .rdr v | .gfexp v | .gflog v | .gfinv v => v.toNat
  | .sets a b | .gfadd a b | .gfmul a b => 2 ^ 8 * a.toNat + b.toNat
  | .nop | .clr | .part | .ecgen | .ilv | .ecrun | .minit | .mstep | .mrun | .mplace => 0

theorem Instr.operandNumber_lt (i : Instr) : i.operandNumber < i.mnemonic.format.operandBound := by
  cases i with
  | nop | clr | part | ecgen | ilv | ecrun | minit | mstep | mrun | mplace => exact Nat.one_pos
  | sett n | setd n | setb n | rdd n | rde n | rdo n => exact n.isLt
  | push v | rdr v | gfexp v | gflog v | gfinv v => exact v.isLt
  | sets a b | gfadd a b | gfmul a b =>
    show 2 ^ 8 * a.toNat + b.toNat < 2 ^ 16
    omega

theorem mnemonic_withOperands (m : Mnemonic) (w : Word) : (withOperands m w).mnemonic = m := by
  cases m <;> rfl

theorem operandNumber_withOperands (m : Mnemonic) (w : Word) :
    (withOperands m w).operandNumber = w.toNat % m.format.operandBound := by
  cases m with
  | nop | clr | part | ecgen | ilv | ecrun | minit | mstep | mrun | mplace => exact (Nat.mod_one _).symm
  | sett | setd | setb | rdd | rde | rdo => exact toNat_imm12Field w
  | push | rdr | gfexp | gflog | gfinv => exact toNat_imm8Field w
  | sets | gfadd | gfmul =>
    show 2 ^ 8 * (a8Field w).toNat + (b8Field w).toNat = w.toNat % 2 ^ 16
    rw [toNat_a8Field, toNat_b8Field]
    omega

theorem imm12Field_eq {w : Word} {n : BitVec 12} (h : w.toNat % 2 ^ 12 = n.toNat) : imm12Field w = n :=
  BitVec.eq_of_toNat_eq ((toNat_imm12Field w).trans h)

theorem imm8Field_eq {w : Word} {v : BitVec 8} (h : w.toNat % 2 ^ 8 = v.toNat) : imm8Field w = v :=
  BitVec.eq_of_toNat_eq ((toNat_imm8Field w).trans h)

theorem pairFields_eq {w : Word} {a b : BitVec 8} (h : w.toNat % 2 ^ 16 = 2 ^ 8 * a.toNat + b.toNat) :
    a8Field w = a ∧ b8Field w = b := by
  constructor <;> apply BitVec.eq_of_toNat_eq <;> simp only [toNat_a8Field, toNat_b8Field] <;> omega

/-- The operand number gives the operands back. -/
theorem withOperands_eq {i : Instr} {w : Word} (h : w.toNat % i.mnemonic.format.operandBound = i.operandNumber) :
    withOperands i.mnemonic w = i := by
  cases i with
  | nop | clr | part | ecgen | ilv | ecrun | minit | mstep | mrun | mplace => rfl
  | sett | setd | setb | rdd | rde | rdo => exact congrArg _ (imm12Field_eq h)
  | push | rdr | gfexp | gflog | gfinv => exact congrArg _ (imm8Field_eq h)
  | sets | gfadd | gfmul =>
    obtain ⟨ha, hb⟩ := pairFields_eq h
    exact congrArg₂ _ ha hb

/-! ### The word of a command (R81 to R84) -/

/-- The opcode bits leave the lower 24 bits alone. -/
theorem toNat_opcodeBits_or_mod (m : Mnemonic) {x : Word} (hx : x.toNat < 2 ^ 24) :
    (opcodeBits m ||| x).toNat % 2 ^ 24 = x.toNat := by
  have hop : (opcodeBits m).toNat % 2 ^ 24 = 0 := by
    rw [opcodeBits, BitVec.toNat_shiftLeft, Nat.shiftLeft_eq]
    omega
  rw [BitVec.toNat_or, Nat.or_mod_two_pow, hop, Nat.zero_or, Nat.mod_eq_of_lt hx]

theorem toNat_encodeZ_mod (m : Mnemonic) : (encodeZ m).toNat % 2 ^ 24 = 0 := by
  simpa [encodeZ] using toNat_opcodeBits_or_mod m (x := 0) (by decide)

theorem toNat_encodeI12_mod (m : Mnemonic) (n : BitVec 12) : (encodeI12 m n).toNat % 2 ^ 24 = n.toNat := by
  have hn : (n.setWidth 32).toNat = n.toNat := BitVec.toNat_setWidth_of_le (by decide)
  rw [encodeI12, toNat_opcodeBits_or_mod m (by omega), hn]

theorem toNat_encodeI8_mod (m : Mnemonic) (v : BitVec 8) : (encodeI8 m v).toNat % 2 ^ 24 = v.toNat := by
  have hv : (v.setWidth 32).toNat = v.toNat := BitVec.toNat_setWidth_of_le (by decide)
  rw [encodeI8, toNat_opcodeBits_or_mod m (by omega), hv]

theorem toNat_pair (a b : BitVec 8) : (a.setWidth 32 <<< 8 ||| b.setWidth 32 : Word).toNat = 2 ^ 8 * a.toNat + b.toNat := by
  have ha : (a.setWidth 32).toNat = a.toNat := BitVec.toNat_setWidth_of_le (by decide)
  have hb : (b.setWidth 32).toNat = b.toNat := BitVec.toNat_setWidth_of_le (by decide)
  have hshift : (a.setWidth 32 <<< 8 : Word).toNat = 2 ^ 8 * a.toNat := by
    rw [BitVec.toNat_shiftLeft, ha, Nat.shiftLeft_eq]
    omega
  rw [BitVec.toNat_or, hshift, hb, Nat.two_pow_add_eq_or_of_lt b.isLt]

theorem toNat_encodeP_mod (m : Mnemonic) (a b : BitVec 8) :
    (encodeP m a b).toNat % 2 ^ 24 = 2 ^ 8 * a.toNat + b.toNat := by
  have hpair := toNat_pair a b
  rw [encodeP, BitVec.or_assoc, toNat_opcodeBits_or_mod m (by omega), hpair]

theorem opField_encode (i : Instr) : opField (encode i) = i.mnemonic.opcode := by
  cases i with
  | nop | clr | part | ecgen | ilv | ecrun | minit | mstep | mrun | mplace => exact Laws.opField_encodeZ _
  | sett | setd | setb | rdd | rde | rdo => exact Laws.opField_encodeI12 _ _
  | push | rdr | gfexp | gflog | gfinv => exact Laws.opField_encodeI8 _ _
  | sets | gfadd | gfmul => exact Laws.opField_encodeP _ _ _

theorem toNat_encode_mod (i : Instr) : (encode i).toNat % 2 ^ 24 = i.operandNumber := by
  cases i with
  | nop | clr | part | ecgen | ilv | ecrun | minit | mstep | mrun | mplace => exact toNat_encodeZ_mod _
  | sett | setd | setb | rdd | rde | rdo => exact toNat_encodeI12_mod _ _
  | push | rdr | gfexp | gflog | gfinv => exact toNat_encodeI8_mod _ _
  | sets | gfadd | gfmul => exact toNat_encodeP_mod _ _ _

theorem zeroFieldClear_encode (i : Instr) : zeroFieldClear i.mnemonic.format (encode i) = true := by
  rw [zeroFieldClear_iff, toNat_encode_mod]
  exact i.operandNumber_lt

theorem withOperands_encode (i : Instr) : withOperands i.mnemonic (encode i) = i := by
  apply withOperands_eq
  rw [← Nat.mod_mod_of_dvd _ i.mnemonic.format.operandBound_dvd, toNat_encode_mod, Nat.mod_eq_of_lt i.operandNumber_lt]

/-- A clear zero field leaves nothing in a word but its `op` and its operands. -/
theorem encode_withOperands {m : Mnemonic} {w : Word} (hop : m.opcode = opField w)
    (hz : zeroFieldClear m.format w = true) : encode (withOperands m w) = w := by
  apply word_ext
  · rw [opField_encode, mnemonic_withOperands, hop]
  · rw [toNat_encode_mod, operandNumber_withOperands, ← Nat.mod_mod_of_dvd _ m.format.operandBound_dvd,
      Nat.mod_eq_of_lt ((zeroFieldClear_iff ..).mp hz)]

/-! ### Decoding (R87) -/

theorem mnemonicOfOpcode_opcode (m : Mnemonic) : mnemonicOfOpcode m.opcode = some m := by
  cases m <;> rfl

theorem mnemonicOfOpcode_eq_none {op : BitVec 8} (h : ∀ m : Mnemonic, m.opcode ≠ op) : mnemonicOfOpcode op = none :=
  List.find?_eq_none.mpr fun m _ => by simpa using h m

theorem decode_of_assigned {m : Mnemonic} {w : Word} (hop : m.opcode = opField w) :
    decode w = if zeroFieldClear m.format w then .command (withOperands m w) else .illegal .zeroFieldSet := by
  rw [decode, ← hop, mnemonicOfOpcode_opcode]

theorem decode_of_unassigned {w : Word} (h : ∀ m : Mnemonic, m.opcode ≠ opField w) : decode w = .illegal .unassignedOpcode := by
  rw [decode, mnemonicOfOpcode_eq_none h]

theorem decode_of_zeroFieldSet {m : Mnemonic} {w : Word} (hop : m.opcode = opField w)
    (hz : zeroFieldClear m.format w = false) : decode w = .illegal .zeroFieldSet := by
  rw [decode_of_assigned hop, hz, if_neg Bool.false_ne_true]

theorem decode_eq_command_iff (w : Word) (i : Instr) : decode w = .command i ↔
    ∃ m : Mnemonic, m.opcode = opField w ∧ zeroFieldClear m.format w = true ∧ withOperands m w = i := by
  constructor
  · intro h
    by_cases hop : ∃ m : Mnemonic, m.opcode = opField w
    · obtain ⟨m, hm⟩ := hop
      rw [decode_of_assigned hm] at h
      split at h
      · exact ⟨m, hm, ‹_›, Decoded.command.inj h⟩
      · cases h
    · rw [decode_of_unassigned (not_exists.mp hop)] at h
      cases h
  · rintro ⟨m, hm, hz, rfl⟩
    rw [decode_of_assigned hm, if_pos hz]

/-- Settles O1: the word of a command carries its opcode, a clear zero field and its operands. -/
theorem decodeOfEncode : Obligations.DecodeOfEncode := fun i =>
  (decode_eq_command_iff _ i).mpr ⟨i.mnemonic, (opField_encode i).symm, zeroFieldClear_encode i, withOperands_encode i⟩

/-- Settles O2: a word that decodes is its row's `op` and its operands, and no more. -/
theorem encodeOfDecode : Obligations.EncodeOfDecode := by
  intro w i h
  obtain ⟨m, hop, hz, rfl⟩ := (decode_eq_command_iff w i).mp h
  exact encode_withOperands hop hz

theorem opcode_eq_opField_iff (m : Mnemonic) (w : Word) : m.opcode = opField w ↔ m.opcode.toNat = w.toNat / 2 ^ 24 := by
  rw [← toNat_opField, BitVec.toNat_inj]

theorem decode_isCommand_iff (w : Word) : (∃ i, decode w = .command i) ↔
    ∃ m : Mnemonic, m.opcode.toNat = w.toNat / 2 ^ 24 ∧ w.toNat % 2 ^ 24 < m.format.operandBound := by
  simp only [decode_eq_command_iff, ← opcode_eq_opField_iff, ← zeroFieldClear_iff]
  exact ⟨fun ⟨_, m, hop, hz, _⟩ => ⟨m, hop, hz⟩, fun ⟨m, hop, hz⟩ => ⟨_, m, hop, hz, rfl⟩⟩

/-- Settles O3: `op` and the zero field read as numbers. -/
theorem wordIsCommandIff : Obligations.WordIsCommandIff := by
  refine fun w => ⟨decode_isCommand_iff w, fun hnot => ?_⟩
  cases hd : decode w with
  | command i => exact absurd ⟨i, hd⟩ hnot
  | illegal why => exact ⟨why, rfl⟩

/-- Settles O4, by evaluation of ten words. -/
theorem sampleWordsDecode : Obligations.SampleWordsDecode := by
  unfold Obligations.SampleWordsDecode
  decide

/-! ### The pseudo-instructions (R90) -/

/-- A line stands for the lines that are well formed when it is and expand to the same commands. -/
theorem assemble_singleton_eq {l : Line} {ls : List Line} (hwf : l.wf = true ↔ ∀ x ∈ ls, x.wf = true)
    (hexp : expandLine l = ls.flatMap expandLine) : assemble [l] = assemble ls := by
  have hall : [l].all Line.wf = ls.all Line.wf := by
    rw [Bool.eq_iff_iff]
    simpa using hwf
  rw [assemble, assemble, hall, List.flatMap_singleton, hexp, List.map_flatMap]

/-- In a command of one operand a numeral is well formed when it fits the field (R89). -/
theorem wf_num_iff {m : Mnemonic} (hm : m.format = .i12 ∨ m.format = .i8) (n : Nat) :
    (Line.command m [.num n]).wf = true ↔ n < m.format.operandBound := by
  have hvalue : (Operand.num n).value = n := rfl
  rcases hm with hm | hm <;>
    simp only [Line.wf, operandCountOk, numeralsFit, levelsInPlace, registersInPlace, hm, Operand.isLevel,
      Operand.isRegister, Format.operandBound] <;>
    simp [hvalue]

theorem expandLine_num (m : Mnemonic) (n : Nat) :
    expandLine (.command m [.num n]) = [withOperands m (BitVec.ofNat 32 n)] := rfl

theorem imm12Field_ofNat (n : Nat) : imm12Field (BitVec.ofNat 32 n) = BitVec.ofNat 12 n :=
  imm12Field_eq (by rw [BitVec.toNat_ofNat, BitVec.toNat_ofNat, Nat.mod_mod_of_dvd _ (by decide)])

theorem imm8Field_ofNat (v : Nat) : imm8Field (BitVec.ofNat 32 v) = BitVec.ofNat 8 v :=
  imm8Field_eq (by rw [BitVec.toNat_ofNat, BitVec.toNat_ofNat, Nat.mod_mod_of_dvd _ (by decide)])

theorem assemble_config (t d n : Nat) : assemble [.config t d n] =
    assemble [.command .sett [.num t], .command .setd [.num d], .command .setb [.num n]] := by
  apply assemble_singleton_eq
  · rw [Line.wf]
    simp [wf_num_iff, Mnemonic.format, Format.operandBound, and_assoc]
  · rw [expandLine]
    simp [expandLine_num, withOperands, imm12Field_ofNat]

theorem assemble_pushn {bytes : List Nat} (h : bytes ≠ []) :
    assemble [.pushn bytes] = assemble (bytes.map fun b => .command .push [.num b]) := by
  apply assemble_singleton_eq
  · rw [Line.wf]
    simp [wf_num_iff, Mnemonic.format, Format.operandBound, h]
  · rw [expandLine, List.map_eq_flatMap, List.flatMap_map]
    simp [expandLine_num, withOperands, imm8Field_ofNat]

/-- The last index of a run is the largest. -/
theorem wf_rdon_iff {n : Nat} (hn : 1 ≤ n) (a : Nat) : (Line.rdon a n).wf = true ↔ ∀ j < n, a + j < 4096 := by
  simp only [Line.wf, Bool.and_eq_true, decide_eq_true_eq]
  refine ⟨fun h j hj => by omega, fun h => ?_⟩
  have hlast := h (n - 1) (by omega)
  omega

theorem assemble_rdon {n : Nat} (hn : 1 ≤ n) (a : Nat) :
    assemble [.rdon a n] = assemble ((List.range n).map fun j => .command .rdo [.num (a + j)]) := by
  apply assemble_singleton_eq
  · simp [wf_rdon_iff hn, wf_num_iff, Mnemonic.format, Format.operandBound]
  · rw [expandLine, List.map_eq_flatMap, List.flatMap_map]
    simp [expandLine_num, withOperands, imm12Field_ofNat]

/-- Settles O5: each pseudo-instruction is as well formed as its expansion, and expands to the same commands. -/
theorem pseudoInstructionsExpand : Obligations.PseudoInstructionsExpand :=
  ⟨assemble_config, fun _ => assemble_pushn, fun a _ hn => assemble_rdon hn a⟩

/-! ### Illegal words (R88) -/

namespace Machine

theorem takeWord_of_illegal {w : Word} {why : Illegal} (hw : decode w = .illegal why) (s : State) :
    takeWord w s = .next (illegalWord w s) := by
  simp only [takeWord, hw]

theorem illegalWord_of_fault {s : State} (hp : s.phase = .fault) (w : Word) : illegalWord w s = s := if_pos hp

theorem illegalWord_of_not_fault {s : State} (hp : s.phase ≠ .fault) (w : Word) :
    illegalWord w s = takeFault .illegal w s := if_neg hp

/-- Settles O10: the fault entry, the drop, and the two kinds of illegal word. -/
theorem illegalWordFaults : Obligations.IllegalWordFaults := by
  refine ⟨fun w s why hw => ⟨fun hp => ?_, fun hp => ?_⟩, fun w hop => ⟨_, decode_of_unassigned hop⟩,
    fun w m hop hz => ⟨_, decode_of_zeroFieldSet hop hz⟩⟩
  · rw [takeWord_of_illegal hw, illegalWord_of_not_fault hp]
    rfl
  · rw [takeWord_of_illegal hw, illegalWord_of_fault hp]

end Machine

end Sys2Proof
end

section
/-! PROOFS. 40_config_transfer.md: the configuration and transfer commands. Each statement has the same four parts: the zero field, the
word, the phases, and the pseudocode in a permitted phase. The first three are proved once for every command, from its row of R86. -/

namespace Sys2Proof

/-! ### The word of a command as one number (R80 to R86) -/

/-- The lowest bit of the must-be-zero field of a format, which ends at bit 23 (R81 to R84). -/
def Format.zeroFieldLow : Format → Nat
  | .z => 0
  | .i12 => 12
  | .i8 => 8
  | .p => 16

theorem zeroFieldClear_eq (f : Format) (w : Word) :
    zeroFieldClear f w = (w.extractLsb' f.zeroFieldLow (24 - f.zeroFieldLow) == 0) := by
  cases f <;> rfl

theorem toNat_encode (i : Instr) : (encode i).toNat = 2 ^ 24 * i.mnemonic.opcode.toNat + i.operandNumber := by
  have hhigh : i.mnemonic.opcode.toNat = (encode i).toNat / 2 ^ 24 := by rw [← opField_encode, toNat_opField]
  have hlow := toNat_encode_mod i
  omega

namespace Machine

/-! ### The checks around a command (R16, R25, R88) -/

theorem zeroFieldIllegal_row (m : Mnemonic) : zeroFieldIllegal m.opcode m.format.zeroFieldLow := by
  intro w s hop hz
  have hclear : zeroFieldClear m.format w = false := by rwa [zeroFieldClear_eq, beq_eq_false_iff_ne]
  exact illegalWordFaults.1 w s _ (decode_of_zeroFieldSet hop.symm hclear)

theorem onlyIn_permissionRow {i : Instr} (hs : servedInFault i = false) : onlyIn i (permissionRow i.mnemonic) := fun s =>
  ⟨(phasePermissions i s).1, fun hp => exec_dropped hp hs⟩

theorem mem_phasesButFault {p : Phase} (hp : p ≠ .fault) : p ∈ phasesButFault := by
  cases p with
  | fault => exact absurd rfl hp
  | _ => decide

/-- In a phase of its row a command is its pseudocode. -/
theorem exec_in_row {i : Instr} {s : State} (hrow : s.phase ∈ permissionRow i.mnemonic) :
    exec i s = finish (encode i) (pseudocode i s) := by
  have hp := ne_fault_of_mem_permissionRow hrow
  exact exec_permitted hp ((permitted_iff_row _ hp).mpr hrow)

theorem exec_of_done {i : Instr} {s t : State} (hrow : s.phase ∈ permissionRow i.mnemonic) (hd : pseudocode i s = .done t) :
    exec i s = .next t := by
  rw [exec_in_row hrow, hd, finish_done]

theorem raisesFault_of_raise {i : Instr} {s : State} {c : Cause} (hrow : s.phase ∈ permissionRow i.mnemonic)
    (hr : pseudocode i s = .raise c s) : raisesFault i s c := by
  rw [raisesFault, exec_in_row hrow, hr, finish_raise, takeFault]

/-- A command served in phase FAULT is its pseudocode in every phase. -/
theorem exec_everywhere {i : Instr} (hs : servedInFault i = true) (s : State) :
    exec i s = finish (encode i) (pseudocode i s) := by
  by_cases hp : s.phase = .fault
  · exact exec_served hp hs
  · apply exec_permitted hp
    rcases (servedInFault_iff i).mp hs with rfl | rfl | ⟨n, rfl, -⟩ <;> rfl

/-! ### Configuration -/

/-- Settles O27: NOP is served in every phase, and its pseudocode is empty. -/
theorem nopDoesNothing : Obligations.NopDoesNothing :=
  ⟨rfl, zeroFieldIllegal_row .nop, exec_everywhere rfl⟩

/-- Settles O28: CLR clears the block. -/
theorem clrRestoresReset : Obligations.ClrRestoresReset :=
  ⟨rfl, zeroFieldIllegal_row .clr, fun s => ⟨_, exec_clr s, resetValues_clearBlock s, clearBlock_rsp s, clearBlock_mbuf s⟩⟩

/-- Settles O29: in LOAD each of the three commands is its one assignment. -/
theorem setInputs : Obligations.SetInputs := by
  refine ⟨zeroFieldIllegal_row .sett, zeroFieldIllegal_row .setd, zeroFieldIllegal_row .setb, fun n =>
    ⟨toNat_encode (.sett n), onlyIn_permissionRow rfl, toNat_encode (.setd n), onlyIn_permissionRow rfl,
      toNat_encode (.setb n), onlyIn_permissionRow rfl, fun s hp => ?_⟩⟩
  have hrow : s.phase ∈ [Phase.load] := List.mem_singleton.mpr hp
  exact ⟨exec_of_done hrow rfl, exec_of_done hrow rfl, exec_of_done hrow rfl⟩

theorem symbolLegal_iff (version level : Byte) :
    symbolLegal version level = true ↔ 1 ≤ version.toNat ∧ version.toNat ≤ 40 ∧ level.toNat ≤ 3 := by
  simp [symbolLegal, and_assoc]

/-- Settles O30: SETS's pseudocode writes the symbol exactly when the operands are in their legal ranges. -/
theorem setsSymbol : Obligations.SetsSymbol := by
  refine ⟨zeroFieldIllegal_row .sets, fun a b => ⟨?_, onlyIn_permissionRow rfl, fun s hrow => ?_⟩⟩
  · exact (toNat_encode (.sets a b)).trans (Nat.add_assoc _ _ _).symm
  · rcases pseudocode_sets_cases a b s with ⟨hl, hd⟩ | ⟨hl, hr⟩
    · obtain ⟨h1, h40, h3⟩ := (symbolLegal_iff a b).mp hl
      exact ⟨fun _ _ _ => exec_of_done hrow hd, fun hbad => by omega⟩
    · exact ⟨fun h1 h40 h3 => absurd ((symbolLegal_iff a b).mpr ⟨h1, h40, h3⟩) (Bool.eq_false_iff.mp hl),
        fun _ => raisesFault_of_raise hrow hr⟩

/-- Settles O31: the cell PUSH writes is the first one past the stream. -/
theorem pushAppends : Obligations.PushAppends := by
  refine ⟨zeroFieldIllegal_row .push, fun v => ⟨toNat_encode (.push v), onlyIn_permissionRow rfl, fun s hp => ?_⟩⟩
  have hrow : s.phase ∈ [Phase.load] := List.mem_singleton.mpr hp
  have hfull : s.slen = 4095 ↔ s.slen.toNat = 4095 := BitVec.toNat_inj.symm
  rcases opPush_cases v s with ⟨hlen, hr⟩ | ⟨hlen, hd⟩
  · exact ⟨fun _ => raisesFault_of_raise hrow hr, fun hne => absurd (hfull.mpr hlen) hne⟩
  · refine ⟨fun heq => absurd (hfull.mp heq) hlen.ne, fun _ => ⟨_, exec_of_done hrow hd, rfl, ?_, fun a ha => ?_⟩⟩
    · exact Memory.read_write_same ..
    · exact Memory.read_write_other _ _ ha

/-! ### The register file (R21) -/

theorem symWord_eq (s : State) : symWord s = BitVec.ofNat 32 (256 * s.ver.toNat + s.ecl.toNat) :=
  BitVec.eq_of_toNat_eq (by rw [symWord, toNat_pair, BitVec.toNat_ofNat]; omega)

theorem mbsloWord_eq (score : BitVec 34) : score.extractLsb' 0 32 = BitVec.ofNat 32 (score.toNat % 2 ^ 32) :=
  BitVec.eq_of_toNat_eq (by simp [BitVec.extractLsb'_toNat])

theorem mbshiWord_eq (score : BitVec 34) : (score.extractLsb' 32 2).setWidth 32 = BitVec.ofNat 32 (score.toNat / 2 ^ 32) := by
  apply BitVec.eq_of_toNat_eq
  rw [BitVec.toNat_setWidth, BitVec.extractLsb'_toNat, Nat.shiftRight_eq_div_pow, BitVec.toNat_ofNat]
  omega

theorem registerFile_eq (s : State) : registerFile s = registerTable.map (readRegister s) := by
  simp [registerFile, registerTable, readRegister, symWord_eq, mbsloWord_eq, mbshiWord_eq]

/-- The table lists the registers in the order of their numbers. -/
theorem registerOfNumber_eq (n : Byte) : registerOfNumber n = registerTable[n.toNat]? := by
  revert n
  decide

theorem registerFile_of_number {n : Byte} {r : RegName} (h : registerOfNumber n = some r) (s : State) :
    (registerFile s)[n.toNat]? = some (readRegister s r) := by
  rw [registerFile_eq, List.getElem?_map, ← registerOfNumber_eq, h, Option.map_some]

/-! ### Reads -/

/-- Settles O32: numbers up to 19 name a register and are served in every phase, the others name none. -/
theorem rdrReadsRegister : Obligations.RdrReadsRegister := by
  refine ⟨zeroFieldIllegal_row .rdr, fun n s => ⟨toNat_encode (.rdr n), ?_⟩⟩
  have hnumber := registerOfNumber_isSome_iff n
  rcases opRdr_cases n s with ⟨r, hr, hd⟩ | ⟨hr, hraise⟩ <;> rw [hr] at hnumber
  · have hn : n.toNat ≤ 19 := hnumber.mp rfl
    refine ⟨fun _ => ⟨_, registerFile_of_number hr s, ?_⟩, fun h => by omega, fun h => by omega⟩
    rw [exec_everywhere (by rw [servedInFault, hr]; rfl), pseudocode, hd, finish_done, respond]
  · have hn : ¬ n.toNat ≤ 19 := fun h => Bool.false_ne_true (hnumber.mpr h)
    exact ⟨fun h => absurd h hn, fun _ hp => raisesFault_of_raise (mem_phasesButFault hp) hraise,
      fun _ hp => exec_dropped hp (by rw [servedInFault, hr]; rfl)⟩

/-- What RDD, RDE and RDO share in their phases: F(RANGE) from the bound on, below it the byte of the cell (R107). -/
theorem exec_readBuffer {i : Instr} {b : Buffer} {n : Nat} {a : Len} {s : State} (hrow : s.phase ∈ permissionRow i.mnemonic)
    (hi : pseudocode i s = opReadBuffer b n a s) :
    (n ≤ a.toNat → raisesFault i s .range) ∧
    (a.toNat < n → ∀ v, Memory.read (bufferOf s b) a.toNat = some v →
      exec i s = .next { s with rsp := s.rsp ++ [BitVec.ofNat 32 v.toNat] }) := by
  rcases opReadBuffer_cases b n a s with ⟨hn, hr⟩ | ⟨hn, ⟨v, hv, hd⟩ | ⟨hnone, -⟩⟩
  · exact ⟨fun _ => raisesFault_of_raise hrow (hi.trans hr), fun h => by omega⟩
  · refine ⟨fun h => by omega, fun _ v' hv' => ?_⟩
    obtain rfl : v = v' := Option.some.inj (hv.symm.trans hv')
    rw [exec_of_done hrow (hi.trans hd), respond, BitVec.ofNat_toNat]
  · exact ⟨fun h => by omega, fun _ v hv => by simp [hnone] at hv⟩

/-- Settles O34: the read of DMEM, bounded by SLEN. -/
theorem rddReadsData : Obligations.RddReadsData :=
  ⟨zeroFieldIllegal_row .rdd, fun a =>
    ⟨toNat_encode (.rdd a), onlyIn_permissionRow rfl, fun _ hrow => exec_readBuffer (b := .dmem) hrow rfl⟩⟩

/-- Settles O35: the read of EMEM, bounded by `BIDX * ECLEN`. -/
theorem rdeReadsCorrection : Obligations.RdeReadsCorrection :=
  ⟨zeroFieldIllegal_row .rde, fun a =>
    ⟨toNat_encode (.rde a), onlyIn_permissionRow rfl, fun _ hrow => exec_readBuffer (b := .emem) hrow rfl⟩⟩

/-- Settles O36: the read of OMEM, bounded by OLEN. -/
theorem rdoReadsOutput : Obligations.RdoReadsOutput :=
  ⟨zeroFieldIllegal_row .rdo, fun a =>
    ⟨toNat_encode (.rdo a), onlyIn_permissionRow rfl, fun _ hrow => exec_readBuffer (b := .omem) hrow rfl⟩⟩

end Machine

end Sys2Proof
end

section
/-! PROOFS. 41_gf256_rs.md: the laws of the field (R120 to R126) and the field commands (R132 to R136). The product is additive in each
factor and the powers of ALPHA span the bytes, so a law of products is checked on the powers of ALPHA, where it is a law of exponents. -/

namespace Sys2Proof.Machine

/-! ### The product is additive in each factor (R122) -/

/-- A step of either loop of R122 adds `c` when a bit is set, which is additive in the bit and in what it is added to. -/
theorem xorIf_xor (p q : Bool) (r s c : BitVec 15) :
    (if p ^^ q then r ^^^ s ^^^ c else r ^^^ s) = (if p then r ^^^ c else r) ^^^ (if q then s ^^^ c else s) := by
  cases p <;> cases q
  · rfl
  · exact BitVec.xor_assoc ..
  · show r ^^^ s ^^^ c = r ^^^ c ^^^ s
    rw [BitVec.xor_assoc, BitVec.xor_comm s, ← BitVec.xor_assoc]
  · show r ^^^ s = r ^^^ c ^^^ (s ^^^ c)
    rw [BitVec.xor_comm s c, BitVec.xor_assoc r c, ← BitVec.xor_assoc c, BitVec.xor_self, BitVec.zero_xor]

theorem gfreduce_xor (r s : BitVec 15) : gfreduce (r ^^^ s) = gfadd (gfreduce r) (gfreduce s) := by
  rw [gfreduce, List.foldl_hom₂ _ (· ^^^ ·) _ _ _ r s fun r s i => ?_]
  · exact BitVec.setWidth_xor
  · rw [BitVec.getLsbD_xor]
    exact (xorIf_xor ..).symm

/-- One step of the first loop of R122. -/
def productStep (a b : Byte) (r : BitVec 15) (i : Nat) : BitVec 15 :=
  if b.getLsbD i then r ^^^ (a.setWidth 15 <<< i) else r

theorem productStep_gfadd_right (a b c : Byte) (r s : BitVec 15) (i : Nat) :
    productStep a (gfadd b c) (r ^^^ s) i = productStep a b r i ^^^ productStep a c s i := by
  rw [productStep, gfadd, BitVec.getLsbD_xor]
  exact xorIf_xor ..

theorem productStep_gfadd_left (a b c : Byte) (r s : BitVec 15) (i : Nat) :
    productStep (gfadd a b) c (r ^^^ s) i = productStep a c r i ^^^ productStep b c s i := by
  simp only [productStep, gfadd, BitVec.setWidth_xor, BitVec.shiftLeft_xor_distrib]
  split
  · ac_rfl
  · rfl

theorem gfproduct_eq_foldl (a b : Byte) : gfproduct a b = (List.range 8).foldl (productStep a b) 0#15 := rfl

theorem gfproduct_gfadd_right (a b c : Byte) : gfproduct a (gfadd b c) = gfproduct a b ^^^ gfproduct a c := by
  have hfold := List.foldl_hom₂ (List.range 8) (· ^^^ ·) _ _ _ 0#15 0#15 fun r s i =>
    (productStep_gfadd_right a b c r s i).symm
  simpa only [BitVec.xor_zero, ← gfproduct_eq_foldl] using hfold

theorem gfproduct_gfadd_left (a b c : Byte) : gfproduct (gfadd a b) c = gfproduct a c ^^^ gfproduct b c := by
  have hfold := List.foldl_hom₂ (List.range 8) (· ^^^ ·) _ _ _ 0#15 0#15 fun r s i =>
    (productStep_gfadd_left a b c r s i).symm
  simpa only [BitVec.xor_zero, ← gfproduct_eq_foldl] using hfold

theorem gfmul_gfadd (a b c : Byte) : gfmul a (gfadd b c) = gfadd (gfmul a b) (gfmul a c) := by
  rw [gfmul, gfproduct_gfadd_right, gfreduce_xor, ← gfmul, ← gfmul]

theorem gfadd_gfmul (a b c : Byte) : gfmul (gfadd a b) c = gfadd (gfmul a c) (gfmul b c) := by
  rw [gfmul, gfproduct_gfadd_left, gfreduce_xor, ← gfmul, ← gfmul]

/-! ### An additive function is fixed by its values on eight powers of ALPHA -/

/-- Additivity over the field's addition. -/
def IsAdditive (f : Byte → Byte) : Prop := ∀ a b, f (gfadd a b) = gfadd (f a) (f b)

theorem isAdditive_gfmul (a : Byte) : IsAdditive (gfmul a) := gfmul_gfadd a

theorem isAdditive_gfmul_left (b : Byte) : IsAdditive fun a => gfmul a b := fun a a' => gfadd_gfmul a a' b

theorem IsAdditive.comp {f g : Byte → Byte} (hf : IsAdditive f) (hg : IsAdditive g) : IsAdditive fun a => f (g a) :=
  fun a b => (congrArg f (hg a b)).trans (hf _ _)

theorem IsAdditive.map_zero {f : Byte → Byte} (hf : IsAdditive f) : f 0#8 = 0#8 := by
  have h := hf 0#8 0#8
  rwa [gfadd_self, gfadd_self] at h

theorem gfadd_cancel_left (a b : Byte) : gfadd a (gfadd a b) = b := by
  rw [← gfadd_assoc, gfadd_self, zero_gfadd]

/-- The first eight powers of ALPHA are the single bits: adding the top one makes a byte smaller. -/
theorem exists_gfadd_gfexp_lt : ∀ a : Byte, a ≠ 0#8 → ∃ i < 8, gfadd (gfexp i) a < a := by decide +kernel

theorem IsAdditive.ext {f g : Byte → Byte} (hf : IsAdditive f) (hg : IsAdditive g) (h : ∀ i < 8, f (gfexp i) = g (gfexp i))
    (a : Byte) : f a = g a := by
  induction hn : a.toNat using Nat.strong_induction_on generalizing a with
  | _ n ih =>
    by_cases ha : a = 0#8
    · rw [ha, hf.map_zero, hg.map_zero]
    · obtain ⟨i, hi, hlt⟩ := exists_gfadd_gfexp_lt a ha
      have hrest := ih _ (hn ▸ BitVec.lt_def.mp hlt) _ rfl
      rw [← gfadd_cancel_left (gfexp i) a, hf, hg, h i hi, hrest]

/-! ### Products of powers of ALPHA, and the ring laws (R126) -/

@[simp] theorem gfmul_zero (a : Byte) : gfmul a 0#8 = 0#8 := (isAdditive_gfmul a).map_zero

@[simp] theorem zero_gfmul (a : Byte) : gfmul 0#8 a = 0#8 := (isAdditive_gfmul_left a).map_zero

@[simp] theorem one_gfmul (a : Byte) : gfmul 1#8 a = a :=
  (isAdditive_gfmul 1#8).ext (g := id) (fun _ _ => rfl) (by decide +kernel) a

theorem gfmul_alpha_gfmul (a b : Byte) : gfmul (gfmul alpha a) b = gfmul alpha (gfmul a b) := by
  refine ((isAdditive_gfmul_left b).comp (isAdditive_gfmul alpha)).ext
    ((isAdditive_gfmul alpha).comp (isAdditive_gfmul_left b)) (fun i hi => ?_) a
  refine (isAdditive_gfmul (gfmul alpha (gfexp i))).ext
    ((isAdditive_gfmul alpha).comp (isAdditive_gfmul (gfexp i))) (fun j hj => ?_) b
  revert i j
  decide +kernel

theorem gfmul_gfexp_gfexp (i j : Nat) : gfmul (gfexp i) (gfexp j) = gfexp (i + j) := by
  induction i with
  | zero => simp
  | succ i ih => rw [gfexp_succ, gfmul_alpha_gfmul, ih, ← gfexp_succ, Nat.add_right_comm]

theorem gfmul_comm (a b : Byte) : gfmul a b = gfmul b a := by
  refine (isAdditive_gfmul_left b).ext (isAdditive_gfmul b) (fun i _ => ?_) a
  refine (isAdditive_gfmul (gfexp i)).ext (isAdditive_gfmul_left (gfexp i)) (fun j _ => ?_) b
  simp only [gfmul_gfexp_gfexp, Nat.add_comm]

@[simp] theorem gfmul_one (a : Byte) : gfmul a 1#8 = a := by rw [gfmul_comm, one_gfmul]

theorem gfmul_assoc (a b c : Byte) : gfmul (gfmul a b) c = gfmul a (gfmul b c) := by
  refine ((isAdditive_gfmul_left c).comp (isAdditive_gfmul_left b)).ext (isAdditive_gfmul_left (gfmul b c)) (fun i _ => ?_) a
  refine ((isAdditive_gfmul_left c).comp (isAdditive_gfmul (gfexp i))).ext
    ((isAdditive_gfmul (gfexp i)).comp (isAdditive_gfmul_left c)) (fun j _ => ?_) b
  refine (isAdditive_gfmul (gfmul (gfexp i) (gfexp j))).ext
    ((isAdditive_gfmul (gfexp i)).comp (isAdditive_gfmul (gfexp j))) (fun k _ => ?_) c
  simp only [gfmul_gfexp_gfexp, Nat.add_assoc]

/-! ### The order of ALPHA (R123) -/

theorem gfexp_period : gfexp 255 = 1#8 := by decide +kernel

theorem gfexp_add_period (e : Nat) : gfexp (e + 255) = gfexp e := by
  rw [← gfmul_gfexp_gfexp, gfexp_period, gfmul_one]

theorem gfexp_mod (e : Nat) : gfexp (e % 255) = gfexp e := Function.Periodic.map_mod_nat gfexp_add_period e

/-- The powers with exponents `e` and `255 - e` are inverse to each other (R125). -/
theorem gfmul_gfexp_sub {e : Nat} (he : e < 255) : gfmul (gfexp e) (gfexp (255 - e)) = 1#8 := by
  rw [gfmul_gfexp_gfexp, Nat.add_sub_cancel' he.le, gfexp_period]

theorem gfexp_ne_zero (e : Nat) : gfexp e ≠ 0#8 := fun h => by
  have hinv := gfmul_gfexp_sub (Nat.mod_lt e (by decide : 0 < 255))
  rw [gfexp_mod, h, zero_gfmul] at hinv
  exact absurd hinv (by decide)

/-- What the search of R124 finds, begun at the exponent `e`: the first one with the wanted power, within `k` trials. -/
theorem gflogFrom_cases (v : Byte) (k e : Nat) :
    (∃ j < k, gfexp (e + j) = v ∧ gflogFrom v k e (gfexp e) = some (BitVec.ofNat 8 (e + j))) ∨
    (gflogFrom v k e (gfexp e) = none ∧ ∀ j < k, gfexp (e + j) ≠ v) := by
  induction k generalizing e with
  | zero => exact .inr ⟨rfl, fun j hj => absurd hj j.not_lt_zero⟩
  | succ k ih =>
    rw [gflogFrom, ← gfexp_succ]
    by_cases hv : gfexp e = v
    · exact .inl ⟨0, k.succ_pos, hv, if_pos hv⟩
    · rw [if_neg hv]
      rcases ih (e + 1) with ⟨j, hj, hpow, hfound⟩ | ⟨hnone, hnot⟩
      · rw [Nat.add_right_comm] at hpow hfound
        exact .inl ⟨j + 1, Nat.succ_lt_succ hj, hpow, hfound⟩
      · refine .inr ⟨hnone, fun j hj => ?_⟩
        cases j with
        | zero => exact hv
        | succ j =>
          rw [← Nat.add_assoc, Nat.add_right_comm]
          exact hnot j (Nat.lt_of_succ_lt_succ hj)

/-- ALPHA has order 255: a search for 0x01 from the exponent 1 on finds none below 255. -/
theorem gfexp_ne_one {e : Nat} (h1 : 1 ≤ e) (h254 : e ≤ 254) : gfexp e ≠ 1#8 := by
  have hsearch : gflogFrom 1#8 254 1 (gfexp 1) = none := by decide +kernel
  rcases gflogFrom_cases 1#8 254 1 with ⟨j, -, -, hfound⟩ | ⟨-, hnot⟩
  · exact absurd (hsearch.symm.trans hfound) (by simp)
  · have := hnot (e - 1) (by omega)
    rwa [Nat.add_sub_cancel' h1] at this

/-! ### Inverses and logarithms (R124, R125) -/

theorem gfmul_inverse_gfmul {a u : Byte} (hu : gfmul a u = 1#8) (x : Byte) : gfmul u (gfmul a x) = x := by
  rw [← gfmul_assoc, gfmul_comm u, hu, one_gfmul]

theorem inverse_unique {a u u' : Byte} (hu : gfmul a u = 1#8) (hu' : gfmul a u' = 1#8) : u' = u := by
  rw [← gfmul_inverse_gfmul hu u', hu', gfmul_one]

theorem gfexp_inj {d e : Nat} (hd : d < 255) (he : e < 255) (h : gfexp d = gfexp e) : d = e := by
  wlog hle : d ≤ e generalizing d e
  · exact (this he hd h.symm (Nat.le_of_not_le hle)).symm
  by_contra hne
  refine gfexp_ne_one (e := e - d) (by omega) (by omega) ?_
  rw [← gfmul_inverse_gfmul (gfmul_gfexp_sub hd) (gfexp (e - d)), gfmul_gfexp_gfexp d, Nat.add_sub_cancel' hle, ← h,
    gfmul_comm, gfmul_gfexp_sub hd]

theorem exists_gfexp_eq {v : Byte} (hv : v ≠ 0#8) : ∃ e < 255, gfexp e = v := by
  have hsurj : Set.SurjOn gfexp (Finset.range 255) (Finset.univ.erase 0#8 : Finset Byte) := by
    refine Finset.surjOn_of_injOn_of_card_le gfexp (fun e _ => ?_) (fun d hd e he => ?_) ?_
    · simp [gfexp_ne_zero]
    · exact gfexp_inj (by simpa using hd) (by simpa using he)
    · rw [Finset.card_erase_of_mem (Finset.mem_univ _), Finset.card_range]
      simp [← FinEnum.card_eq_fintypeCard]
  obtain ⟨e, he, hpow⟩ := hsurj (by simpa using hv : v ∈ _)
  exact ⟨e, by simpa using he, hpow⟩

theorem gflog_gfexp {e : Nat} (he : e < 255) : gflog (gfexp e) = some (BitVec.ofNat 8 e) := by
  rcases gflogFrom_cases (gfexp e) 255 0 with ⟨j, hj, hpow, hfound⟩ | ⟨-, hnot⟩
  · rw [Nat.zero_add] at hpow hfound
    obtain rfl := gfexp_inj hj he hpow
    exact hfound
  · exact absurd (congrArg gfexp (Nat.zero_add e)) (hnot e he)

/-- A logarithm exists for the powers of ALPHA alone, and is the exponent below 255. -/
theorem gflog_eq_some_iff (v x : Byte) : gflog v = some x ↔ x.toNat < 255 ∧ gfexp x.toNat = v := by
  constructor
  · intro h
    rcases gflogFrom_cases v 255 0 with ⟨j, hj, hpow, hfound⟩ | ⟨hnone, -⟩
    · rw [Nat.zero_add] at hpow hfound
      obtain rfl : x = BitVec.ofNat 8 j := Option.some.inj (h.symm.trans hfound)
      rw [BitVec.toNat_ofNat, Nat.mod_eq_of_lt (by omega)]
      exact ⟨hj, hpow⟩
    · exact absurd (h.symm.trans hnone) (Option.some_ne_none x)
  · rintro ⟨hx, rfl⟩
    rw [gflog_gfexp hx, BitVec.ofNat_toNat, BitVec.setWidth_eq]

theorem gflog_zero : gflog 0#8 = none := by
  rw [Option.eq_none_iff_forall_ne_some]
  intro x hx
  exact gfexp_ne_zero _ ((gflog_eq_some_iff ..).mp hx).2

theorem gfinv_zero : gfinv 0#8 = none := by rw [gfinv, gflog_zero, Option.map_none]

theorem gfinv_gfexp {e : Nat} (he : e < 255) : gfinv (gfexp e) = some (gfexp (255 - e)) := by
  rw [gfinv, gflog_gfexp he, Option.map_some, BitVec.toNat_ofNat, Nat.mod_eq_of_lt (by omega)]

/-- A nonzero byte has an inverse, so no zero divisor (R126). -/
theorem gfmul_eq_zero {a b : Byte} (h : gfmul a b = 0#8) : a = 0#8 ∨ b = 0#8 := by
  refine or_iff_not_imp_left.mpr fun ha => ?_
  obtain ⟨e, he, rfl⟩ := exists_gfexp_eq ha
  rw [← gfmul_inverse_gfmul (gfmul_gfexp_sub he) b, h, gfmul_zero]

/-- Settles O41: products are laws of exponents, and the logarithm is the exponent below 255. -/
theorem fieldLaws : Obligations.FieldLaws := by
  refine ⟨fun a b c => ⟨gfadd_comm a b, gfadd_assoc a b c, gfmul_comm a b, gfmul_assoc a b c, gfmul_gfadd a b c⟩,
    fun a => ⟨gfadd_zero a, gfadd_self a, gfmul_one a, gfmul_zero a⟩, fun _ _ => gfmul_eq_zero, fun a b x y hx hy => ?_,
    fun a ha => ?_, fun e => ?_⟩
  · obtain ⟨-, rfl⟩ := (gflog_eq_some_iff ..).mp hx
    obtain ⟨-, rfl⟩ := (gflog_eq_some_iff ..).mp hy
    rw [gfmul_gfexp_gfexp, gfexp_mod]
  · obtain ⟨e, he, rfl⟩ := exists_gfexp_eq ha
    exact ⟨_, gflog_gfexp he, ((gflog_eq_some_iff ..).mp (gflog_gfexp he)).2⟩
  · rw [← gfexp_mod, gflog_gfexp (Nat.mod_lt e (by decide))]

/-- Multiplication by ALPHA is a shift, reduced by GFPOLY where it passes 0xFF (R123). -/
theorem toNat_gfmul_alpha : ∀ a : Byte, (gfmul alpha a).toNat =
    if 2 * a.toNat < 0x100 then 2 * a.toNat else Nat.xor (2 * a.toNat) 0x11D := by decide +kernel

/-- Settles O42: the recurrence is multiplication by ALPHA, whose order is 255. -/
theorem powersOfAlpha : Obligations.PowersOfAlpha :=
  ⟨gfexp_zero, fun e => by rw [gfexp_succ, toNat_gfmul_alpha], gfexp_period, fun e => (gfexp_mod e).symm,
    fun _ => gfexp_ne_one⟩

/-! ### The field commands (R132 to R136) -/

theorem exec_of_respond {i : Instr} {s : State} {v : Byte} (hrow : s.phase ∈ permissionRow i.mnemonic)
    (hd : pseudocode i s = .done (respond (v.setWidth 32) s)) :
    exec i s = .next { s with rsp := s.rsp ++ [BitVec.ofNat 32 v.toNat] } := by
  rw [exec_of_done hrow hd, respond, BitVec.ofNat_toNat]

/-- Settles O38: each of the three commands is its one response. -/
theorem fieldCommands : Obligations.FieldCommands := by
  refine ⟨zeroFieldIllegal_row .gfadd, zeroFieldIllegal_row .gfmul, zeroFieldIllegal_row .gfexp, fun a b =>
    ⟨?_, onlyIn_permissionRow rfl, ?_, onlyIn_permissionRow rfl, fun s hrow =>
      ⟨exec_of_respond hrow rfl, exec_of_respond hrow rfl⟩⟩,
    fun e => ⟨toNat_encode (.gfexp e), onlyIn_permissionRow rfl, fun s hrow => exec_of_respond hrow rfl⟩⟩
  · exact (toNat_encode (.gfadd a b)).trans (Nat.add_assoc ..).symm
  · exact (toNat_encode (.gfmul a b)).trans (Nat.add_assoc ..).symm

theorem pseudocode_gflog_zero (s : State) : pseudocode (.gflog 0#8) s = .raise .operand s := by
  rw [pseudocode, gflog_zero, opFieldPartial]

theorem pseudocode_gflog_gfexp {e : Nat} (he : e < 255) (s : State) :
    pseudocode (.gflog (gfexp e)) s = .done (respond ((BitVec.ofNat 8 e).setWidth 32) s) := by
  rw [pseudocode, gflog_gfexp he, opFieldPartial]

theorem pseudocode_gfinv_zero (s : State) : pseudocode (.gfinv 0#8) s = .raise .operand s := by
  rw [pseudocode, gfinv_zero, opFieldPartial]

theorem pseudocode_gfinv_gfexp {e : Nat} (he : e < 255) (s : State) :
    pseudocode (.gfinv (gfexp e)) s = .done (respond ((gfexp (255 - e)).setWidth 32) s) := by
  rw [pseudocode, gfinv_gfexp he, opFieldPartial]

/-- Settles O39: 0x00 has no logarithm, and every other byte is a power of ALPHA with one exponent below 255. -/
theorem gflogRespondsExponent : Obligations.GflogRespondsExponent := by
  refine ⟨zeroFieldIllegal_row .gflog, fun v => ⟨toNat_encode (.gflog v), onlyIn_permissionRow rfl, fun s hrow =>
    ⟨?_, fun hv => ?_⟩⟩⟩
  · rintro rfl
    exact raisesFault_of_raise hrow (pseudocode_gflog_zero s)
  · obtain ⟨e, he, rfl⟩ := exists_gfexp_eq hv
    refine ⟨e, by omega, rfl, fun e' he' h => gfexp_inj (by omega) he h, ?_⟩
    have hexec := exec_of_respond hrow (pseudocode_gflog_gfexp he s)
    rwa [BitVec.toNat_ofNat, Nat.mod_eq_of_lt (by omega)] at hexec

/-- Settles O40: 0x00 has no inverse, and that of ALPHA to the power `e` is ALPHA to the power `255 - e`. -/
theorem gfinvRespondsInverse : Obligations.GfinvRespondsInverse := by
  refine ⟨zeroFieldIllegal_row .gfinv, fun v => ⟨toNat_encode (.gfinv v), onlyIn_permissionRow rfl, fun s hrow =>
    ⟨?_, fun hv => ?_⟩⟩⟩
  · rintro rfl
    exact raisesFault_of_raise hrow (pseudocode_gfinv_zero s)
  · obtain ⟨e, he, rfl⟩ := exists_gfexp_eq hv
    exact ⟨_, gfmul_gfexp_sub he, fun _ => inverse_unique (gfmul_gfexp_sub he),
      exec_of_respond hrow (pseudocode_gfinv_gfexp he s)⟩

end Sys2Proof.Machine
end

section
/-! PROOFS. 41_gf256_rs.md: the Reed-Solomon encoder (R127 to R131). A polynomial is the list of its coefficients, highest degree first,
and `List.zipWith gfadd` is the sum of two of equal length. The division step `addScaled` and the remainder `polyRem` are additive, from
which the linearity of the encoder and the shift register follow; the quotient is built along the steps of the division. -/

namespace Sys2Proof.Machine

/-! ### Sums of polynomials -/

theorem gfadd_gfadd_gfadd_comm (a b c d : Byte) : gfadd (gfadd a b) (gfadd c d) = gfadd (gfadd a c) (gfadd b d) := by
  simp only [gfadd]
  ac_rfl

@[simp] theorem zipWith_gfadd_self (p : List Byte) : List.zipWith gfadd p p = List.replicate p.length 0#8 := by
  simp [List.zipWith_self, List.map_const']

theorem zipWith_gfadd_zero {p : List Byte} {n : Nat} (h : p.length = n) : List.zipWith gfadd p (List.replicate n 0#8) = p := by
  subst h
  induction p with
  | nil => rfl
  | cons c p ih => rw [List.length_cons, List.replicate_succ, List.zipWith_cons_cons, gfadd_zero, ih]

theorem zero_zipWith_gfadd {p : List Byte} {n : Nat} (h : p.length = n) : List.zipWith gfadd (List.replicate n 0#8) p = p := by
  rw [List.zipWith_comm_of_comm gfadd_comm, zipWith_gfadd_zero h]

/-- What was added once is taken off by adding it again. -/
theorem zipWith_gfadd_cancel {p q : List Byte} (h : q.length = p.length) (r : List Byte) :
    List.zipWith gfadd q (List.zipWith gfadd (List.zipWith gfadd p q) r) = List.zipWith gfadd p r := by
  induction p generalizing q r with
  | nil => simp
  | cons a p ih =>
    obtain ⟨b, q, rfl⟩ := List.exists_cons_of_length_eq_add_one h
    cases r with
    | nil => simp
    | cons c r =>
      simp only [List.zipWith_cons_cons, ih (Nat.succ.inj h)]
      rw [gfadd_assoc, gfadd_comm a, gfadd_assoc, gfadd_cancel_left, gfadd_comm c]

/-! ### The division step is additive -/

theorem addScaled_zipWith (c c' : Byte) (gs rs rs' : List Byte) :
    addScaled (gfadd c c') gs (List.zipWith gfadd rs rs') = List.zipWith gfadd (addScaled c gs rs) (addScaled c' gs rs') := by
  induction gs generalizing rs rs' with
  | nil => rfl
  | cons g gs ih =>
    cases rs with
    | nil => simp [addScaled]
    | cons r rs =>
      cases rs' with
      | nil => simp [addScaled]
      | cons r' rs' =>
        simp only [addScaled, List.zipWith_cons_cons, ih, gfadd_gfmul]
        rw [gfadd_gfadd_gfadd_comm]

theorem zero_addScaled (gs rs : List Byte) : addScaled 0#8 gs rs = rs := by
  induction gs generalizing rs with
  | nil => rfl
  | cons g gs ih => cases rs <;> simp [addScaled, ih]

theorem addScaled_append (c : Byte) {gs rs : List Byte} (h : gs.length ≤ rs.length) (zs : List Byte) :
    addScaled c gs (rs ++ zs) = addScaled c gs rs ++ zs := by
  induction gs generalizing rs with
  | nil => rfl
  | cons g gs ih =>
    cases rs with
    | nil => exact absurd h (Nat.not_succ_le_zero _)
    | cons r rs => simp [addScaled, ih (Nat.le_of_succ_le_succ h)]

/-- The division step adds `c` times the divisor, filled up with zeros. -/
theorem addScaled_eq_zipWith (c : Byte) {gs rs : List Byte} {k : Nat} (h : rs.length = k + gs.length) :
    addScaled c gs rs = List.zipWith gfadd rs (gs.map (gfmul c) ++ List.replicate k 0#8) := by
  induction gs generalizing rs with
  | nil => exact (zipWith_gfadd_zero h).symm
  | cons g gs ih =>
    obtain ⟨r, rs, rfl⟩ := List.exists_cons_of_length_eq_add_one h
    simp [addScaled, ih (Nat.succ.inj h)]

theorem polyRem_zipWith (gs : List Byte) (k : Nat) (p p' : List Byte) :
    polyRem gs k (List.zipWith gfadd p p') = List.zipWith gfadd (polyRem gs k p) (polyRem gs k p') := by
  induction k generalizing p p' with
  | zero => rfl
  | succ k ih =>
    cases p with
    | nil => simp [polyRem]
    | cons c rest =>
      cases p' with
      | nil => simp [polyRem]
      | cons c' rest' => simp only [List.zipWith_cons_cons, polyRem, addScaled_zipWith, ih]

/-! ### The encoder is linear (R131) -/

theorem rsencode_zipWith {d e : List Byte} (h : d.length = e.length) (n : Nat) :
    rsencode (List.zipWith gfadd d e) n = List.zipWith gfadd (rsencode d n) (rsencode e n) := by
  have hsum : List.zipWith gfadd d e ++ List.replicate n 0#8 =
      List.zipWith gfadd (d ++ List.replicate n 0#8) (e ++ List.replicate n 0#8) := by
    rw [List.zipWith_append h, zipWith_gfadd_self, List.length_replicate]
  simp only [rsencode, BitVec.ofNat_eq_ofNat, hsum, polyRem_zipWith, List.length_zipWith, h, Nat.min_self]

/-- All-zero data is the sum of itself with itself, and so is its result. -/
theorem rsencode_replicate_zero (k n : Nat) : rsencode (List.replicate k 0#8) n = List.replicate n 0#8 := by
  have h := rsencode_zipWith (d := List.replicate k 0#8) rfl n
  rwa [zipWith_gfadd_self, zipWith_gfadd_self, List.length_replicate, rsencode_length] at h

/-- Settles O45: the division is additive, and no data is all-zero data of length 0. -/
theorem encoderIsLinear : Obligations.EncoderIsLinear := fun d _ n _ =>
  ⟨rsencode_length d n, rsencode_replicate_zero 0 n, fun k => rsencode_replicate_zero k n, fun h => rsencode_zipWith h n⟩

/-! ### The shift register (R130) -/

/-- A division step does not reach past the cells of the divisor, and passes through a sum on its left. -/
theorem addScaled_zipWith_append (c : Byte) {gs rs : List Byte} (h : gs.length ≤ rs.length) (p zs : List Byte) :
    addScaled c gs (List.zipWith gfadd p (rs ++ zs)) = List.zipWith gfadd p (addScaled c gs rs ++ zs) := by
  have hadd := addScaled_zipWith 0#8 c gs p (rs ++ zs)
  rwa [zero_gfadd, zero_addScaled, addScaled_append c h] at hadd

theorem rsShift_length {gs reg : List Byte} (h : reg.length = gs.length) (hg : gs ≠ []) (v : Byte) :
    (rsShift gs reg v).length = gs.length := by
  have hpos := List.length_pos_iff.mpr hg
  have htail : (reg.tail ++ [0x00]).length = gs.length := by simp [h]; omega
  rw [rsShift, addScaled_length _ _ _ htail.ge, htail]

/-- The register holds what the steps so far have added to the next coefficients of the dividend. -/
theorem foldl_rsShift {gs : List Byte} (hg : gs ≠ []) (d : List Byte) {reg : List Byte} (h : reg.length = gs.length) :
    d.foldl (rsShift gs) reg =
      polyRem gs d.length (List.zipWith gfadd (d ++ List.replicate gs.length 0#8) (reg ++ List.replicate d.length 0#8)) := by
  induction d generalizing reg with
  | nil => simp [polyRem, zero_zipWith_gfadd h]
  | cons v d ih =>
    rw [List.foldl_cons, ih (rsShift_length h hg v)]
    cases reg with
    | nil => exact absurd (List.length_eq_zero_iff.mp h.symm) hg
    | cons r reg =>
      have hlen : gs.length ≤ (reg ++ [0#8]).length := by simp [← h]
      have hstep := addScaled_zipWith_append (gfadd v r) hlen (d ++ List.replicate gs.length 0#8) (List.replicate d.length 0#8)
      rw [List.append_assoc, List.singleton_append, ← List.replicate_succ] at hstep
      rw [List.length_cons, List.cons_append, List.cons_append, List.zipWith_cons_cons, polyRem, hstep]
      rfl

theorem genpoly_tail_length (n : Nat) : (genpoly n).tail.length = n := by
  rw [List.length_tail, genpoly_length, Nat.add_sub_cancel]

/-- Settles O44: at the start the register is zero, and the dividend is the data with `n` zeros behind it. -/
theorem shiftRegisterAgrees : Obligations.ShiftRegisterAgrees := by
  intro d n hn
  have hlen := genpoly_tail_length n
  have hg : (genpoly n).tail ≠ [] := List.ne_nil_of_length_pos (by omega)
  calc rsencodeShift d n
    _ = polyRem (genpoly n).tail d.length
          (List.zipWith gfadd (d ++ List.replicate n 0#8) (List.replicate n 0#8 ++ List.replicate d.length 0#8)) := by
      rw [rsencodeShift, foldl_rsShift hg d (by rw [hlen, List.length_replicate]), hlen]
      rfl
    _ = rsencode d n := by
      rw [List.replicate_append_replicate, zipWith_gfadd_zero (by simp [Nat.add_comm])]
      rfl

/-! ### The codeword is a multiple of the generator polynomial (R129) -/

/-- Division by a monic polynomial: what `k` steps have taken off the dividend is a multiple of the divisor. -/
theorem exists_polyMul_eq (gs : List Byte) {k : Nat} {p : List Byte} (hp : p.length = k + gs.length) :
    ∃ q : List Byte, q.length = k ∧
      polyMul q (1#8 :: gs) = List.zipWith gfadd p (List.replicate k 0#8 ++ polyRem gs k p) := by
  induction k generalizing p with
  | zero => exact ⟨[], rfl, by simp_all [polyMul, polyRem]⟩
  | succ k ih =>
    obtain ⟨c, rest, rfl⟩ := List.exists_cons_of_length_eq_add_one (hp.trans (Nat.add_right_comm k 1 _))
    have hrest : rest.length = k + gs.length := by simp at hp; omega
    obtain ⟨q, rfl, hq⟩ := ih (p := addScaled c gs rest) (by rw [addScaled_length _ _ _ (by omega), hrest])
    refine ⟨c :: q, rfl, ?_⟩
    have hscaled : (gs.map (gfmul c) ++ List.replicate q.length 0#8).length = rest.length := by simp [hrest, Nat.add_comm]
    have hrow := zipWith_gfadd_cancel hscaled (List.replicate q.length 0#8 ++ polyRem gs q.length (addScaled c gs rest))
    rw [← addScaled_eq_zipWith c hrest, ← hq] at hrow
    simp [polyMul, polyRem, List.replicate_succ, hrow]

theorem genpoly_head? (n : Nat) : (genpoly n).head? = some 1#8 := by
  induction n with
  | zero => rfl
  | succ n ih =>
    obtain ⟨gs, hgs⟩ := List.head?_eq_some_iff.mp ih
    rw [genpoly, hgs]
    rfl

theorem genpoly_eq_cons (n : Nat) : genpoly n = 1#8 :: (genpoly n).tail :=
  (List.cons_head?_tail (genpoly_head? n)).symm

theorem codeword_eq_polyMul (d : List Byte) (n : Nat) :
    ∃ q : List Byte, q.length = d.length ∧ polyMul q (genpoly n) = d ++ rsencode d n := by
  have hlen : (d ++ List.replicate n 0#8).length = d.length + (genpoly n).tail.length := by simp
  obtain ⟨q, hq, hmul⟩ := exists_polyMul_eq (genpoly n).tail hlen
  refine ⟨q, hq, ?_⟩
  calc polyMul q (genpoly n)
    _ = List.zipWith gfadd (d ++ List.replicate n 0#8) (List.replicate d.length 0#8 ++ rsencode d n) := by
      rw [genpoly_eq_cons, hmul]
      rfl
    _ = d ++ rsencode d n := by
      rw [List.zipWith_append (by simp), zipWith_gfadd_zero rfl, zero_zipWith_gfadd (rsencode_length d n)]

/-- Settles O43: the quotient of the division. -/
theorem encoderIsRemainder : Obligations.EncoderIsRemainder := fun d n _ => ⟨rsencode_length d n, codeword_eq_polyMul d n⟩

/-! ### Values of polynomials (R127), and roots (R128) -/

theorem polyEval_concat (p : List Byte) (c x : Byte) : polyEval (p ++ [c]) x = gfadd (gfmul (polyEval p x) x) c := by
  rw [polyEval, List.foldl_concat, ← polyEval]

theorem polyEval_zero_cons (p : List Byte) (x : Byte) : polyEval (0#8 :: p) x = polyEval p x := by
  simp [polyEval]

theorem polyEval_map_gfmul (c : Byte) (p : List Byte) (x : Byte) :
    polyEval (p.map (gfmul c)) x = gfmul c (polyEval p x) := by
  induction p using List.reverseRecOn with
  | nil => exact (gfmul_zero c).symm
  | append_singleton p a ih =>
    rw [List.map_append, List.map_singleton, polyEval_concat, polyEval_concat, ih, gfmul_gfadd, gfmul_assoc]

/-- Horner's scheme from a sum of two accumulators. -/
theorem foldl_horner_zipWith (x : Byte) {p q : List Byte} (h : p.length = q.length) (a b : Byte) :
    (List.zipWith gfadd p q).foldl (fun acc c => gfadd (gfmul acc x) c) (gfadd a b) =
      gfadd (p.foldl (fun acc c => gfadd (gfmul acc x) c) a) (q.foldl (fun acc c => gfadd (gfmul acc x) c) b) := by
  induction p generalizing q a b with
  | nil => simp [List.length_eq_zero_iff.mp h.symm]
  | cons c p ih =>
    obtain ⟨c', q, rfl⟩ := List.exists_cons_of_length_eq_add_one h.symm
    rw [List.zipWith_cons_cons, List.foldl_cons, List.foldl_cons, List.foldl_cons, ← ih (Nat.succ.inj h), gfadd_gfmul,
      gfadd_gfadd_gfadd_comm]

theorem polyEval_zipWith {p q : List Byte} (h : p.length = q.length) (x : Byte) :
    polyEval (List.zipWith gfadd p q) x = gfadd (polyEval p x) (polyEval q x) :=
  foldl_horner_zipWith x h 0#8 0#8

theorem polyEval_timesMonic (p : List Byte) (c x : Byte) :
    polyEval (timesMonic p c) x = gfmul (polyEval p x) (gfadd x c) := by
  have hmap : (p.map fun a => gfmul a c) = p.map (gfmul c) := List.map_congr_left fun a _ => gfmul_comm a c
  rw [timesMonic, polyEval_zipWith (by simp), polyEval_concat, hmap]
  simp [polyEval_zero_cons, polyEval_map_gfmul, gfmul_gfadd, gfmul_comm c]

theorem polyEval_genpoly {i n : Nat} (h : i < n) : polyEval (genpoly n) (gfexp i) = 0#8 := by
  induction n with
  | zero => exact absurd h i.not_lt_zero
  | succ n ih =>
    rw [genpoly, polyEval_timesMonic, genbase, Nat.zero_add]
    rcases Nat.lt_succ_iff_lt_or_eq.mp h with hlt | rfl
    · rw [ih hlt, zero_gfmul]
    · rw [gfadd_self, gfmul_zero]

theorem polyMul_length {g : List Byte} (hg : g ≠ []) (q : List Byte) : (polyMul q g).length + 1 = g.length + q.length := by
  have hpos := List.length_pos_iff.mpr hg
  induction q with
  | nil => simp [polyMul]; omega
  | cons c q ih => simp [polyMul, ih]; omega

theorem polyEval_append_zeros {p : List Byte} {x : Byte} (h : polyEval p x = 0#8) (k : Nat) :
    polyEval (p ++ List.replicate k 0#8) x = 0#8 := by
  induction k with
  | zero => simpa using h
  | succ k ih => rw [List.replicate_succ', ← List.append_assoc, polyEval_concat, ih, zero_gfmul, gfadd_zero]

/-- A root of a polynomial is a root of its multiples. -/
theorem polyEval_polyMul {g : List Byte} {x : Byte} (hg : g ≠ []) (hx : polyEval g x = 0#8) (q : List Byte) :
    polyEval (polyMul q g) x = 0#8 := by
  induction q with
  | nil => exact polyEval_append_zeros (p := []) rfl _
  | cons c q ih =>
    have hrow : polyEval (g.map (gfmul c) ++ List.replicate q.length 0#8) x = 0#8 :=
      polyEval_append_zeros (by rw [polyEval_map_gfmul, hx, gfmul_zero]) _
    have hlen : (g.map (gfmul c) ++ List.replicate q.length 0#8).length = (0#8 :: polyMul q g).length := by
      simp [polyMul_length hg]
    exact (polyEval_zipWith hlen x).trans (by rw [hrow, polyEval_zero_cons, ih, gfadd_zero])

/-- Settles O46: the roots of the factors `[0x01, gfexp i]`, and of every multiple of their product. -/
theorem rootsOfTheCode : Obligations.RootsOfTheCode := by
  refine ⟨fun n => ⟨genpoly_length n, genpoly_head? n, fun i => polyEval_genpoly⟩, fun d n i _ hi => ?_⟩
  obtain ⟨q, -, hq⟩ := codeword_eq_polyMul d n
  rw [← hq]
  exact polyEval_polyMul (by rw [genpoly_eq_cons]; exact List.cons_ne_nil _ _) (polyEval_genpoly hi) q

end Sys2Proof.Machine
end

section
/-! PROOFS. 42_ecc_interleave.md: the stages of the interleaver: PART and the offsets, one block of ECGEN, and the stream ILV lays
out. -/

namespace Sys2Proof.Machine

/-! ### PART (R154) -/

/-- PART without the three checks of F(INTERNAL), which hold wherever they are reached (R158). -/
theorem opPart_eq (s : State) :
    opPart s =
      if s.nblk.toNat = 0 then .raise .config s
      else if s.slen ≠ s.data then .raise .length s
      else if s.total.toNat / s.nblk.toNat ≤ s.data.toNat / s.nblk.toNat then .raise .config s
      else if s.data.toNat / s.nblk.toNat = 0 then .raise .config s
      else .done (parted s) := by
  by_cases hn : s.nblk.toNat = 0
  · simp only [opPart, hn, if_true]
  by_cases hl : s.slen = s.data
  swap
  · simp only [opPart, hn, hl, if_true, if_false, ne_eq, not_false_eq_true, BitVec.toNat_inj]
  have hlen : s.slen.toNat = s.data.toNat := congrArg BitVec.toNat hl
  rw [if_neg hn, if_neg (not_not.mpr hl)]
  rcases Nat.lt_or_ge (s.total.toNat / s.nblk.toNat) (s.data.toNat / s.nblk.toNat) with hc | hc
  · simp only [opPart, hn, hlen, hc, hc.le, if_true, if_false, ne_eq, not_true_eq_false]
  have hec : s.total.toNat / s.nblk.toNat + 1 - (s.data.toNat / s.nblk.toNat + 1) =
      s.total.toNat / s.nblk.toNat - s.data.toNat / s.nblk.toNat := Nat.add_sub_add_right ..
  have hblocks : s.nblk.toNat - s.total.toNat % s.nblk.toNat + s.total.toNat % s.nblk.toNat = s.nblk.toNat :=
    Nat.sub_add_cancel (Nat.mod_lt _ (Nat.pos_of_ne_zero hn)).le
  have hcount := group_lengths s.nblk.toNat s.total.toNat hn
  simp only [opPart, hn, hlen, Nat.not_lt.mpr hc, hec, hblocks, Nat.add_right_comm _ 1, Nat.add_sub_cancel' hc, hcount, if_false,
    ne_eq, not_true_eq_false, Nat.sub_eq_zero_iff_le]
  rfl

/-- Settles O47: the tests of PART in order, each in a LOAD state. -/
theorem partComputesGeometry : Obligations.PartComputesGeometry := by
  refine ⟨rfl, zeroFieldIllegal_row .part, onlyIn_permissionRow rfl, fun s hp => ?_⟩
  have hrow : s.phase ∈ [Phase.load] := List.mem_singleton.mpr hp
  have hop := opPart_eq s
  refine ⟨fun hn => ?_, fun hn hl => ?_, fun hn hl hle => ?_, fun hn hl hlt hd => ?_, fun hn hl hlt hd => ?_⟩
  · exact raisesFault_of_raise hrow (hop.trans (if_pos hn))
  · exact raisesFault_of_raise hrow (hop.trans (by rw [if_neg hn, if_pos hl]))
  · exact raisesFault_of_raise hrow (hop.trans (by rw [if_neg hn, if_neg (not_not.mpr hl), if_pos hle]))
  · exact raisesFault_of_raise hrow (hop.trans (by rw [if_neg hn, if_neg (not_not.mpr hl), if_neg hlt.not_ge, if_pos hd]))
  · exact exec_of_done (t := parted s) hrow (hop.trans (by rw [if_neg hn, if_neg (not_not.mpr hl), if_neg hlt.not_ge, if_neg hd]))

/-! ### Offsets (R152, R159) -/

/-- The data bytes all blocks consume, from the inputs of PART (R159). -/
theorem Geometry.boff_nblk {s : State} (g : Geometry s) :
    boff s s.nblk.toNat = s.nblk.toNat * (s.data.toNat / s.nblk.toNat) + s.total.toNat % s.nblk.toNat := by
  have hec := g.boff_add_ec
  have hmul : s.nblk.toNat * (s.data.toNat / s.nblk.toNat) + s.nblk.toNat * s.eclen.toNat =
      s.nblk.toNat * (s.total.toNat / s.nblk.toNat) := by rw [← Nat.mul_add, ← g.dg1_eq, g.eclen_eq]
  have hdiv := Nat.div_add_mod s.total.toNat s.nblk.toNat
  omega

/-- The same by groups (R152). -/
theorem Geometry.boff_nblk_groups {s : State} (g : Geometry s) :
    boff s s.nblk.toNat = s.g1.toNat * s.dg1.toNat + s.g2.toNat * s.dg2.toNat := by
  rw [g.boff_nblk, ← g.dg1_eq, ← g.g2_eq, ← g.g1_add_g2, g.dg2_eq]
  ring

/-- Settles O48: the blocks consume DATA bytes exactly when DATA and TOTAL leave the same remainder. -/
theorem offsetsInClosedForm : Obligations.OffsetsInClosedForm := by
  refine ⟨boff_eq, fun s g => ⟨g.boff_nblk_groups, g.boff_nblk, ?_, g.boff_add_ec⟩⟩
  have hdata := Nat.div_add_mod s.data.toNat s.nblk.toNat
  rw [g.boff_nblk]
  omega

/-! ### ECGEN (R155) -/

/-- Settles O49: within its domain ECGEN writes one slice of EMEM. -/
theorem ecgenEncodesBlock : Obligations.EcgenEncodesBlock := by
  refine ⟨rfl, zeroFieldIllegal_row .ecgen, onlyIn_permissionRow rfl, fun s hp hb => ⟨fun hr => ?_, ?_⟩⟩
  · exact raisesFault_of_raise (List.mem_singleton.mpr hp) (opEcgen_range hb hr)
  intro hr he hfits d hlength hcells
  have hslen : s.slen.toNat < Config.cells := s.slen.isLt
  have hd : readSlice .dmem s.dmem s.off.toNat (dlen s s.bidx.toNat) = .ok d :=
    (readSlice_ok_iff ..).mpr ⟨hlength, fun j hj => ⟨by rw [dlen] at hj; omega, hcells j hj⟩⟩
  obtain ⟨m, hm, hin, hout⟩ := writeSlice_ok .emem s.emem (s.bidx.toNat * s.eclen.toNat) (rsencode d s.eclen.toNat)
    (.inr (by rw [rsencode_length]; exact hfits))
  rw [rsencode_length] at hin hout
  refine ⟨blockEncoded m s, exec_of_done (List.mem_singleton.mpr hp) (opEcgen_done hb hr he hd hm), ?_, hin, hout⟩
  rw [blockEncoded, hp]
  rfl

/-! ### ILV (R156, R160) -/

/-- Settles O51: the count check is the last thing ILV does. -/
theorem ilvChecksCount : Obligations.IlvChecksCount := by
  refine ⟨rfl, zeroFieldIllegal_row .ilv, onlyIn_permissionRow rfl, fun s bytes m hp hbytes hm => ?_⟩
  have hrow : s.phase ∈ [Phase.ecdone] := List.mem_singleton.mpr hp
  have hop : opIlv s = if bytes.length ≠ s.total.toNat then .raise .internal { s with omem := m }
      else .done { s with omem := m, olen := BitVec.ofNat 12 bytes.length, phase := .outv } := by
    rw [opIlv, hbytes, withValue_ok, hm, withValue_ok]
  refine ⟨fun hne => ?_, fun heq => ?_⟩
  · rw [exec_in_row hrow, pseudocode, hop, if_pos hne, finish_raise, takeFault]
  · rw [if_neg (not_not.mpr heq), heq, BitVec.ofNat_toNat, BitVec.setWidth_eq] at hop
    exact exec_of_done hrow hop

theorem length_flatMap_range {α : Type} {f : Nat → List α} {w m : Nat} (hw : ∀ k < m, (f k).length = w) :
    ((List.range m).flatMap f).length = m * w := by
  rw [List.length_flatMap, List.map_congr_left fun k hk => hw k (List.mem_range.mp hk)]
  simp

/-- Entry `j` of row `i` lies within the first `m` rows. -/
theorem row_entry_lt {w m i j : Nat} (hi : i < m) (hj : j < w) : i * w + j < m * w :=
  calc i * w + j < (i + 1) * w := by rw [Nat.succ_mul]; omega
    _ ≤ m * w := Nat.mul_le_mul_right _ hi

/-- A table of `m` rows of `w` entries, row after row: entry `j` of row `i` is at `i * w + j`. -/
theorem getElem?_flatMap_range {α : Type} {f : Nat → List α} {w m i j : Nat} (hw : ∀ k < m, (f k).length = w) (hi : i < m)
    (hj : j < w) : ((List.range m).flatMap f)[i * w + j]? = (f i)[j]? := by
  induction m with
  | zero => exact absurd hi i.not_lt_zero
  | succ m ih =>
    have hw' : ∀ k < m, (f k).length = w := fun k hk => hw k (Nat.lt_succ_of_lt hk)
    have hlength := length_flatMap_range hw'
    rw [List.range_succ, List.flatMap_append, List.flatMap_singleton]
    rcases Nat.lt_succ_iff_lt_or_eq.mp hi with hlt | rfl
    · rw [List.getElem?_append_left (hlength ▸ row_entry_lt hlt hj), ih hw' hlt]
    · rw [List.getElem?_append_right (by omega), hlength, Nat.add_sub_cancel_left]

/-- Up to the length of the shorter blocks every block has a byte to emit. -/
theorem Geometry.dataRow_full {s : State} (g : Geometry s) {i : Nat} (hi : i < s.dg1.toNat) :
    dataRow s i = (List.range s.nblk.toNat).map fun b => (Buffer.dmem, boff s b + i) := by
  have hdg2 := g.dg2_eq
  rw [dataRow, List.filter_eq_self.mpr fun b _ => by rw [dlen, decide_eq_true_eq]; split <;> omega]

/-- The last data position: the blocks of group 2 have one byte more (R156). -/
theorem Geometry.dataRow_last {s : State} (g : Geometry s) :
    dataRow s s.dg1.toNat = (List.range s.g2.toNat).map fun j => (Buffer.dmem, boff s (s.g1.toNat + j) + s.dg1.toNat) := by
  have hfirst : (List.range s.g1.toNat).filter (fun b => s.dg1.toNat < dlen s b) = [] :=
    List.filter_eq_nil_iff.mpr fun b hb => by simp [dlen, List.mem_range.mp hb]
  have hsecond : ((List.range s.g2.toNat).map (s.g1.toNat + ·)).filter (fun b => s.dg1.toNat < dlen s b) =
      (List.range s.g2.toNat).map (s.g1.toNat + ·) :=
    List.filter_eq_self.mpr fun b hb => by
      obtain ⟨j, -, rfl⟩ := List.mem_map.mp hb
      simp [dlen, g.dg2_eq]
  rw [dataRow, ← g.g1_add_g2, List.range_add, List.filter_append, hfirst, hsecond, List.nil_append, List.map_map]
  rfl

/-- The first loop of ILV: a full row for each position of the shorter blocks, then the row of group 2. -/
theorem Geometry.dataRows_eq {s : State} (g : Geometry s) :
    (List.range (maxDlen s)).flatMap (dataRow s) =
      (List.range s.dg1.toNat).flatMap (dataRow s) ++ dataRow s s.dg1.toNat := by
  by_cases h2 : 0 < s.g2.toNat
  · rw [maxDlen, if_pos h2, g.dg2_eq, List.range_succ, List.flatMap_append, List.flatMap_singleton]
  · rw [maxDlen, if_neg h2, g.dataRow_last, Nat.eq_zero_of_not_pos h2, List.range_zero, List.map_nil, List.append_nil]

theorem Geometry.dataRow_full_length {s : State} (g : Geometry s) (i : Nat) (hi : i < s.dg1.toNat) :
    (dataRow s i).length = s.nblk.toNat := by
  rw [g.dataRow_full hi, List.length_map, List.length_range]

theorem Geometry.emission_full_row {s : State} (g : Geometry s) {b i : Nat} (hb : b < s.nblk.toNat) (hi : i < s.dg1.toNat) :
    (emission s)[i * s.nblk.toNat + b]? = some (.dmem, boff s b + i) := by
  have hlt : i * s.nblk.toNat + b < ((List.range s.dg1.toNat).flatMap (dataRow s)).length := by
    rw [length_flatMap_range g.dataRow_full_length]
    exact row_entry_lt hi hb
  rw [emission, g.dataRows_eq, List.append_assoc, List.getElem?_append_left hlt,
    getElem?_flatMap_range g.dataRow_full_length hi hb, g.dataRow_full hi]
  simp [hb]

theorem Geometry.emission_last_row {s : State} (g : Geometry s) {b : Nat} (h1 : s.g1.toNat ≤ b) (hb : b < s.nblk.toNat) :
    (emission s)[s.dg1.toNat * s.nblk.toNat + (b - s.g1.toNat)]? = some (.dmem, boff s b + s.dg1.toNat) := by
  have h2 : b - s.g1.toNat < s.g2.toNat := by have := g.g1_add_g2; omega
  rw [emission, g.dataRows_eq, List.append_assoc,
    List.getElem?_append_right (by rw [length_flatMap_range g.dataRow_full_length]; omega),
    length_flatMap_range g.dataRow_full_length, Nat.add_sub_cancel_left, g.dataRow_last,
    List.getElem?_append_left (by simpa using h2)]
  simp [h2, Nat.add_sub_cancel' h1]

theorem Geometry.emission_ec {s : State} (g : Geometry s) {b i : Nat} (hb : b < s.nblk.toNat) (hi : i < s.eclen.toNat) :
    (emission s)[s.g1.toNat * s.dg1.toNat + s.g2.toNat * s.dg2.toNat + i * s.nblk.toNat + b]? =
      some (.emem, b * s.eclen.toNat + i) := by
  have hdata := dataRows_length (s := s) (n := maxDlen s) fun b hb => g.dlen_le_maxDlen hb
  rw [← g.boff_nblk_groups, Nat.add_assoc, emission, List.getElem?_append_right (by omega), hdata, Nat.add_sub_cancel_left,
    getElem?_flatMap_range (fun k _ => by simp [ecRow]) hi hb]
  simp [ecRow, hb]

/-- ILV copies the cell at position `p` of its order to OMEM cell `p` (R156). -/
theorem read_of_emission {s : State} {bytes : List Byte} {m : Memory} {p : Nat} {c : Buffer × Nat}
    (hbytes : readCells s (emission s) = .ok bytes) (hm : writeSlice .omem s.omem 0 bytes = .ok m)
    (hfits : bytes.length ≤ Config.cells) (hc : (emission s)[p]? = some c) :
    Memory.read m p = Memory.read (bufferOf s c.1) c.2 := by
  obtain ⟨m', hm', hin, -⟩ := writeSlice_ok .omem s.omem 0 bytes (.inr (by rwa [Nat.zero_add]))
  obtain rfl : m' = m := Except.ok.inj (hm'.symm.trans hm)
  obtain ⟨hp, rfl⟩ := List.getElem?_eq_some_iff.mp hc
  have hp' : p < bytes.length := by rwa [readCells_length hbytes]
  obtain ⟨-, hv⟩ := ((readCells_ok_iff ..).mp hbytes).get hp hp'
  simpa [hp'] using (hin p hp').trans ((List.getElem?_eq_getElem hp').trans hv.symm)

/-- Settles O50: the position of each cell in the order ILV copies, by data rows, the last data row, and EC rows. -/
theorem ilvInterleaves : Obligations.IlvInterleaves := by
  intro s h hp
  have hpart := h.partitioned (by simp [hp, Phase.partitioned])
  have g := hpart.geometry
  obtain ⟨bytes, m, hbytes, hm, hfilled, hdone⟩ :=
    opIlv_done h.phaseFree hpart (h.encoded (.inl hp)) (h.olen_zero (by simp [hp]))
  have hfits : bytes.length ≤ Config.cells := by
    rw [readCells_length hbytes, g.emission_length]
    exact s.total.isLt.le
  refine ⟨streamComplete m s, exec_of_done (List.mem_singleton.mpr hp) hdone, rfl, hfilled, fun b i hb hi => ?_,
    fun b h1 hb => ?_, fun b i hb hi => ?_⟩
  · exact read_of_emission hbytes hm hfits (g.emission_full_row hb hi)
  · exact read_of_emission hbytes hm hfits (g.emission_last_row h1 hb)
  · exact read_of_emission hbytes hm hfits (g.emission_ec hb hi)

end Sys2Proof.Machine
end

section
/-! PROOFS. 42_ecc_interleave.md: ECRUN. It is its stages given one after another (R157), it completes exactly when the blocks
consume no more than the data stream (R159), and its output depends on the inputs of the interleaver alone (R161). -/

namespace Sys2Proof.Machine

/-! ### Commands given one after another (R157) -/

/-- The outcome of a command sequence is that of a piece of pseudocode, but for the word a fault records. -/
def Flow.SameOutcome : Flow → Host.Outcome State Fault Refusal → Prop
  | .done t, o => o = .next t
  | .raise c u, o => ∃ w, o = .next (takeFault c w u)
  | .stop f, o => o = .fault f

/-- In phase FAULT commands that do not execute there change nothing. -/
theorem execAll_dropped {commands : List Instr} {s : State} (hp : s.phase = .fault)
    (hs : ∀ i ∈ commands, servedInFault i = false) : execAll commands s = .next s := by
  induction commands with
  | nil => rfl
  | cons i rest ih =>
    rw [List.forall_mem_cons] at hs
    rw [execAll, exec_dropped hp hs.1]
    exact ih hs.2

/-- A permitted command and the commands after it are its pseudocode and theirs: after a raise the rest is dropped. -/
theorem sameOutcome_cons {i : Instr} {rest : List Instr} {s : State} {f : State → Flow} (hrow : s.phase ∈ permissionRow i.mnemonic)
    (hrest : ∀ j ∈ rest, servedInFault j = false)
    (hnext : ∀ t, pseudocode i s = .done t → (f t).SameOutcome (execAll rest t)) :
    ((pseudocode i s).andThen f).SameOutcome (execAll (i :: rest) s) := by
  rw [execAll, exec_in_row hrow]
  cases h : pseudocode i s with
  | done t => exact hnext t h
  | raise c u => exact ⟨encode i, execAll_dropped rfl hrest⟩
  | stop f => rfl

theorem sameOutcome_ilv {s : State} (hp : s.phase = .ecdone) : (opIlv s).SameOutcome (execAll [.ilv] s) := by
  rw [execAll, exec_in_row (List.mem_singleton.mpr hp), pseudocode]
  cases opIlv s with
  | done t => rfl
  | raise c u => exact ⟨_, rfl⟩
  | stop f => rfl

theorem servedInFault_blocks (k : Nat) : ∀ i ∈ List.replicate k Instr.ecgen ++ [.ilv], servedInFault i = false := by
  intro i hi
  rcases List.mem_append.mp hi with hi | hi
  · rw [List.eq_of_mem_replicate hi]
    rfl
  · rw [List.mem_singleton.mp hi]
    rfl

/-- With `k` blocks left, `k` ECGENs and ILV run the loop of ECRUN to its end. -/
theorem sameOutcome_blocks {k : Nat} {s : State} (hk : s.bidx.toNat + k = s.nblk.toNat)
    (hp : s.phase = if k = 0 then .ecdone else .parted) :
    ((repeatFlow opEcgen k s).andThen opIlv).SameOutcome (execAll (List.replicate k .ecgen ++ [.ilv]) s) := by
  induction k generalizing s with
  | zero => exact sameOutcome_ilv hp
  | succ k ih =>
    rw [repeatFlow, andThen_assoc, List.replicate_succ, List.cons_append]
    refine sameOutcome_cons (i := .ecgen) (List.mem_singleton.mpr hp) (servedInFault_blocks k) fun t ht => ?_
    have hb : s.bidx.toNat < s.nblk.toNat := by omega
    rcases opEcgen_cases s with ⟨f, hf⟩ | ⟨-, -, hr⟩ | ⟨d, m, -, -, -, -, -, hd⟩
    · exact absurd (hf.symm.trans ht) (by simp)
    · exact absurd (hr.symm.trans ht) (by simp)
    obtain rfl : blockEncoded m s = t := Flow.done.inj (hd.symm.trans ht)
    refine ih ?_ ?_
    · rw [blockEncoded_bidx m hb, Nat.add_right_comm]
      exact hk
    · simp only [blockEncoded, hp]
      exact if_congr (by omega) rfl rfl

theorem opEcrun_sameOutcome {s : State} (hp : s.phase = .load) :
    (opEcrun s).SameOutcome (execAll ([.part] ++ List.replicate s.nblk.toNat .ecgen ++ [.ilv]) s) := by
  rw [opEcrun, andThen_assoc, List.append_assoc, List.singleton_append]
  refine sameOutcome_cons (i := .part) (List.mem_singleton.mpr hp) (servedInFault_blocks _) fun t ht => ?_
  rcases opPart_cases s with ⟨c, -, hr⟩ | ⟨hn, -, -, -, hd⟩
  · exact absurd (hr.symm.trans ht) (by simp)
  obtain rfl : parted s = t := Flow.done.inj (hd.symm.trans ht)
  exact sameOutcome_blocks (Nat.zero_add _) (if_neg hn).symm

/-- Settles O52: by the outcome of ECRUN's pseudocode; a fault leaves phase FAULT on both sides. -/
theorem ecrunIsTheStages : Obligations.EcrunIsTheStages := by
  refine ⟨rfl, zeroFieldIllegal_row .ecrun, onlyIn_permissionRow rfl, fun s hp => ?_⟩
  have hexec : exec .ecrun s = finish (encode .ecrun) (opEcrun s) := exec_in_row (List.mem_singleton.mpr hp)
  have hsame := opEcrun_sameOutcome hp
  have hstages := opEcrun_stages s
  simp only [hexec]
  cases h : opEcrun s with
  | done u =>
    rw [h] at hsame hstages
    rw [hsame, finish_done]
    refine ⟨fun _ _ => Iff.rfl, fun t hf ht => ?_⟩
    obtain rfl := Host.Outcome.next.inj ht
    exact absurd hf (by rw [hstages.2]; decide)
  | raise c u =>
    rw [h] at hsame
    obtain ⟨w, hw⟩ := hsame
    rw [hw, finish_raise]
    have hne {t : State} (ht : t.phase ≠ .fault) (w' : Word) : takeFault c w' u ≠ t := fun h' => ht (h' ▸ rfl)
    refine ⟨fun t ht => iff_of_false (hne ht w ∘ Host.Outcome.next.inj) (hne ht _ ∘ Host.Outcome.next.inj), ?_⟩
    rintro t - ⟨⟩
    rfl
  | stop f =>
    rw [h] at hsame
    rw [hsame, finish_stop]
    exact ⟨fun t _ => by simp, fun t _ ht => by simp at ht⟩

/-! ### When ECRUN completes (R159) -/

theorem Flow.LeadsTo.and {P P' : State → Prop} {Q Q' : Cause → State → Prop} {x : Flow} (h : x.LeadsTo P Q False)
    (h' : x.LeadsTo P' Q' True) : x.LeadsTo (fun s => P s ∧ P' s) (fun c s => Q c s ∧ Q' c s) False := by
  cases x with
  | done s => exact ⟨h, h'⟩
  | raise c s => exact ⟨h, h'⟩
  | stop f => exact h

/-- Nothing differs but what ECGEN writes (R155). -/
def ChangesOnlyBlocks (s t : State) : Prop :=
  t = { s with bidx := t.bidx, off := t.off, emem := t.emem, phase := t.phase }

theorem ChangesOnlyBlocks.trans {s t u : State} (h : ChangesOnlyBlocks s t) (h' : ChangesOnlyBlocks t u) :
    ChangesOnlyBlocks s u := by
  rw [ChangesOnlyBlocks] at h
  rw [ChangesOnlyBlocks, h] at h'
  exact h'

theorem ChangesOnlyBlocks.boff_eq {s t : State} (h : ChangesOnlyBlocks s t) (b : Nat) : boff t b = boff s b :=
  boff_congr (by rw [h]) (by rw [h]) (by rw [h]) b

theorem opEcgen_changesOnlyBlocks (s : State) :
    (opEcgen s).LeadsTo (ChangesOnlyBlocks s)
      (fun c t => c = .range ∧ t = s ∧ s.bidx.toNat < s.nblk.toNat ∧ s.slen.toNat < s.off.toNat + dlen s s.bidx.toNat) True := by
  rcases opEcgen_cases s with ⟨f, hf⟩ | ⟨hb, hlt, hr⟩ | ⟨d, m, -, -, -, -, -, hd⟩
  · rw [hf]
    trivial
  · rw [hr]
    exact ⟨rfl, rfl, hb, hlt⟩
  · rw [hd]
    rfl

/-- What the loop of ECRUN, started in `p`, has done after `k` blocks (R157). -/
def BlocksDone (p : State) (k : Nat) (u : State) : Prop :=
  BlocksEncoded p.nblk.toNat k u ∧ ChangesOnlyBlocks p u

/-- Where the loop of ECRUN, started in `p`, raises a fault: the blocks consume more than the data stream has (R159). -/
def Overconsumes (p : State) (c : Cause) (u : State) : Prop :=
  c = .range ∧ p.slen.toNat < boff p p.nblk.toNat ∧ u.olen = 0

theorem opEcgen_blocksDone {p u : State} {k : Nat} (hk : k < p.nblk.toNat) (h : BlocksDone p k u) :
    (opEcgen u).LeadsTo (BlocksDone p (k + 1)) (Overconsumes p) False := by
  obtain ⟨hblocks, hframe⟩ := h
  have hstep := (opEcgen_keepsBlocksEncoded hk hblocks).and (opEcgen_changesOnlyBlocks u)
  obtain ⟨hinv, -, hbidx, hphase⟩ := hblocks
  rw [if_neg hk.ne] at hphase
  revert hstep
  cases opEcgen u with
  | done v => exact fun ⟨hv, hframe'⟩ => ⟨hv, hframe.trans hframe'⟩
  | raise c v =>
    rintro ⟨-, rfl, rfl, hb, hlt⟩
    have hoff := (hinv.partitioned (by simp [hphase, Phase.partitioned])).off_eq
    have hnblk : v.nblk = p.nblk := by rw [hframe]
    have hslen : v.slen = p.slen := by rw [hframe]
    refine ⟨rfl, ?_, hinv.olen_zero (by simp [hphase])⟩
    calc p.slen.toNat < boff v (v.bidx.toNat + 1) := by rw [boff_succ, ← hoff, ← hslen]; exact hlt
      _ ≤ boff v v.nblk.toNat := boff_mono v hb
      _ = boff p p.nblk.toNat := by rw [hframe.boff_eq, hnblk]
  | stop f => exact False.elim

/-- What ECRUN leads to when PART's tests pass, `p` being the state after PART (R157, R159). -/
structure StreamDone (p t : State) : Prop where
  inv : Inv t
  phase_eq : t.phase = .outv
  frame : t = { p with
    bidx := t.bidx, off := t.off, emem := t.emem, omem := t.omem, olen := p.total, phase := .outv }

theorem opIlv_streamDone {p u : State} (h : BlocksDone p p.nblk.toNat u) :
    (opIlv u).LeadsTo (StreamDone p) (Overconsumes p) False := by
  obtain ⟨⟨hinv, -, -, hphase⟩, hframe⟩ := h
  rw [if_pos rfl] at hphase
  have hkeeps := opIlv_keepsInv hinv hphase
  have hpart := hinv.partitioned (by simp [hphase, Phase.partitioned])
  obtain ⟨-, m, -, -, -, hdone⟩ :=
    opIlv_done hinv.phaseFree hpart (hinv.encoded (.inl hphase)) (hinv.olen_zero (by simp [hphase]))
  rw [hdone] at hkeeps ⊢
  refine ⟨hkeeps.1, rfl, ?_⟩
  rw [streamComplete, hframe]

theorem opEcrun_streamDone {s : State} (h : Inv s) (hp : s.phase = .load) (hd : opPart s = .done (parted s)) :
    (opEcrun s).LeadsTo (StreamDone (parted s)) (Overconsumes (parted s)) False := by
  obtain ⟨hinv, hphase, -, -⟩ := (opPart_keepsInv h hp).done hd
  have hopen : 0 < s.nblk.toNat := hinv.parted_open hphase
  have hstart : BlocksDone (parted s) 0 (parted s) := ⟨⟨hinv, rfl, rfl, (if_neg hopen.ne).symm⟩, rfl⟩
  rw [opEcrun, hd, andThen_done]
  exact (leadsTo_repeatFlow (R := BlocksDone (parted s)) _ (fun _ _ => opEcgen_blocksDone) hstart).andThen
    fun _ => opIlv_streamDone

theorem StreamDone.bidx_eq {p t : State} (h : StreamDone p t) : t.bidx = p.nblk := by
  have hbidx := h.inv.encoded (.inr (by simp [h.phase_eq, Phase.interleaved]))
  rw [hbidx, h.frame]

/-- When ECRUN completes the blocks consume no more than the data stream has, and OFF says how much (R33, R159). -/
theorem StreamDone.off_eq {p t : State} (h : StreamDone p t) :
    t.off.toNat = boff p p.nblk.toNat ∧ boff p p.nblk.toNat ≤ p.slen.toNat := by
  obtain ⟨hoff, hle⟩ := h.inv.offset (by simp [h.phase_eq, Phase.partitioned, Phase.interleaved])
  have hboff : boff t t.bidx.toNat = boff p p.nblk.toNat := by
    rw [h.bidx_eq, boff_congr (s := p) (by rw [h.frame]) (by rw [h.frame]) (by rw [h.frame])]
  have hslen : t.slen = p.slen := by rw [h.frame]
  rw [← hboff, ← hoff, ← hslen]
  exact ⟨rfl, hle⟩

/-- The buffers when ECRUN completes (R38, R39). -/
theorem StreamDone.buffers_filled {p t : State} (h : StreamDone p t) :
    holdsExactly t.omem p.total.toNat ∧ holdsExactly t.emem (p.nblk.toNat * p.eclen.toNat) := by
  have holen : t.olen = p.total := by rw [h.frame]
  have heclen : t.eclen = p.eclen := by rw [h.frame]
  rw [← holen, ← h.bidx_eq, ← heclen]
  exact ⟨h.inv.omem_filled, h.inv.emem_filled⟩

/-- Settles O53: the loop raises F(RANGE) only where the blocks consume more than DATA, and completes only where they do not. -/
theorem ecrunCompletes : Obligations.EcrunCompletes := by
  intro s h hp total data nblk hn hl hlt hd
  have hpart : opPart s = .done (parted s) := by
    rw [opPart_eq, if_neg hn, if_neg (not_not.mpr hl), if_neg hlt.not_ge, if_neg hd]
  have hboff : boff (parted s) (parted s).nblk.toNat = nblk * (data / nblk) + total % nblk :=
    (geometry_parted hn hl hlt hd).boff_nblk
  have hslen : (parted s).slen.toNat = data := congrArg BitVec.toNat hl
  have hrun := opEcrun_streamDone h hp hpart
  rw [exec_in_row (i := .ecrun) (List.mem_singleton.mpr hp), pseudocode]
  generalize opEcrun s = x at hrun
  cases x with
  | done t =>
    have ht : StreamDone (parted s) t := hrun
    obtain ⟨hoff, hle⟩ := ht.off_eq
    obtain ⟨homem, hemem⟩ := ht.buffers_filled
    rw [hboff] at hoff hle
    rw [hslen] at hle
    refine ⟨fun _ => ⟨t, finish_done .., ?_, homem, ?_⟩, fun hover => absurd hover hle.not_gt⟩
    · have hoff' : t.off = BitVec.ofNat 12 (nblk * (data / nblk) + total % nblk) := by
        rw [← hoff, BitVec.ofNat_toNat, BitVec.setWidth_eq]
      rw [← hoff']
      exact ht.bidx_eq ▸ ht.frame
    · have hdiv : total / nblk - data / nblk < 4096 :=
        (Nat.sub_le _ _).trans_lt ((Nat.div_le_self _ _).trans_lt s.total.isLt)
      rw [← toNat_ofNat_len hdiv]
      exact hemem
  | raise c u =>
    obtain ⟨rfl, hover, holen⟩ := hrun
    rw [hboff, hslen] at hover
    exact ⟨fun hle => absurd hle hover.not_ge, fun _ => ⟨_, finish_raise .., rfl, rfl, rfl, holen⟩⟩
  | stop f => exact hrun.elim

/-! ### What the stream depends on (R161) -/

/-- `o` with everything that the interleaver reads or writes taken from `s`. -/
def withInterleaverOf (o s : State) : State :=
  { o with
    phase := s.phase, fcause := s.fcause, total := s.total, data := s.data, nblk := s.nblk, slen := s.slen
    g1 := s.g1, g2 := s.g2, dg1 := s.dg1, dg2 := s.dg2, eclen := s.eclen, bidx := s.bidx, off := s.off, olen := s.olen
    dmem := s.dmem, emem := s.emem, omem := s.omem }

/-- Pseudocode with its last state changed. -/
def Flow.mapState (g : State → State) : Flow → Flow
  | .done s => .done (g s)
  | .raise c s => .raise c (g s)
  | .stop f => .stop f

section
variable {g : State → State}

theorem mapState_withValue {α : Type} (x : Except Fault α) (f : α → Flow) :
    (withValue x f).mapState g = withValue x fun v => (f v).mapState g := by
  cases x <;> rfl

theorem mapState_andThen (x : Flow) {f : State → Flow} (hf : ∀ s, f (g s) = (f s).mapState g) :
    (x.mapState g).andThen f = (x.andThen f).mapState g := by
  cases x with
  | done s => exact hf s
  | raise c s => rfl
  | stop e => rfl

theorem mapState_repeatFlow {body : State → Flow} (hbody : ∀ s, body (g s) = (body s).mapState g) (n : Nat) (s : State) :
    repeatFlow body n (g s) = (repeatFlow body n s).mapState g := by
  induction n generalizing s with
  | zero => rfl
  | succ n ih => rw [repeatFlow, repeatFlow, hbody, mapState_andThen _ ih]

end

section
variable (o s : State)

theorem opPart_withInterleaverOf : opPart (withInterleaverOf o s) = (opPart s).mapState (withInterleaverOf o) := by
  rw [opPart_eq, opPart_eq]
  simp only [apply_ite (Flow.mapState _)]
  rfl

theorem opEcgen_withInterleaverOf : opEcgen (withInterleaverOf o s) = (opEcgen s).mapState (withInterleaverOf o) := by
  unfold opEcgen
  simp only [apply_ite (Flow.mapState _), mapState_withValue]
  rfl

theorem emission_withInterleaverOf : emission (withInterleaverOf o s) = emission s := by
  have hboff := boff_congr (s := s) (t := withInterleaverOf o s) rfl rfl rfl
  have hrow : dataRow (withInterleaverOf o s) = dataRow s := by
    funext i
    simp only [dataRow, hboff]
    rfl
  rw [emission, hrow]
  rfl

theorem readCells_withInterleaverOf (cells : List (Buffer × Nat)) :
    readCells (withInterleaverOf o s) cells = readCells s cells := by
  induction cells with
  | nil => rfl
  | cons c rest ih =>
    obtain ⟨b, a⟩ := c
    have hb : bufferOf (withInterleaverOf o s) b = bufferOf s b := by cases b <;> rfl
    rw [readCells, readCells, ih, hb]

theorem opIlv_withInterleaverOf : opIlv (withInterleaverOf o s) = (opIlv s).mapState (withInterleaverOf o) := by
  unfold opIlv
  rw [emission_withInterleaverOf, readCells_withInterleaverOf]
  simp only [apply_ite (Flow.mapState _), mapState_withValue]
  rfl

theorem opEcrun_withInterleaverOf : opEcrun (withInterleaverOf o s) = (opEcrun s).mapState (withInterleaverOf o) := by
  unfold opEcrun
  rw [opPart_withInterleaverOf, mapState_andThen _ (mapState_repeatFlow (opEcgen_withInterleaverOf o) _),
    mapState_andThen _ (opIlv_withInterleaverOf o)]
  rfl

end

/-- A buffer is given by the cells it lists and the values it reads there. -/
theorem Memory.ext_of_keys {m m' : Memory} (hkeys : m.map Prod.fst = m'.map Prod.fst) (hnodup : (m.map Prod.fst).Nodup)
    (hread : ∀ a ∈ m.map Prod.fst, Memory.read m a = Memory.read m' a) : m = m' := by
  induction m generalizing m' with
  | nil => exact (List.map_eq_nil_iff.mp hkeys.symm).symm
  | cons c rest ih =>
    obtain ⟨b, v⟩ := c
    cases m' with
    | nil => cases hkeys
    | cons c' rest' =>
      obtain ⟨b', v'⟩ := c'
      obtain ⟨rfl, hrest⟩ : b = b' ∧ rest.map Prod.fst = rest'.map Prod.fst := List.cons.inj hkeys
      obtain ⟨hb, hnodup'⟩ := List.nodup_cons.mp hnodup
      have hv : v = v' := by simpa [Memory.read] using hread b List.mem_cons_self
      have htail : ∀ a ∈ rest.map Prod.fst, Memory.read rest a = Memory.read rest' a := fun a ha => by
        have hne : b ≠ a := fun h => hb (h ▸ ha)
        simpa [Memory.read, hne] using hread a (List.mem_cons_of_mem _ ha)
      rw [hv, ih hrest hnodup' htail]

theorem holdsExactly.ext {m m' : Memory} {n : Nat} (h : holdsExactly m n) (h' : holdsExactly m' n)
    (hread : ∀ a < n, Memory.read m a = Memory.read m' a) : m = m' := by
  refine Memory.ext_of_keys (h.trans h'.symm) ?_ ?_ <;> rw [h]
  · exact List.nodup_range
  · exact fun a ha => hread a (List.mem_range.mp ha)

/-- In LOAD, EMEM and OMEM are empty. -/
theorem Inv.buffers_empty {s : State} (h : Inv s) (hp : s.phase = .load) : s.emem = [] ∧ s.omem = [] := by
  have hun := h.unpartitioned hp
  exact ⟨holdsExactly_zero (by simpa [hun.bidx_eq] using h.emem_filled),
    holdsExactly_zero (by simpa [hun.olen_eq] using h.omem_filled)⟩

/-- In LOAD the inputs and the data stream are all that the interleaver finds. -/
theorem Inv.withInterleaverOf_eq {s s' : State} (h : Inv s) (h' : Inv s') (hp : s.phase = .load) (hp' : s'.phase = .load)
    (ht : s.total = s'.total) (hd : s.data = s'.data) (hn : s.nblk = s'.nblk) (hl : s.slen = s'.slen)
    (hmem : ∀ a < s.slen.toNat, Memory.read s.dmem a = Memory.read s'.dmem a) : withInterleaverOf s' s = s' := by
  obtain ⟨h1, h2, h3, h4, h5, h6, h7, h8⟩ := h.unpartitioned hp
  obtain ⟨h1', h2', h3', h4', h5', h6', h7', h8'⟩ := h'.unpartitioned hp'
  obtain ⟨he, ho⟩ := h.buffers_empty hp
  obtain ⟨he', ho'⟩ := h'.buffers_empty hp'
  have hf := (h.noFault (by simp [hp])).fcause_eq
  have hf' := (h'.noFault (by simp [hp'])).fcause_eq
  have hdmem : s.dmem = s'.dmem := h.dmem_filled.ext (hl ▸ h'.dmem_filled) hmem
  rw [withInterleaverOf, hp.trans hp'.symm, hf.trans hf'.symm, ht, hd, hn, hl, h1.trans h1'.symm, h2.trans h2'.symm,
    h3.trans h3'.symm, h4.trans h4'.symm, h5.trans h5'.symm, h6.trans h6'.symm, h7.trans h7'.symm, h8.trans h8'.symm, hdmem,
    he.trans he'.symm, ho.trans ho'.symm]

/-- Settles O54: the two runs are the same run, in states that differ in what the interleaver neither reads nor writes. -/
theorem streamIsFunctionOfInputs : Obligations.StreamIsFunctionOfInputs := by
  intro s s' t t' h h' ht hd hn hl hmem hp hp' hrun hrun'
  have hop : opEcrun s' = (opEcrun s).mapState (withInterleaverOf s') := by
    rw [← opEcrun_withInterleaverOf, h.withInterleaverOf_eq h' hp hp' ht hd hn hl hmem]
  rw [exec_in_row (i := .ecrun) (List.mem_singleton.mpr hp), pseudocode] at hrun
  rw [exec_in_row (i := .ecrun) (List.mem_singleton.mpr hp'), pseudocode, hop] at hrun'
  generalize opEcrun s = x at hrun hrun'
  cases x with
  | stop f => cases hrun
  | _ =>
    cases hrun
    cases hrun'
    exact ⟨rfl, rfl, rfl, rfl⟩

end Sys2Proof.Machine
end

section
/-! PROOFS. 43_mask_eval.md: the trials of an evaluation. The best so far is the winner of the ids tried (R176), by induction over the
trials: each either replaces the best, strictly lower, or leaves it (R173). -/

namespace Sys2Proof.Machine

/-! ### The winner of the ids tried (R176) -/

theorem isWinner_first {s : State} {m : BitVec 3} {x : BitVec 34} (hm : m.toNat = 0) (hx : trialScore s m = some x) :
    isWinner s 1 m x := by
  refine ⟨by omega, hx, fun m' hm' => ?_⟩
  obtain rfl : m' = m := BitVec.eq_of_toNat_eq (by omega)
  exact ⟨x, hx, le_rfl, fun hlt => absurd hlt (lt_irrefl _)⟩

section
variable {s : State} {n : Nat} {best m : BitVec 3} {score x : BitVec 34} (h : isWinner s n best score) (hm : m.toNat = n)
  (hx : trialScore s m = some x)
include h hm hx

/-- The next id wins when its score is strictly lower. -/
theorem isWinner.next_of_lt (hlt : x.toNat < score.toNat) : isWinner s (n + 1) m x := by
  obtain ⟨-, -, hleast⟩ := h
  refine ⟨by omega, hx, fun m' hm' => ?_⟩
  rcases Nat.lt_succ_iff_lt_or_eq.mp hm' with hlt' | heq
  · obtain ⟨y, hy, hle, -⟩ := hleast m' hlt'
    exact ⟨y, hy, by omega, fun _ => by omega⟩
  · obtain rfl : m' = m := BitVec.eq_of_toNat_eq (heq.trans hm.symm)
    exact ⟨x, hx, le_rfl, fun hlt' => absurd hlt' (lt_irrefl _)⟩

/-- The winner so far stays when the score of the next id is not lower: at a tie the lower id wins. -/
theorem isWinner.next_of_le (hle : score.toNat ≤ x.toNat) : isWinner s (n + 1) best score := by
  obtain ⟨hbest, hscore, hleast⟩ := h
  refine ⟨by omega, hscore, fun m' hm' => ?_⟩
  rcases Nat.lt_succ_iff_lt_or_eq.mp hm' with hlt' | heq
  · exact hleast m' hlt'
  · obtain rfl : m' = m := BitVec.eq_of_toNat_eq (heq.trans hm.symm)
    exact ⟨x, hx, hle, fun hlt' => by omega⟩

end

/-- There is one winner. -/
theorem isWinner.unique {s : State} {n : Nat} {best best' : BitVec 3} {score score' : BitVec 34} (h : isWinner s n best score)
    (h' : isWinner s n best' score') : best = best' ∧ score = score' := by
  obtain ⟨hbest, hscore, hleast⟩ := h
  obtain ⟨hbest', hscore', hleast'⟩ := h'
  obtain ⟨x, hx, hle, hlt⟩ := hleast best' hbest'
  obtain ⟨x', hx', hle', hlt'⟩ := hleast' best hbest
  obtain rfl : score' = x := Option.some.inj (hscore'.symm.trans hx)
  obtain rfl : score = x' := Option.some.inj (hscore.symm.trans hx')
  exact ⟨BitVec.eq_of_toNat_eq (by omega), BitVec.eq_of_toNat_eq (by omega)⟩

theorem isWinner.placementOf_ne_none {s : State} {n : Nat} {best m : BitVec 3} {score : BitVec 34} (h : isWinner s n best score)
    (hm : m.toNat < n) : placementOf s m ≠ none := by
  obtain ⟨-, -, hleast⟩ := h
  obtain ⟨x, hx, -⟩ := hleast m hm
  intro hn
  simp [trialScore, hn] at hx

/-- The winner is a matter of the scores. -/
theorem isWinner_congr {s t : State} (h : trialScore t = trialScore s) : isWinner t = isWinner s := by
  unfold isWinner
  rw [h]

/-- What the scores depend on: the values in the stream, the level, the version and the collaborator's answers (R177). -/
theorem trialScore_congr {s t : State} (hread : ∀ a, Memory.read t.omem a = Memory.read s.omem a) (hl : t.olen = s.olen)
    (he : t.ecl = s.ecl) (hv : t.ver = s.ver) (hplace : t.placeAnswers = s.placeAnswers) (hpen : t.penAnswers = s.penAnswers) :
    trialScore t = trialScore s := by
  funext m
  have hbits : readSlice .omem t.omem 0 t.olen.toNat = readSlice .omem s.omem 0 s.olen.toNat := by
    rw [hl]
    exact readSlice_congr _ fun j _ => hread _
  have hplaced : placementOf t m = placementOf s m := by simp only [placementOf, askPlace, hbits, he, hv, hplace]
  rw [trialScore, trialScore, hplaced, funext (scoreOf_congr hpen)]

/-! ### One trial (R172, R173) -/

theorem replacesBest_iff (s : State) (score : BitVec 34) :
    replacesBest s score = true ↔ s.mbestv = false ∨ score.toNat < s.mbscore.toNat := by
  simp [replacesBest]

theorem bestSoFar_of_none {s : State} (h : s.mbestv = false) : bestSoFar s := fun hv => absurd hv (by simp [h])

/-- A trial keeps the best so far the winner of the ids tried. -/
theorem bestSoFar.recordTrial {s : State} {matrix : QrMatrix} (h : bestSoFar s) (hstart : s.mbestv = false → s.mcur = 0)
    (hlt : s.mcur.toNat < 8) (hm : placementOf s (s.mcur.setWidth 3) = some matrix) :
    bestSoFar (recordTrial (s.mcur.setWidth 3) matrix s) := by
  intro _
  have hid : (s.mcur.setWidth 3).toNat = s.mcur.toNat := by bv_omega
  have hnext : (s.mcur + 1).toNat = s.mcur.toNat + 1 := by bv_omega
  have hx : trialScore s (s.mcur.setWidth 3) = some (scoreOf s matrix) := by rw [trialScore, hm, Option.map_some]
  have hsame : isWinner (Machine.recordTrial (s.mcur.setWidth 3) matrix s) = isWinner s := isWinner_congr rfl
  rw [hsame, recordTrial_mcur, recordTrial_mbest, recordTrial_mbscore, hnext]
  cases hv : s.mbestv with
  | false =>
    have hfirst := hstart hv
    rw [if_pos ((replacesBest_iff s _).mpr (.inl hv)), if_pos ((replacesBest_iff s _).mpr (.inl hv)), hfirst]
    rw [hfirst] at hx
    exact isWinner_first rfl hx
  | true =>
    by_cases hlower : (scoreOf s matrix).toNat < s.mbscore.toNat
    · rw [if_pos ((replacesBest_iff s _).mpr (.inr hlower)), if_pos ((replacesBest_iff s _).mpr (.inr hlower))]
      exact (h hv).next_of_lt hid hx hlower
    · have hstays : ¬ replacesBest s (scoreOf s matrix) = true := by simp [replacesBest_iff, hv, hlower]
      rw [if_neg hstays, if_neg hstays]
      exact (h hv).next_of_le hid hx (Nat.le_of_not_lt hlower)

/-! ### The stream handed to the collaborator (R170) -/

/-- Every cell of the stream holds a value. -/
def StreamWritten (s : State) : Prop := ∃ bits, readSlice .omem s.omem 0 s.olen.toNat = .ok bits

theorem readSlice_stream {s : State} {bits : List Byte} (hlength : bits.length = s.olen.toNat)
    (hcells : ∀ j, j < bits.length → Memory.read s.omem j = bits[j]?) : readSlice .omem s.omem 0 s.olen.toNat = .ok bits := by
  have holen : s.olen.toNat < Config.cells := s.olen.isLt
  refine (readSlice_ok_iff ..).mpr ⟨hlength, fun j hj => ?_⟩
  rw [Nat.zero_add]
  exact ⟨by omega, hcells j (by omega)⟩

theorem placement_of_ok {s : State} {bits : List Byte} {m : BitVec 3} {matrix : QrMatrix}
    (hb : readSlice .omem s.omem 0 s.olen.toNat = .ok bits) (ha : askPlace s ⟨bits, s.ecl, s.ver, m⟩ = .ok matrix)
    (next : QrMatrix → Flow) : placement m s next = next matrix := by
  simp only [placement, hb, withValue_ok, ha]

theorem placement_of_fail {s : State} {bits : List Byte} {m : BitVec 3} (hb : readSlice .omem s.omem 0 s.olen.toNat = .ok bits)
    (ha : askPlace s ⟨bits, s.ecl, s.ver, m⟩ = .fail) (next : QrMatrix → Flow) : placement m s next = .raise .external s := by
  simp only [placement, hb, withValue_ok, ha]

/-- Within its domain MSTEP is one placement. -/
theorem opMstep_eq_placement {s : State} (h : s.mcur.toNat < 8) :
    opMstep s = placement (s.mcur.setWidth 3) s fun matrix => .done (recordTrial (s.mcur.setWidth 3) matrix s) :=
  if_neg (Nat.not_le.mpr h)

theorem opMstep_ne_stop {s : State} (h : s.mcur.toNat < 8) (hs : StreamWritten s) (f : Fault) : opMstep s ≠ .stop f := by
  obtain ⟨bits, hb⟩ := hs
  rw [opMstep_eq_placement h]
  cases ha : askPlace s ⟨bits, s.ecl, s.ver, s.mcur.setWidth 3⟩ with
  | ok matrix => simp [placement_of_ok hb ha]
  | fail => simp [placement_of_fail hb ha]

/-! ### The trials of MRUN (R174) -/

theorem ChangesOnlyEvaluator.placementOf_eq {s t : State} (h : ChangesOnlyEvaluator s t) : placementOf t = placementOf s := by
  rw [h]
  rfl

theorem ChangesOnlyEvaluator.trialScore_eq {s t : State} (h : ChangesOnlyEvaluator s t) : trialScore t = trialScore s := by
  rw [h]
  rfl

theorem ChangesOnlyEvaluator.streamWritten_iff {s t : State} (h : ChangesOnlyEvaluator s t) : StreamWritten t ↔ StreamWritten s := by
  rw [h]
  rfl

/-- What holds in MRUN, started in `s`, after `k` trials that succeeded: the best so far is their winner and MBUF holds the last
placement (R176, R178). -/
structure Evaluated (s : State) (k : Nat) (u : State) : Prop extends Trials s k u where
  best : bestSoFar u
  held : k ≠ 0 → u.mlast.toNat + 1 = k ∧ u.mbuf = placementOf s u.mlast

theorem evaluated_start (s : State) : Evaluated s 0 (evaluationStarted s) :=
  { trials_start s with
    best := bestSoFar_of_none rfl
    held := fun h => absurd rfl h }

theorem Evaluated.isWinner {s u : State} {k : Nat} (h : Evaluated s k u) (hk : k ≠ 0) : isWinner s k u.mbest u.mbscore := by
  rw [← h.mcur_eq, ← isWinner_congr h.frame.trialScore_eq]
  exact h.best (h.tried hk).1

theorem Evaluated.placementOf_ne_none {s u : State} {k : Nat} (h : Evaluated s k u) {m : BitVec 3} (hm : m.toNat < k) :
    placementOf s m ≠ none :=
  (h.isWinner (by omega)).placementOf_ne_none hm

theorem Evaluated.recordTrial {s u : State} {k : Nat} {matrix : QrMatrix} (h : Evaluated s k u) (hk : k < 8)
    (hm : placementOf u (u.mcur.setWidth 3) = some matrix) : Evaluated s (k + 1) (recordTrial (u.mcur.setWidth 3) matrix u) where
  toTrials := h.toTrials.recordTrial hk _ matrix
  best := by
    refine h.best.recordTrial (fun hv => ?_) (by rw [h.mcur_eq]; exact hk) hm
    by_contra hne
    have hk0 : k ≠ 0 := fun h0 => hne (BitVec.eq_of_toNat_eq (h.mcur_eq.trans h0))
    exact absurd (h.tried hk0).1 (by simp [hv])
  held := fun _ => by
    have hmcur := h.mcur_eq
    rw [recordTrial_mlast, recordTrial_mbuf, ← h.frame.placementOf_eq, hm]
    exact ⟨by bv_omega, rfl⟩

/-- How MRUN, started in `s`, fails: the id whose turn it is has no placement, and the ids before it were tried. -/
def FailedTrial (s : State) (c : Cause) (u : State) : Prop :=
  c = .external ∧ ∃ m : BitVec 3, Evaluated s m.toNat u ∧ placementOf s m = none

theorem opMstep_evaluated {s u : State} {k : Nat} (hk : k < 8) (h : Evaluated s k u) :
    (opMstep u).LeadsTo (Evaluated s (k + 1)) (FailedTrial s) (¬ StreamWritten s) := by
  have hmcur := h.mcur_eq
  rcases opMstep_cases u with ⟨f, hf⟩ | ⟨-, hn, hr⟩ | ⟨matrix, -, hm, hd⟩
  · rw [hf]
    exact fun hs => opMstep_ne_stop (by omega) (h.frame.streamWritten_iff.mpr hs) f hf
  · rw [hr]
    have hid : (u.mcur.setWidth 3).toNat = k := by bv_omega
    exact ⟨rfl, u.mcur.setWidth 3, by rw [hid]; exact h, by rw [← h.frame.placementOf_eq]; exact hn⟩
  · rw [hd]
    exact h.recordTrial hk hm

/-- MRUN refuses at its start, or tries the ids in turn until one fails or all 8 are evaluated (R174, R176). -/
theorem opMrun_evaluated (s : State) :
    (s.vset = false ∧ opMrun s = .raise .sequence s) ∨
    (opMrun s).LeadsTo (Evaluated s 8) (FailedTrial s) (¬ StreamWritten s) := by
  unfold opMrun
  rcases opMinit_cases s with ⟨hv, hr⟩ | ⟨-, hd⟩
  · exact .inl ⟨hv, by rw [hr, andThen_raise]⟩
  · refine .inr ?_
    rw [hd, andThen_done]
    exact leadsTo_repeatFlow (R := Evaluated s) 8 (fun _ _ => opMstep_evaluated) (evaluated_start s)

/-! ### Every step keeps the best so far (R176) -/

/-- Where SETS, ILV or ECRUN is permitted no evaluation has begun, so there is no best so far. -/
theorem Inv.mbestv_eq_false {s : State} (h : Inv s) {m : Mnemonic} (hm : permitted m s.phase = true)
    (hset : m = .sets ∨ m = .ilv ∨ m = .ecrun) : s.mbestv = false := by
  refine (h.unevaluated ?_).mbestv_eq
  rcases hset with rfl | rfl | rfl
  · simpa [permitted, or_assoc] using hm
  · exact .inr (.inr (.inl (by simpa [permitted] using hm)))
  · exact .inl (by simpa [permitted] using hm)

theorem Stages.mbestv_eq {s u : State} (h : Stages s u) : u.mbestv = s.mbestv := by rw [h.frame]

section
variable {i : Instr} {s : State} (hinv : Inv s) (hm : permitted i.mnemonic s.phase = true) (hrun : i ≠ .mrun) (hb : bestSoFar s)
include hinv hm hrun hb

/-- A command that is not a trial leaves the scores and the best so far alone, or leaves no best so far. -/
theorem Completes.bestSoFar {t : State} (h : Completes i s t) (hstep : i ≠ .mstep) : bestSoFar t := by
  cases h with
  | mstep => exact absurd rfl hstep
  | mrun => exact absurd rfl hrun
  | clr | minit => exact bestSoFar_of_none rfl
  | sets => exact bestSoFar_of_none (hinv.mbestv_eq_false hm (.inl rfl))
  | ilv => exact bestSoFar_of_none (hinv.mbestv_eq_false hm (.inr (.inl rfl)))
  | ecrun ht => exact bestSoFar_of_none (ht.mbestv_eq.trans (hinv.mbestv_eq_false hm (.inr (.inr rfl))))
  | _ => exact hb

theorem Raises.bestSoFar {c : Cause} {u : State} (h : Raises i s c u) : bestSoFar u := by
  cases h with
  | mrun => exact absurd rfl hrun
  | ilv => exact bestSoFar_of_none (hinv.mbestv_eq_false hm (.inr (.inl rfl)))
  | ecrun ht => exact bestSoFar_of_none (ht.mbestv_eq.trans (hinv.mbestv_eq_false hm (.inr (.inr rfl))))
  | _ => exact hb

end

theorem opMstep_keepsBestSoFar {s : State} (hinv : Inv s) (hp : s.phase = .masking) (hb : bestSoFar s) :
    (opMstep s).LeadsTo bestSoFar (fun _ => bestSoFar) True := by
  obtain ⟨hlt, -, hbest, -⟩ := hinv.masking hp
  rcases opMstep_cases s with ⟨f, hf⟩ | ⟨-, -, hr⟩ | ⟨matrix, -, hm, hd⟩
  · rw [hf]
    trivial
  · rw [hr]
    exact hb
  · rw [hd]
    refine hb.recordTrial (fun hv => ?_) hlt hm
    by_contra hne
    exact absurd (hbest.mpr hne) (by simp [hv])

theorem opMrun_keepsBestSoFar {s : State} (hb : bestSoFar s) : (opMrun s).LeadsTo bestSoFar (fun _ => bestSoFar) True := by
  rcases opMrun_evaluated s with ⟨-, hr⟩ | h
  · rw [hr]
    exact hb
  generalize opMrun s = x at h
  cases x with
  | done t => exact h.best
  | raise c u =>
    obtain ⟨-, m, hu, -⟩ := h
    exact hu.best
  | stop f => trivial

theorem pseudocode_keepsBestSoFar {i : Instr} {s : State} (hinv : Inv s) (hm : permitted i.mnemonic s.phase = true)
    (hb : bestSoFar s) : (pseudocode i s).LeadsTo bestSoFar (fun _ => bestSoFar) True := by
  by_cases hstep : i = .mstep
  · subst hstep
    exact opMstep_keepsBestSoFar hinv (by simpa [Instr.mnemonic, permitted] using hm) hb
  by_cases hrun : i = .mrun
  · subst hrun
    exact opMrun_keepsBestSoFar hb
  have h := pseudocode_effect i s
  generalize pseudocode i s = x at h
  cases x with
  | done t => exact Completes.bestSoFar hinv hm hrun hb h hstep
  | raise c u => exact Raises.bestSoFar hinv hm hrun hb h
  | stop f => trivial

/-- NOP, CLR and RDR, which are served in phase FAULT, are permitted in every phase. -/
theorem permitted_of_executes {i : Instr} {s : State} (hs : s.phase = .fault → servedInFault i = true)
    (hm : s.phase ≠ .fault → permitted i.mnemonic s.phase = true) : permitted i.mnemonic s.phase = true := by
  by_cases hp : s.phase = .fault
  · rcases (servedInFault_iff i).mp (hs hp) with rfl | rfl | ⟨n, rfl, -⟩ <;> rfl
  · exact hm hp

theorem exec_keepsBestSoFar {i : Instr} {s t : State} (hinv : Inv s) (hb : bestSoFar s) (h : exec i s = .next t) :
    bestSoFar t := by
  obtain ⟨-, -, rfl⟩ | ⟨-, -, rfl⟩ | ⟨hs, hm, hd | ⟨c, u, hr, rfl⟩⟩ := exec_cases h
  · exact hb
  · exact hb
  · exact (pseudocode_keepsBestSoFar hinv (permitted_of_executes hs hm) hb).done hd
  · have hu : bestSoFar u := (pseudocode_keepsBestSoFar hinv (permitted_of_executes hs hm) hb).raise hr
    exact hu

theorem takeWord_keepsBestSoFar {w : Word} {s t : State} (hinv : Inv s) (hb : bestSoFar s) (h : takeWord w s = .next t) :
    bestSoFar t := by
  unfold takeWord at h
  split at h
  · exact exec_keepsBestSoFar hinv hb h
  · cases h
    unfold illegalWord
    split <;> exact hb

/-- Settles O25, by cases on the host's next transaction; the trials are those of MSTEP and of the loop of MRUN. -/
theorem stepKeepsBestSoFar : Obligations.StepKeepsBestSoFar := by
  intro s t hinv hb h
  unfold step at h
  split at h
  · cases h
    exact hb
  · cases h
    exact bestSoFar_of_none rfl
  · refine takeWord_keepsBestSoFar ?_ ?_ h
    · exact hinv.with_streams _ _ s.rsp
    · exact hb

end Sys2Proof.Machine
end

section
/-! PROOFS. 43_mask_eval.md: the commands of the evaluator (R171 to R175), and the winner MRUN finds (R176 to R178). -/

namespace Sys2Proof.Machine

/-! ### MINIT, MSTEP and MPLACE (R171, R172, R175) -/

/-- Settles O55, by the two outcomes of MINIT's pseudocode. -/
theorem minitStartsEvaluation : Obligations.MinitStartsEvaluation := by
  refine ⟨rfl, zeroFieldIllegal_row .minit, onlyIn_permissionRow rfl, fun s hrow => ?_⟩
  rcases opMinit_cases s with ⟨hv, hr⟩ | ⟨hv, hd⟩
  · exact ⟨fun _ => raisesFault_of_raise hrow hr, fun hv' => absurd hv' (by simp [hv])⟩
  · exact ⟨fun hv' => absurd hv' (by simp [hv]), fun _ => exec_of_done hrow hd⟩

/-- A trial in the terms of R172 and R173: the score is the sum of the four penalties. -/
theorem recordTrial_eq {s : State} {matrix : QrMatrix} {score : Nat} (hp : s.phase = .masking)
    (hscore : (scoreOf s matrix).toNat = score) :
    recordTrial (s.mcur.setWidth 3) matrix s = { s with
      mbuf := some matrix, mlast := BitVec.ofNat 3 s.mcur.toNat, mlastv := true, mfinal := false
      mbest := if s.mbestv = false ∨ score < s.mbscore.toNat then BitVec.ofNat 3 s.mcur.toNat else s.mbest
      mbscore := if s.mbestv = false ∨ score < s.mbscore.toNat then BitVec.ofNat 34 score else s.mbscore
      mbestv := true, mcur := s.mcur + 1, phase := if s.mcur = 7 then .mdone else .masking } := by
  have hlast : s.mcur.toNat + 1 = Config.nmask ↔ s.mcur = 7 := by
    rw [Config.nmask]
    bv_omega
  simp only [recordTrial, mbestv_or_replacesBest, replacesBest_iff, hlast, hp, ← hscore, BitVec.ofNat_toNat, BitVec.setWidth_eq]

/-- Settles O56: where the collaborator answers `ok`, MSTEP records the trial. -/
theorem mstepTriesOneMask : Obligations.MstepTriesOneMask := by
  refine ⟨rfl, zeroFieldIllegal_row .mstep, onlyIn_permissionRow rfl, fun s bits hp hlt hlength hcells => ?_⟩
  have hrow : s.phase ∈ [Phase.masking] := List.mem_singleton.mpr hp
  have hb := readSlice_stream hlength hcells
  simp only [BitVec.ofNat_toNat]
  refine ⟨fun matrix ha => ?_, fun ha => ?_⟩
  · have hd := (opMstep_eq_placement hlt).trans (placement_of_ok hb ha _)
    rw [recordTrial_eq hp (scoreOf_toNat s matrix), BitVec.ofNat_toNat] at hd
    exact exec_of_done hrow hd
  · have hr := (opMstep_eq_placement hlt).trans (placement_of_fail hb ha _)
    exact ⟨_, raisesFault_of_raise (i := .mstep) hrow hr, rfl⟩

/-- Settles O59: where the collaborator answers `ok`, MPLACE keeps the placement. -/
theorem mplacePlacesWinner : Obligations.MplacePlacesWinner := by
  refine ⟨rfl, zeroFieldIllegal_row .mplace, onlyIn_permissionRow rfl, fun s bits hrow hlength hcells => ?_⟩
  have hb := readSlice_stream hlength hcells
  exact ⟨fun matrix ha => exec_of_done (i := .mplace) hrow (placement_of_ok hb ha _),
    fun ha => ⟨_, raisesFault_of_raise (i := .mplace) hrow (placement_of_fail hb ha _), rfl⟩⟩

/-! ### MRUN is its stages (R174) -/

/-- With `k` ids left, `k` MSTEPs run the loop of MRUN to its end. -/
theorem sameOutcome_trials {k : Nat} {s : State} (hk : s.mcur.toNat + k = 8) (hp : s.phase = if k = 0 then .mdone else .masking) :
    (repeatFlow opMstep k s).SameOutcome (execAll (List.replicate k .mstep) s) := by
  induction k generalizing s with
  | zero => rfl
  | succ k ih =>
    have hlt : s.mcur.toNat < 8 := by omega
    refine sameOutcome_cons (i := .mstep) (List.mem_singleton.mpr hp) (fun i hi => by rw [List.eq_of_mem_replicate hi]; rfl)
      fun t ht => ?_
    rcases opMstep_cases s with ⟨f, hf⟩ | ⟨-, -, hr⟩ | ⟨matrix, -, -, hd⟩
    · exact absurd (hf.symm.trans ht) (by simp)
    · exact absurd (hr.symm.trans ht) (by simp)
    obtain rfl : recordTrial (s.mcur.setWidth 3) matrix s = t := Flow.done.inj (hd.symm.trans ht)
    refine ih ?_ ?_
    · rw [recordTrial_mcur]
      bv_omega
    · rw [recordTrial_phase, hp, Config.nmask]
      exact if_congr (by omega) rfl rfl

theorem opMrun_sameOutcome {s : State} (hrow : s.phase ∈ permissionRow .mrun) :
    (opMrun s).SameOutcome (execAll ([.minit] ++ List.replicate 8 .mstep) s) := by
  refine sameOutcome_cons (i := .minit) hrow (fun i hi => by rw [List.eq_of_mem_replicate hi]; rfl) fun t ht => ?_
  rcases opMinit_cases s with ⟨-, hr⟩ | ⟨-, hd⟩
  · exact absurd (hr.symm.trans ht) (by simp)
  obtain rfl : evaluationStarted s = t := Flow.done.inj (hd.symm.trans ht)
  exact sameOutcome_trials rfl rfl

/-- A command whose pseudocode has the outcome of a command sequence is that sequence, but for the word a fault records. -/
theorem Flow.SameOutcome.finish {x : Flow} {o : Host.Outcome State Fault Refusal} (h : x.SameOutcome o)
    (hdone : ∀ t, x = .done t → t.phase ≠ .fault) (w : Word) :
    (∀ t, t.phase ≠ .fault → (o = .next t ↔ finish w x = .next t)) ∧
    (∀ t, t.phase = .fault → o = .next t → finish w x = .next { t with fcmd := w }) := by
  cases x with
  | done u =>
    obtain rfl : o = .next u := h
    refine ⟨fun _ _ => Iff.rfl, fun t hf ht => ?_⟩
    obtain rfl := Host.Outcome.next.inj ht
    exact absurd hf (hdone u rfl)
  | raise c u =>
    obtain ⟨w', rfl⟩ := h
    have hne {t : State} (ht : t.phase ≠ .fault) (v : Word) : takeFault c v u ≠ t := fun h' => ht (h' ▸ rfl)
    refine ⟨fun t ht => iff_of_false (hne ht w' ∘ Host.Outcome.next.inj) (hne ht w ∘ Host.Outcome.next.inj), ?_⟩
    rintro t - ⟨⟩
    rfl
  | stop f =>
    obtain rfl : o = .fault f := h
    exact ⟨fun t _ => by simp, fun t _ ht => by simp at ht⟩

/-- Settles O57: MRUN's pseudocode has the outcome of its stages, and completes in MDONE. -/
theorem mrunIsTheStages : Obligations.MrunIsTheStages := by
  refine ⟨rfl, zeroFieldIllegal_row .mrun, onlyIn_permissionRow rfl, fun s hrow => ?_⟩
  have hexec : exec .mrun s = finish (encode .mrun) (opMrun s) := exec_in_row hrow
  have hp := ne_fault_of_mem_permissionRow (m := .mrun) hrow
  have hm := (permitted_iff_row .mrun hp).mpr hrow
  simp only [hexec]
  refine (opMrun_sameOutcome hrow).finish (fun t ht => ?_) _
  rw [(completes_of_done (i := .mrun) ht).phase_eq hm]
  exact phaseAfter_ne_fault _ hp

/-! ### The winner of MRUN (R176 to R178) -/

theorem streamWritten_of_placementOf_ne_none {s : State} {m : BitVec 3} (h : placementOf s m ≠ none) : StreamWritten s := by
  unfold placementOf at h
  split at h
  · exact absurd rfl h
  · next bits hb => exact ⟨bits, hb⟩

theorem Evaluated.completed_eq {s t : State} (h : Evaluated s 8 t) :
    t = { s with
      mbuf := placementOf s 7, mlast := 7, mlastv := true, mfinal := false, mbest := t.mbest, mbscore := t.mbscore
      mbestv := true, mcur := 8, phase := .mdone } := by
  obtain ⟨hbestv, hlastv⟩ := h.tried (by decide)
  obtain ⟨hlast, hbuf⟩ := h.held (by decide)
  have hseven : t.mlast = 7 := by bv_omega
  have hcur : t.mcur = 8 := BitVec.eq_of_toNat_eq h.mcur_eq
  have hframe := h.frame
  rw [ChangesOnlyEvaluator, hbuf, hseven, hcur, hbestv, hlastv, h.mfinal_eq, h.phase_eq] at hframe
  exact hframe

/-- Settles O58: MRUN stops at the first id that has no placement, and there is none exactly when all 8 have one. -/
theorem mrunFindsWinner : Obligations.MrunFindsWinner := by
  intro s hrow hv
  have hexec : exec .mrun s = finish (encode .mrun) (opMrun s) := exec_in_row hrow
  rcases opMrun_evaluated s with ⟨hv', -⟩ | h
  · exact absurd hv (by simp [hv'])
  rw [hexec]
  generalize opMrun s = x at h
  refine ⟨fun hall => ?_, fun m bits hb hm hleast => ?_⟩
  · cases x with
    | done t => exact ⟨t, rfl, h.completed_eq, h.isWinner (by decide)⟩
    | raise c u =>
      obtain ⟨-, m, -, hm⟩ := h
      exact absurd hm (hall m)
    | stop f => exact absurd (streamWritten_of_placementOf_ne_none (hall 0)) h
  · cases x with
    | done t => exact absurd hm (h.placementOf_ne_none m.isLt)
    | raise c u =>
      obtain ⟨rfl, m', hu, hm'⟩ := h
      have hle : m.toNat ≤ m'.toNat := Nat.le_of_not_lt fun hlt => hleast m' hlt hm'
      have hge : m'.toNat ≤ m.toNat := Nat.le_of_not_lt fun hlt => hu.placementOf_ne_none hlt hm
      exact ⟨_, rfl, rfl, rfl, rfl, hu.mcur_eq.trans (Nat.le_antisymm hge hle)⟩
    | stop f => exact absurd ⟨bits, hb⟩ h

/-- A successful MRUN leaves the winner (R176). -/
theorem isWinner_of_exec_mrun {s t : State} (hrow : s.phase ∈ permissionRow .mrun) (h : exec .mrun s = .next t)
    (ht : t.phase ≠ .fault) : isWinner s 8 t.mbest t.mbscore := by
  rw [exec_in_row hrow] at h
  rcases (finish_eq_next _ _ _).mp h with hd | ⟨c, u, -, rfl⟩
  · rcases opMrun_evaluated s with ⟨-, hr⟩ | hev
    · exact absurd (hr.symm.trans hd) (by simp)
    · exact (hev.done hd).isWinner (by decide)
  · exact absurd rfl ht

/-- Settles O60: both states have the same scores, and there is one winner. -/
theorem winnerIsDetermined : Obligations.WinnerIsDetermined := by
  intro s s' t t' homem hl he hv hplace hpen hrow hrow' hrun hrun' ht ht'
  have hw := isWinner_of_exec_mrun hrow hrun ht
  rw [isWinner_congr (trialScore_congr homem hl he hv hplace hpen)] at hw
  exact hw.unique (isWinner_of_exec_mrun hrow' hrun' ht')

end Sys2Proof.Machine
end

section
/-! PROOFS. 60_exceptions.md: what a fault records (R192, R193), what executes in phase FAULT (R195), and the ways out of it (R198). -/

namespace Sys2Proof.Machine

/-! ### Fault entry (R192, R193) -/

/-- A command that ends in FAULT from another phase took a fault there: F(SEQUENCE) of the permission table (R25), or a cause its
pseudocode raised. -/
theorem exec_faulted {i : Instr} {s t : State} (hs : s.phase ≠ .fault) (h : exec i s = .next t) (ht : t.phase = .fault) :
    (permitted i.mnemonic s.phase = false ∧ t = takeFault .sequence (encode i) s) ∨
    ∃ c u, Raises i s c u ∧ t = takeFault c (encode i) u := by
  obtain ⟨hp, -⟩ | ⟨-, hm, htake⟩ | ⟨-, hm, hd | ⟨c, u, hr, htake⟩⟩ := exec_cases h
  · exact absurd hp hs
  · exact .inl ⟨hm, htake⟩
  · rw [(completes_of_done hd).phase_eq (hm hs)] at ht
    exact absurd ht (phaseAfter_ne_fault _ hs)
  · exact .inr ⟨c, u, raises_of_raise hr, htake⟩

theorem none_not_mem_causesOf (m : Mnemonic) : Cause.none ∉ causesOf m := by
  cases m <;> decide

theorem Raises.cause_ne_none {i : Instr} {s u : State} {c : Cause} (h : Raises i s c u) : c ≠ .none := by
  rintro rfl
  rcases h.cause with hc | ⟨hc, -⟩
  · exact none_not_mem_causesOf _ hc
  · cases hc

/-- Settles O13: both ways to a fault record the command's word and respond nothing. -/
theorem faultEntry : Obligations.FaultEntry := by
  refine ⟨fun _ _ _ => rfl, fun i s t hs h ht => ?_⟩
  obtain ⟨-, rfl⟩ | ⟨c, u, hr, rfl⟩ := exec_faulted hs h ht
  · exact ⟨rfl, Cause.noConfusion, rfl⟩
  · exact ⟨rfl, hr.cause_ne_none, hr.rsp_eq⟩

/-- The rows of R25 that mark every phase but FAULT for NOP, CLR, RDR and RDD. -/
theorem ne_of_refused {m : Mnemonic} {p : Phase} (hp : p ≠ .fault) (hm : permitted m p = false) :
    m ≠ .nop ∧ m ≠ .clr ∧ m ≠ .rdr ∧ m ≠ .rdd := by
  refine ⟨?_, ?_, ?_, ?_⟩ <;> rintro rfl
  · cases hm
  · cases hm
  · cases hm
  · exact hp (by simpa [permitted] using hm)

/-- Settles O16: F(SEQUENCE) comes from the permission table or from MINIT and MRUN, every other cause from the command's row. -/
theorem causesOfCommands : Obligations.CausesOfCommands := by
  intro i s t hs h ht
  obtain ⟨hm, rfl⟩ | ⟨c, u, hr, rfl⟩ := exec_faulted hs h ht
  · exact .inl ⟨rfl, ne_of_refused hs hm⟩
  · rcases hr.cause with hc | ⟨rfl, rfl | rfl, -⟩
    · exact .inr hc
    · exact .inl ⟨rfl, by decide⟩
    · exact .inl ⟨rfl, by decide⟩

/-! ### Phase FAULT (R195) -/

theorem takeWord_encode (i : Instr) (s : State) : takeWord (encode i) s = exec i s :=
  takeWord_of_command (decodeOfEncode i) s

theorem takeWord_clr (s : State) : takeWord 0x01000000 s = .next (clearBlock s) :=
  (takeWord_encode .clr s).trans (exec_clr s)

theorem exec_nop (s : State) : exec .nop s = .next s := by
  obtain ⟨-, -, hnop⟩ := nopDoesNothing
  exact hnop s

/-- The word of RDR of register `n` (R83, R86). -/
theorem eq_encode_rdr {w : Word} {n : Nat} (hn : n ≤ 19) (hw : w.toNat = 0x08000000 + n) :
    w = encode (.rdr (BitVec.ofNat 8 n)) := by
  apply BitVec.eq_of_toNat_eq
  rw [hw, toNat_encode]
  show 0x08000000 + n = 2 ^ 24 * 8 + n % 2 ^ 8
  omega

/-- A word that is neither CLR nor an RDR of a register changes nothing in phase FAULT. -/
theorem takeWord_of_fault {w : Word} {s : State} (hp : s.phase = .fault) (hclr : w ≠ encode .clr)
    (hrdr : ∀ n : Byte, n.toNat ≤ 19 → w ≠ encode (.rdr n)) : takeWord w s = .next s := by
  cases hd : decode w with
  | illegal why => rw [takeWord_of_illegal hd, illegalWord_of_fault hp]
  | command i =>
    obtain rfl : encode i = w := encodeOfDecode w i hd
    rw [takeWord_encode]
    cases hs : servedInFault i with
    | false => exact exec_dropped hp hs
    | true =>
      rcases (servedInFault_iff i).mp hs with rfl | rfl | ⟨n, rfl, hn⟩
      · exact exec_nop s
      · exact absurd rfl hclr
      · exact absurd rfl (hrdr n ((registerOfNumber_isSome_iff n).mp hn))

/-- Settles O14: NOP, CLR and RDR by their own rules, every other word by the filter. -/
theorem faultPhaseFilter : Obligations.FaultPhaseFilter := by
  refine fun w s hp => ⟨?_, ?_, fun n hn hw => ?_, fun hclr hrdr => ?_⟩
  · rintro rfl
    exact (takeWord_encode .nop s).trans (exec_nop s)
  · rintro rfl
    exact ⟨clearBlock s, takeWord_clr s, resetValues_clearBlock s, rfl⟩
  · have hnumber : (BitVec.ofNat 8 n).toNat = n := by rw [BitVec.toNat_ofNat]; omega
    obtain ⟨-, hrdr⟩ := rdrReadsRegister
    obtain ⟨-, hreads, -⟩ := hrdr (BitVec.ofNat 8 n) s
    obtain ⟨v, hv, hexec⟩ := hreads (hnumber.le.trans hn)
    exact ⟨v, hnumber ▸ hv, by rw [eq_encode_rdr hn hw, takeWord_encode, hexec]⟩
  · refine takeWord_of_fault hp hclr fun n hn hw => hrdr _ hn ?_
    rw [hw]
    exact toNat_encode (.rdr n)

/-! ### The ways out of phase FAULT (R198) -/

/-- A word but CLR leaves phase FAULT and the record of the first fault. -/
theorem takeWord_keeps_fault {w : Word} {s t : State} (hp : s.phase = .fault) (hclr : w ≠ 0x01000000)
    (h : takeWord w s = .next t) : t.phase = .fault ∧ t.fcause = s.fcause ∧ t.fcmd = s.fcmd := by
  obtain ⟨-, -, hregister, hdropped⟩ := faultPhaseFilter w s hp
  by_cases hrdr : ∃ n : Nat, n ≤ 19 ∧ w.toNat = 0x08000000 + n
  · obtain ⟨n, hn, hw⟩ := hrdr
    obtain ⟨v, -, hv⟩ := hregister n hn hw
    cases hv.symm.trans h
    exact ⟨hp, rfl, rfl⟩
  · cases (hdropped hclr fun n hn hw => hrdr ⟨n, hn, hw⟩).symm.trans h
    exact ⟨hp, rfl, rfl⟩

/-- Settles O15, by the host's next transaction: none, a reset, or a word. -/
theorem firstFaultStays : Obligations.FirstFaultStays := by
  intro s t hp h
  rcases hin : s.input with _ | ⟨w | _, rest⟩
  · cases (step_of_no_input hin).symm.trans h
    exact .inl ⟨hp, rfl, rfl⟩
  · rw [step_of_command_input hin] at h
    by_cases hclr : w = 0x01000000
    · subst hclr
      cases (takeWord_clr _).symm.trans h
      exact .inr ⟨resetValues_clearBlock _, rest, .inr rfl⟩
    · exact .inl (takeWord_keeps_fault (s := { s with input := rest, pc := s.pc + 1 }) hp hclr h)
  · cases (step_of_reset_input hin).symm.trans h
    exact .inr ⟨resetValues_clearBlock _, rest, .inl rfl⟩

end Sys2Proof.Machine
end

section
/-! PROOFS. 70_reset_and_hazards.md: responses are counted by the commands that respond (R225), and the inputs freeze (R227). -/

namespace Sys2Proof.Machine

/-! ### Responses over a command sequence (R225) -/

theorem execAll_cons_eq_next {i : Instr} {rest : List Instr} {s t : State} (h : execAll (i :: rest) s = .next t) :
    ∃ u, exec i s = .next u ∧ execAll rest u = .next t := by
  rw [execAll] at h
  cases hu : exec i s with
  | next u => exact ⟨u, rfl, by rwa [hu] at h⟩
  | fault f => rw [hu] at h; cases h
  | refused r => rw [hu] at h; cases h

/-- Phase FAULT is left by CLR only, so a command that ends outside it started outside it (R26). -/
theorem phase_ne_fault_of_exec {i : Instr} {s t : State} (hclr : i ≠ .clr) (h : exec i s = .next t) (ht : t.phase ≠ .fault) :
    s.phase ≠ .fault := by
  intro hs
  obtain ⟨htransition, -⟩ := phaseTransitions
  obtain ⟨-, hfault⟩ := htransition i s t h
  exact ht ((hfault hs).trans (if_neg hclr))

/-- R46 as a count: outside phase FAULT a command responds once or never. -/
theorem exec_responses {i : Instr} {s t : State} (h : exec i s = .next t) (hs : s.phase ≠ .fault) (ht : t.phase ≠ .fault) :
    ∃ words, t.rsp = s.rsp ++ words ∧ words.length = if responds i then 1 else 0 := by
  obtain ⟨-, hcompletes⟩ := completes_of_no_fault h hs ht
  cases hi : responds i with
  | true =>
    obtain ⟨v, hv⟩ := hcompletes.rsp_of_responds hi
    exact ⟨[v], hv, rfl⟩
  | false => exact ⟨[], by rw [hcompletes.rsp_of_not_responds hi, List.append_nil], rfl⟩

/-- The count of R225, and that no command of the sequence started in phase FAULT, by induction on the sequence. -/
theorem execAll_responses {commands : List Instr} {s t : State} (hclr : .clr ∉ commands) (h : execAll commands s = .next t)
    (ht : t.phase ≠ .fault) :
    s.phase ≠ .fault ∧ ∃ words, t.rsp = s.rsp ++ words ∧ words.length = commands.countP responds := by
  induction commands generalizing s with
  | nil =>
    cases h
    exact ⟨ht, [], (List.append_nil _).symm, rfl⟩
  | cons i rest ih =>
    obtain ⟨hi, hrest⟩ := List.ne_and_not_mem_of_not_mem_cons hclr
    obtain ⟨u, hu, hexec⟩ := execAll_cons_eq_next h
    obtain ⟨hup, later, hlater, hlaterLength⟩ := ih hrest hexec
    have hs := phase_ne_fault_of_exec (Ne.symm hi) hu hup
    obtain ⟨first, hfirst, hfirstLength⟩ := exec_responses hu hs hup
    refine ⟨hs, first ++ later, by rw [hlater, hfirst, List.append_assoc], ?_⟩
    rw [List.length_append, hfirstLength, hlaterLength, List.countP_cons, Nat.add_comm]

/-- Settles O20, by induction on the sequence: FAULT stays without CLR, so each command completed and made its own responses. -/
theorem responsesPairUp : Obligations.ResponsesPairUp := fun _ _ _ hclr h ht => (execAll_responses hclr h ht).2

/-! ### The inputs freeze (R227) -/

/-- Outside its phases a command is dropped or raises F(SEQUENCE), unless phase FAULT serves it (R25, R195). -/
theorem exec_outside_row {i : Instr} {s t : State} (hs : servedInFault i = false) (hrow : s.phase ∉ permissionRow i.mnemonic)
    (h : exec i s = .next t) : t = s ∨ t = takeFault .sequence (encode i) s := by
  by_cases hp : s.phase = .fault
  · cases (exec_dropped hp hs).symm.trans h
    exact .inl rfl
  · have hm : permitted i.mnemonic s.phase = false :=
      Bool.eq_false_iff.mpr fun hm => hrow ((permitted_iff_row _ hp).mp hm)
    cases (exec_refused hp hm).symm.trans h
    exact .inr rfl

/-- The frame of the inputs of the interleaver: SETT, SETD, SETB, PUSH and CLR are all that write them (R21, R37). -/
theorem WrittenByRow.inputs_eq {m : Mnemonic} {s t : State} (h : WrittenByRow m s t) (hm : m ∉ [.sett, .setd, .setb, .push, .clr]) :
    t.total = s.total ∧ t.data = s.data ∧ t.nblk = s.nblk ∧ t.slen = s.slen ∧ t.dmem = s.dmem := by
  obtain ⟨htotal, hdata, hnblk, -, hpush, -⟩ := h
  simp only [List.mem_cons, List.not_mem_nil, or_false, not_or] at hm
  simp only [List.mem_cons, List.not_mem_nil, hm, or_false, imp_false, not_or, not_not] at htotal hdata hnblk hpush
  exact ⟨htotal, hdata, hnblk, hpush⟩

/-- The frame of the symbol: SETS and CLR are all that write it (R21, R28). -/
theorem exec_symbol_eq {i : Instr} {s t : State} (h : exec i s = .next t) (hm : i.mnemonic ∉ [.sets, .clr]) :
    t.ecl = s.ecl ∧ t.ver = s.ver ∧ t.vset = s.vset := by
  obtain ⟨-, -, -, hsymbol, -⟩ := exec_writtenByRow h
  obtain ⟨hvset, -⟩ := exec_flagRow h
  have hkept : ¬ (t.ver ≠ s.ver ∨ t.ecl ≠ s.ecl) := fun hne => hm (hsymbol hne)
  simp only [not_or, not_not] at hkept
  refine ⟨hkept.2, hkept.1, by_contra fun hne => hm ?_⟩
  rw [hvset hne]
  split <;> decide

theorem exec_keeps_inputs {i : Instr} {s t : State} (hclr : i ≠ .clr) (h : exec i s = .next t) (hp : s.phase ≠ .load) :
    t.total = s.total ∧ t.data = s.data ∧ t.nblk = s.nblk ∧ t.slen = s.slen ∧ t.dmem = s.dmem := by
  cases i with
  | clr => exact absurd rfl hclr
  | sett | setd | setb | push =>
    rcases exec_outside_row rfl (List.mem_singleton.not.mpr hp) h with rfl | rfl <;> exact ⟨rfl, rfl, rfl, rfl, rfl⟩
  | _ => exact (exec_writtenByRow h).inputs_eq (by simp [Instr.mnemonic])

theorem exec_keeps_symbol {i : Instr} {s t : State} (hclr : i ≠ .clr) (h : exec i s = .next t)
    (hp : s.phase ∈ [.masking, .mdone, .final, .fault]) : t.ecl = s.ecl ∧ t.ver = s.ver ∧ t.vset = s.vset := by
  cases i with
  | clr => exact absurd rfl hclr
  | sets =>
    have hrow : s.phase ∉ permissionRow .sets := by
      revert hp
      cases s.phase <;> decide
    rcases exec_outside_row rfl hrow h with rfl | rfl <;> exact ⟨rfl, rfl, rfl⟩
  | _ => exact exec_symbol_eq h (by simp [Instr.mnemonic])

/-- Settles O21: the commands that write the inputs are outside their phases there, and every other command leaves them. -/
theorem inputsFreeze : Obligations.InputsFreeze := fun _ _ _ hclr h => ⟨exec_keeps_inputs hclr h, exec_keeps_symbol hclr h⟩

end Sys2Proof.Machine
end
